-- ==== Sys2Proof/Word.lean ====
section
/-! DEFINITION. The widths of the block's datapath (00_scope R6, R8; 10_state R20) and its word types.
Every value is unsigned (00_scope R8). -/

namespace Sys2Proof

/-- `TIME_BITS`: the width of a ROM entry and of the delay counter (00_scope R6; 92 D10 fixes 32). -/
abbrev timeBits : Nat := 32

/-- `REPEAT_BITS`: the width of the repeat operand, fixed by the encoding (00_scope R6; 92 D15). -/
abbrev repeatBits : Nat := 8

/-- A delay-ROM entry, the delay counter DLY, the delay port's argument (10_state R22, R29). -/
abbrev Time := BitVec 32

/-- The 32-bit code of a transmit (10_state R25). -/
abbrev CodeWord := BitVec 32

/-- The repeat count (10_state R26). -/
abbrev RepeatCount := BitVec 8

/-- The index of a code bit (10_state R27). -/
abbrev BitIndex := BitVec 5

/-- A host command word, format C64 (30_encoding R72). -/
abbrev CommandWord := BitVec 64

/-- A micro-operation word, format M4 (30_encoding R76). -/
abbrev MicroWord := BitVec 4

end Sys2Proof
end

