-- ==== Sys2Proof/Syntax.lean ====
section
/-! DEFINITION. The instructions: the three host commands and the two micro-operations of
spec/opcode_table.json (00_scope R2; 30_encoding R72 to R79). -/

namespace Sys2Proof

/-- A duration class, the index into the delay ROM (10_state R22; 30_encoding R77). -/
inductive DurClass where
  | zero
  | tick
  | sep
  | long
  deriving DecidableEq, Repr, Inhabited

/-- The instruction set, one constructor per row of the opcode table. A logical level is a Bool:
`true` is logical 1, active; `false` is logical 0, idle (00_scope R12). -/
inductive Instr where
  /-- `CONSTRUCT`: build the timing table and initialise the line (42_commands R152). -/
  | construct
  /-- `INIT`: (re)configure the line and force it idle (42_commands R153). -/
  | init
  /-- `TRANSMIT code, repeat` (42_commands R156). -/
  | transmit (code : CodeWord) (rep : RepeatCount)
  /-- `EMIT L, C`: apply one symbol (40_driver R94). -/
  | emit (level : Bool) (cls : DurClass)
  /-- `LINE_INIT`: configure the line as an output and drive it idle (40_driver R100). -/
  | lineInit
  deriving DecidableEq, Repr, Inhabited

/-- The name of a host command, as the `Done(cmd)` event carries it (20_memory R56; 42_commands R151). -/
inductive Command where
  | construct
  | init
  | transmit
  deriving DecidableEq, Repr, Inhabited

/-- Whether an instruction is a micro-operation of the driver (format M4); otherwise it is a host
command (format C64) (30_encoding R82). -/
def Instr.isMicro : Instr → Bool
  | .construct => false
  | .init => false
  | .transmit _ _ => false
  | .emit _ _ => true
  | .lineInit => true

/-- Whether an instruction is an emission, that is, an `EMIT` (00_scope R13; 41_serializer R136). -/
def Instr.isEmit : Instr → Bool
  | .construct => false
  | .init => false
  | .transmit _ _ => false
  | .emit _ _ => true
  | .lineInit => false

end Sys2Proof
end

