-- ==== Sys2Proof/Config.lean ====
section
/-! DEFINITION. The build-time configuration (00_scope R6), its values in this spec, and the model's
free values. -/

namespace Sys2Proof

/-- An electrical level of the line (00_scope R12). -/
inductive Level where
  | high
  | low
  deriving DecidableEq, Repr, Inhabited

/-- How the frame trail's ZERO emission drives the pin (00_scope R6; 41_serializer R131). -/
inductive TrailZeroReading where
  /-- `LAW`: the level-inversion law holds, the emission drives HIGH. -/
  | law
  /-- `LITERAL_4C`: the literal text of step 4c, the emission drives LOW. -/
  | literal4c
  deriving DecidableEq, Repr, Inhabited

/-- The build-time configuration of one encoder, a field a row of 00_scope R6 (less `TIME_BITS` and
`REPEAT_BITS`, which are Word.lean's fixed widths). -/
structure Config where
  /-- `BASE_UNIT`: time units per multiplier step. -/
  baseUnit : Nat
  /-- `M_ZERO`. -/
  mZero : Nat
  /-- `M_TICK`. -/
  mTick : Nat
  /-- `M_SEP`. -/
  mSep : Nat
  /-- `M_LONG`. -/
  mLong : Nat
  /-- `SHIFT`: the clock-prescaler compensation shift. -/
  shift : Nat
  /-- `CHUNK`: the largest single primitive delay. -/
  chunk : Nat
  /-- `DELAY_MAX`: the largest argument the platform's delay primitive accepts (OPEN). -/
  delayMax : Nat
  /-- `DELAY_ERR`: how far a primitive delay's real duration may stray from its argument (OPEN). -/
  delayErr : Nat
  /-- `PIN_ID`: the output the block drives (OPEN). -/
  pinId : Nat
  /-- `CTOR_SETS_GUARD`: whether CONSTRUCT sets the init guard. -/
  ctorSetsGuard : Bool
  /-- `TRAIL_ZERO_READING`. -/
  trailZero : TrailZeroReading
  /-- `PIN_CFG_LEVEL`: the pin level between `configureOutput` and the first level write (OPEN). -/
  pinCfgLevel : Level
  deriving DecidableEq, Repr, Inhabited

/-- The platform's `DELAY_ERR`, which 92 D7 leaves OPEN: no value of it can be proved.
DESIGN CHOICE (log 2), safe. -/
opaque Config.openDelayErr : Nat

/-- The platform's `PIN_ID`, which 92 D36 leaves OPEN. DESIGN CHOICE (log 2), safe. -/
opaque Config.openPinId : Nat

/-- The platform's `PIN_CFG_LEVEL`, which 92 D19 leaves OPEN. DESIGN CHOICE (log 2), safe. -/
opaque Config.openPinCfgLevel : Level

/-- Free value: what REP holds after TRAIL_ZERO decremented it at 0, a case no rule gives a result for
and no run reaches (10_state R26; 00_scope R8). The argument is the length of the trace, which is
different at every use. DESIGN CHOICE (log 11), safe. -/
opaque Config.repBelowZero : Nat → RepeatCount

/-- The configuration with the values 00_scope R6 takes. `DELAY_MAX` is OPEN there; this
configuration puts CHUNK's own value, the least that the check admits: DESIGN CHOICE (log 2), unsafe. -/
def Config.standard : Config :=
  { baseUnit := 114
    mZero := 0
    mTick := 10
    mSep := 48
    mLong := 500
    shift := 0
    chunk := 10000
    delayMax := 10000
    delayErr := Config.openDelayErr
    pinId := Config.openPinId
    ctorSetsGuard := false
    trailZero := .law
    pinCfgLevel := Config.openPinCfgLevel }

/-- The multiplier of a duration class (00_scope R6; 30_encoding R77). -/
def Config.multiplier (k : Config) : DurClass → Nat
  | .zero => k.mZero
  | .tick => k.mTick
  | .sep => k.mSep
  | .long => k.mLong

end Sys2Proof
end

