-- ==== Sys2Proof/WellFormed.lean ====
section
/-! DEFINITION. The checks of 00_scope R6 on a configuration, and of an instruction's operands. -/

namespace Sys2Proof

/-- `BASE_UNIT >= 1` (00_scope R6). -/
def Config.baseUnitOk (k : Config) : Bool := 1 ≤ k.baseUnit

/-- `M_ZERO = 0` and `M_TICK < M_SEP < M_LONG` (00_scope R6). -/
def Config.multipliersOk (k : Config) : Bool := k.mZero = 0 && (k.mTick < k.mSep && k.mSep < k.mLong)

/-- `M_LONG * BASE_UNIT < 2^TIME_BITS` (00_scope R6). -/
def Config.romFits (k : Config) : Bool := k.mLong * k.baseUnit < 2 ^ timeBits

/-- `0 <= SHIFT < TIME_BITS` (00_scope R6). -/
def Config.shiftOk (k : Config) : Bool := k.shift < timeBits

/-- `1 <= CHUNK <= DELAY_MAX` (00_scope R6). -/
def Config.chunkOk (k : Config) : Bool := 1 ≤ k.chunk && k.chunk ≤ k.delayMax

/-- `DELAY_MAX >= 1` (00_scope R6). -/
def Config.delayMaxOk (k : Config) : Bool := 1 ≤ k.delayMax

/-- A configuration is well-formed only when every check of 00_scope R6 holds. -/
def Config.wellFormed (k : Config) : Bool :=
  k.baseUnitOk && k.multipliersOk && k.romFits && k.shiftOk && k.chunkOk && k.delayMaxOk

/-- Every operand's type is exactly its field of the encoding (30_encoding R72, R76), and "all inputs
are accepted unconditionally" (42_commands R156; 40_driver R94), so every instruction is well-formed.
What the encoding can hold beyond the instructions is ILLEGAL or reserved, and Decode refuses it. -/
def Instr.wellFormed : Instr → Bool
  | .construct => true
  | .init => true
  | .transmit _ _ => true
  | .emit _ _ => true
  | .lineInit => true

end Sys2Proof
end

