-- ==== Sys2Proof/Decode.lean ====
section
/-! DEFINITION. Decoding and encoding of both formats: the 64-bit command word C64
(30_encoding R72 to R75) and the 4-bit micro-operation word M4 (30_encoding R76 to R78). -/

namespace Sys2Proof

/-- Why a word is no instruction. -/
inductive DecodeError where
  /-- OP is 0x00 or 0x04 to 0xFF (30_encoding R73). -/
  | reservedOp
  /-- RSV is not zero (30_encoding R72). -/
  | reservedField
  /-- A CODE or REPEAT bit is set in INIT or CONSTRUCT (30_encoding R72). -/
  | operandSet
  /-- A micro-operation word 0x9 to 0xF (30_encoding R78). -/
  | reservedMicroOp
  deriving DecidableEq, Repr

/-- What a word decodes to. For a command, every `illegal` is the spec's ILLEGAL (30_encoding R74). -/
inductive Decoded where
  | instr (i : Instr)
  | illegal (e : DecodeError)
  deriving DecidableEq, Repr

/-- The instruction a word decodes to, if any. -/
def Decoded.toOption : Decoded → Option Instr
  | .instr i => some i
  | .illegal _ => none

/-- A word on the port it arrives on, which fixes its format (30_encoding R82). -/
inductive PortWord where
  | c64 (w : CommandWord)
  | m4 (w : MicroWord)
  deriving DecidableEq, Repr

/-- The field `CODE`, bits 63:32 (30_encoding R72). -/
def fieldCode (cmd : CommandWord) : CodeWord := cmd.extractLsb' 32 32

/-- The field `REPEAT`, bits 31:24 (30_encoding R72). -/
def fieldRepeat (cmd : CommandWord) : RepeatCount := cmd.extractLsb' 24 8

/-- The field `RSV`, bits 23:8 (30_encoding R72). -/
def fieldRsv (cmd : CommandWord) : BitVec 16 := cmd.extractLsb' 8 16

/-- The field `OP`, bits 7:0 (30_encoding R72). -/
def fieldOp (cmd : CommandWord) : BitVec 8 := cmd.extractLsb' 0 8

/-- The operand bits 63:24 together, which INIT and CONSTRUCT keep zero (30_encoding R74). -/
def fieldOperands (cmd : CommandWord) : BitVec 40 := cmd.extractLsb' 24 40

/-- The class code of a duration class (10_state R22; 30_encoding R77). -/
def DurClass.toBits : DurClass → BitVec 2
  | .zero => 0
  | .tick => 1
  | .sep => 2
  | .long => 3

/-- The duration class of a class code; every value names one (30_encoding R77). -/
def DurClass.ofBits (c : BitVec 2) : DurClass :=
  if c = 0 then .zero else if c = 1 then .tick else if c = 2 then .sep else .long

/-- Decoding a command word, total on all 2^64 words, in the order of 30_encoding R74. -/
def decodeCommand (cmd : CommandWord) : Decoded :=
  if fieldRsv cmd ≠ 0 then .illegal .reservedField
  else if fieldOp cmd = 1 then
    if fieldOperands cmd = 0 then .instr .init else .illegal .operandSet
  else if fieldOp cmd = 2 then .instr (.transmit (fieldCode cmd) (fieldRepeat cmd))
  else if fieldOp cmd = 3 then
    if fieldOperands cmd = 0 then .instr .construct else .illegal .operandSet
  else .illegal .reservedOp

/-- Decoding a micro-operation word, total on all 16 words (30_encoding R76, R78). -/
def decodeMicro (w : MicroWord) : Decoded :=
  if w.getLsbD 3 = false then .instr (.emit (w.getLsbD 2) (DurClass.ofBits (w.extractLsb' 0 2)))
  else if w = 8 then .instr .lineInit
  else .illegal .reservedMicroOp

/-- Decoding a word by the port it arrives on (30_encoding R82). -/
def decode : PortWord → Decoded
  | .c64 w => decodeCommand w
  | .m4 w => decodeMicro w

/-- Field assembly of a command word: CODE from bit 32 up, REPEAT from bit 24 up, RSV zero, OP from
bit 0 up (30_encoding R72). -/
def assembleC64 (code : CodeWord) (rep : RepeatCount) (op : BitVec 8) : CommandWord :=
  code.setWidth 64 <<< 32 ||| rep.setWidth 64 <<< 24 ||| op.setWidth 64

/-- Field assembly of a micro-operation word, `{K, L, C}` (30_encoding R76). -/
def assembleM4 (k l : Bool) (c : BitVec 2) : MicroWord :=
  BitVec.ofBool k ++ BitVec.ofBool l ++ c

/-- The word of an instruction (30_encoding R72, R73, R76). -/
def encode : Instr → PortWord
  | .construct => .c64 (assembleC64 0 0 3)
  | .init => .c64 (assembleC64 0 0 1)
  | .transmit code rep => .c64 (assembleC64 code rep 2)
  | .emit level cls => .m4 (assembleM4 false level cls.toBits)
  | .lineInit => .m4 (assembleM4 true false 0)

/-- The port an opcode-table row's word arrives on. The table writes a micro-operation in 4 bits, so in
one whole byte, and a command in 64, of which TRANSMIT's row fixes 24; so a row of at most 8 bits is a
micro-operation's. DESIGN CHOICE (log 20), safe. -/
def tableWord (nbits w : Nat) : PortWord :=
  if nbits ≤ 8 then .m4 (BitVec.ofNat 4 (w % 2 ^ nbits)) else .c64 (BitVec.ofNat 64 (w % 2 ^ nbits))

/-- The instruction this decoder reads from an instruction whose bits are `w` (the low `nbits` of
them; the bits above are 0). A word with a bit beyond its port's width is no instruction. -/
def decodeTableWord (nbits w : Nat) : Option Instr :=
  if w % 2 ^ nbits < (if nbits ≤ 8 then 2 ^ 4 else 2 ^ 64) then (decode (tableWord nbits w)).toOption
  else none

end Sys2Proof
end

