-- ==== Sys2Proof/Machine/State.lean ====
section
/-! DEFINITION. The state of the block (10_state R20), the trace's events (20_memory R56), the moves of
host, platform and environment (42_commands R159), the reasons a step can stop, and the state after
reset (10_state R39). -/

namespace Sys2Proof.Machine

/-- The sequencer phase PH, a 4-bit register: all sixteen values of 30_encoding R80. -/
inductive Phase where
  | idle
  | preInit
  | preLong
  | preTick
  | preSep
  | leadIdle
  | leadActive
  | dataFirst
  | dataSecond
  | trailSep
  | trailZero
  | postIdle
  | postActive
  | finalInit
  /-- The reserved value 0xE (30_encoding R81). -/
  | reservedE
  /-- The reserved value 0xF (30_encoding R81). -/
  | reservedF
  deriving DecidableEq, Repr

/-- The four registers that can hold no value (10_state R38). -/
inductive RegName where
  | code
  | rep
  | bit
  | dly
  deriving DecidableEq, Repr

/-- A fault reason with the value 60_exceptions R171 records for it. -/
inductive FaultReason where
  /-- Code 1: the presented word decodes to ILLEGAL. -/
  | illegalCommand (word : CommandWord)
  /-- Code 2: a command arrived while busy. -/
  | reentrant (word : CommandWord) (ph : Phase)
  /-- Code 3: a reserved micro-operation word reached the driver. -/
  | badMicroOp (word : MicroWord)
  /-- Code 4: PH held a reserved value at a step. -/
  | badPhase (ph : Phase)
  /-- Code 5: a register with no value was read. -/
  | unwritten (reg : RegName)
  deriving DecidableEq, Repr

/-- An event of the trace (00_scope R10; 20_memory R56). -/
inductive Event where
  /-- `Cfg`: `configureOutput(PIN_ID)`. -/
  | cfg
  /-- `Set(e)`: `setOutputLevel(PIN_ID, e)`. -/
  | set (e : Level)
  /-- `Dly(n)`: one primitive delay of n time units. -/
  | dly (n : Nat)
  /-- `Flt(reason)`. -/
  | flt (r : FaultReason)
  /-- `Done(cmd)`. -/
  | done (c : Command)
  deriving DecidableEq, Repr

/-- A micro-operation that the sequencer has issued to the driver. -/
inductive Mop where
  /-- A micro-operation word (30_encoding R76). -/
  | word (w : MicroWord)
  /-- The frame trail's ZERO emission under `LITERAL_4C`, which has no word (41_serializer R131; log 12). -/
  | literalTrailZero
  deriving DecidableEq, Repr

/-- An event with the value of TIME when it happens (20_memory R56). -/
structure Stamped where
  time : Nat
  event : Event
  deriving DecidableEq, Repr

/-- The delay ROM: one entry per duration class (10_state R22). -/
structure Rom where
  zero : Time
  tick : Time
  sep : Time
  long : Time
  deriving DecidableEq, Repr

/-- What the world outside the block does at one step (42_commands R159; 30_encoding R70).
DESIGN CHOICE (log 5), safe. -/
inductive HostMove where
  /-- `rst` is asserted (70_reset_and_hazards R190, R192). Where the step would run a micro-operation,
  `cut` says after how many of its events (log 8). -/
  | rst (cut : Nat)
  /-- `cmd_valid = 1` with this word on `cmd` (30_encoding R70). -/
  | command (w : CommandWord)
  /-- The host waits until `busy = 0`, then lets n time units pass (42_commands R158, R159);
  `wait 0` is the syntax's `WAIT` (30_encoding R84; log 7). The spec gives a wait no granularity: that n is a
  whole number of time units is a DESIGN CHOICE (log 29), unsafe. -/
  | wait (n : Nat)
  /-- Nothing is presented in this step. Inside a delay call, `dly_ack` stays low too (40_driver R102). -/
  | pass
  /-- The platform raises `dly_ack` for the call the block waits in, and answers every further call of the
  micro-operation at once (40_driver R102; log 17). While no call is open `dly_ack` has no effect, and the step
  is that of `pass`: DESIGN CHOICE (log 28), unsafe. -/
  | ack
  /-- The platform answers `acks` more delay calls of the micro-operation and withholds `dly_ack` from the
  next one (40_driver R102; log 17); where no call follows it withholds nothing. -/
  | hold (acks : Nat)
  /-- The environment clears `PIN.OE` (60_exceptions R183; log 13). -/
  | interfere
  deriving DecidableEq, Repr

/-- The state. The fields down to `trace` are 10_state R20's; `done` is 30_encoding R70's output;
the others are the model's own (INVENTORY.md, State). -/
structure State where
  /-- `ROM[0..3]`. -/
  rom : Rom
  /-- `CODE`; `none` is the spec's "no value" (10_state R39; log 3). -/
  code : Option CodeWord
  /-- `REP`; `none` is the spec's "no value". -/
  rep : Option RepeatCount
  /-- `BIT`; `none` is the spec's "no value". -/
  bit : Option BitIndex
  /-- `PH`, the program counter. -/
  ph : Phase
  /-- `DLY`; `none` is the spec's "no value". -/
  dly : Option Time
  /-- `GUARD`. -/
  guard : Bool
  /-- `FAULT`; `none` is the spec's "none" (10_state R33). -/
  fault : Option FaultReason
  /-- `PIN.OE`. -/
  oe : Bool
  /-- `PIN.LEVEL`; `none` is the spec's "no value" (10_state R36). -/
  level : Option Level
  /-- The micro-operation the driver has been issued and has not completed, where it outlasts a step; `none`
  between micro-operations (40_driver R91; log 6). -/
  mop : Option Mop
  /-- The delay port's request: the argument of the delay call the block waits in, `dly_req` with `dly_arg`;
  `none` where `dly_req` is low (30_encoding R70; 40_driver R102). -/
  req : Option Nat
  /-- `TIME` (model only), in whole time units (log 29). -/
  time : Nat
  /-- `TRACE` (model only), oldest event first. -/
  trace : List Stamped
  /-- The `done` output: true for the one step in which a command completed (42_commands R151; log 10). -/
  done : Bool
  /-- Which command was accepted last, for the `Done(cmd)` event (log 9). -/
  cmd : Command
  /-- The PIN.OE history of this launch: each value given to PIN.OE with its TIME (20_memory R57; log 13). -/
  oeLog : List (Nat × Bool)
  /-- The traces of the launches that an `rst` ended, oldest first (log 8). -/
  ended : List (List Stamped)
  /-- Whether the first reset has happened (70_reset_and_hazards R191; log 15). -/
  launched : Bool
  /-- The build-time configuration; no step changes it (00_scope R6; log 1). -/
  cfg : Config
  /-- What host, platform port and environment will do, one move a step (log 5). -/
  host : List HostMove
  deriving DecidableEq, Repr

/-- Why the machine stops. -/
inductive Fault where
  /-- Raised by a step with no move left: the block is faulted and takes no further step, and nobody
  asserts `rst` (60_exceptions R170, R175; 93 I24; log 14). Safe. -/
  | stuck (r : FaultReason)
  /-- Raised by a step with no move left: before the first reset the block takes no step
  (70_reset_and_hazards R191; log 15). Safe. -/
  | notReset
  deriving DecidableEq, Repr

/-- Why the model gives no meaning. -/
inductive Refusal where
  /-- Raised by exec for an instruction without a meaning yet, by its mnemonic; no arm does. Safe. -/
  | notModelled (mnemonic : String)
  /-- Raised by every meaning and every step under an ill-formed configuration, which "has no run"
  (00_scope R6; 93 I25; log 22). Safe. -/
  | illFormedConfig
  deriving DecidableEq, Repr

/-- The delay ROM that CONSTRUCT and reset load: each multiplier times the base unit (10_state R23).
A well-formed configuration rules overflow out (10_state R24). -/
def Rom.build (k : Config) : Rom :=
  { zero := BitVec.ofNat 32 (k.mZero * k.baseUnit)
    tick := BitVec.ofNat 32 (k.mTick * k.baseUnit)
    sep := BitVec.ofNat 32 (k.mSep * k.baseUnit)
    long := BitVec.ofNat 32 (k.mLong * k.baseUnit) }

/-- The state of 10_state R39, for any configuration and any moves to come. -/
def State.afterReset (k : Config) (moves : List HostMove) : State :=
  { rom := Rom.build k
    code := none
    rep := none
    bit := none
    ph := .idle
    dly := none
    guard := k.ctorSetsGuard
    fault := none
    oe := true
    level := some .high
    mop := none
    req := none
    time := 0
    trace := [⟨0, .cfg⟩, ⟨0, .set .high⟩]
    done := false
    cmd := .construct
    oeLog := [(0, true)]
    ended := []
    launched := true
    cfg := k
    host := moves }

/-- Before the first reset (70_reset_and_hazards R191): `launched` is false, and no step reads what
stands in the other fields but `cfg` and `host` (log 15). -/
def State.powerOn (k : Config) (moves : List HostMove) : State :=
  { State.afterReset k moves with
    oe := false
    level := none
    trace := []
    oeLog := []
    launched := false }

/-- The machine right after reset, in the configuration 00_scope R6 takes (10_state R39). -/
def State.reset : State := State.afterReset Config.standard []

end Sys2Proof.Machine
end

