-- ==== Sys2Proof/Machine/Flags.lean ====
section
/-! DEFINITION. The phase code (30_encoding R80) and the status outputs (10_state R31 to R33;
30_encoding R70). The block has no arithmetic flags (10_state R32). -/

namespace Sys2Proof.Machine

/-- The 4-bit value of PH in a phase (30_encoding R80). -/
def Phase.toBits : Phase → BitVec 4
  | .idle => 0x0
  | .preInit => 0x1
  | .preLong => 0x2
  | .preTick => 0x3
  | .preSep => 0x4
  | .leadIdle => 0x5
  | .leadActive => 0x6
  | .dataFirst => 0x7
  | .dataSecond => 0x8
  | .trailSep => 0x9
  | .trailZero => 0xA
  | .postIdle => 0xB
  | .postActive => 0xC
  | .finalInit => 0xD
  | .reservedE => 0xE
  | .reservedF => 0xF

/-- The phases in the order of their codes (30_encoding R80). -/
def Phase.all : List Phase :=
  [.idle, .preInit, .preLong, .preTick, .preSep, .leadIdle, .leadActive, .dataFirst, .dataSecond,
   .trailSep, .trailZero, .postIdle, .postActive, .finalInit, .reservedE, .reservedF]

/-- The phase of a 4-bit value of PH (30_encoding R80). -/
def Phase.ofBits (v : BitVec 4) : Phase := Phase.all.getD v.toNat .idle

/-- Whether PH holds 0xE or 0xF (30_encoding R81). -/
def Phase.isReserved : Phase → Bool
  | .idle => false
  | .preInit => false
  | .preLong => false
  | .preTick => false
  | .preSep => false
  | .leadIdle => false
  | .leadActive => false
  | .dataFirst => false
  | .dataSecond => false
  | .trailSep => false
  | .trailZero => false
  | .postIdle => false
  | .postActive => false
  | .finalInit => false
  | .reservedE => true
  | .reservedF => true

/-- The `busy` output: `PH != IDLE` (10_state R31); no output before the first reset (log 15). -/
def busy (s : State) : Bool := s.ph ≠ .idle

/-- The `fault` output: `FAULT != none` (10_state R33); no output before the first reset (log 15). -/
def faultOut (s : State) : Bool := s.fault.isSome

/-- The `done` output (30_encoding R70; 42_commands R151); no output before the first reset (log 15). -/
def doneOut (s : State) : Bool := s.done

/-- The cause code of a fault reason (60_exceptions R171). -/
def FaultReason.causeCode : FaultReason → Nat
  | .illegalCommand _ => 1
  | .reentrant _ _ => 2
  | .badMicroOp _ => 3
  | .badPhase _ => 4
  | .unwritten _ => 5

end Sys2Proof.Machine
end

