-- ==== Sys2Proof/Machine/Ops.lean ====
section
/-! DEFINITION. The named operations over the state: the port primitives (00_scope R10; 20_memory R55),
the ROM read, the scaled delay, an emission, the line initialisation, fault entry and, beside it, its
only exit, reset (60_exceptions R170, R175; 70_reset_and_hazards R190), and command acceptance. -/

namespace Sys2Proof.Machine

/-- The outcome of a step or a meaning. -/
abbrev Result := Host.Outcome State Fault Refusal

/-- Appends an event to the trace, stamped with the current TIME (20_memory R56). -/
def record (e : Event) (s : State) : State := { s with trace := s.trace ++ [⟨s.time, e⟩] }

/-- `PinConfigure()`: PIN.OE <- 1, and until the next level write the pin's level is `PIN_CFG_LEVEL`
(00_scope R10; 10_state R35, R36; 40_driver R104). -/
def pinConfigure (s : State) : State :=
  record .cfg
    { s with oe := true, level := some s.cfg.pinCfgLevel, oeLog := s.oeLog ++ [(s.time, true)] }

/-- `PinWrite(e)`: PIN.LEVEL <- e. The write is issued whatever PIN.OE is (00_scope R10; 20_memory R55;
40_driver R94). -/
def pinWrite (e : Level) (s : State) : State := record (.set e) { s with level := some e }

/-- Lets n time units pass. -/
def elapse (n : Nat) (s : State) : State := { s with time := s.time + n }

/-- The block asks for one primitive delay: `dly_arg <- n` and `dly_req` is raised (40_driver R102). -/
def request (n : Nat) (s : State) : State := { record (.dly n) s with req := some n }

/-- The platform raises `dly_ack`: the call the block waits in ends, and TIME advances by exactly its
argument (40_driver R102; 20_memory R58). -/
def acknowledge (s : State) : State :=
  match s.req with
  | some n => { elapse n s with req := none }
  | none => s

/-- `Delay(n)`: one primitive delay, answered (20_memory R58; 40_driver R102). -/
def delay (n : Nat) (s : State) : State := acknowledge (request n s)

/-- `DLY <- d` (10_state R29). -/
def setDly (d : Nat) (s : State) : State := { s with dly := some (BitVec.ofNat 32 d) }

/-- `RomRead(c)`: the whole entry, without side effect (20_memory R51). -/
def Rom.read (r : Rom) : DurClass → Time
  | .zero => r.zero
  | .tick => r.tick
  | .sep => r.sep
  | .long => r.long

/-- The argument of the next delay call when DLY holds d: a full chunk, or the remainder (40_driver R96). -/
def nextArg (chunk d : Nat) : Nat := if chunk ≤ d then chunk else d

/-- The loop of `ScaledDelay`, with d the value DLY holds (40_driver R96), while the platform answers the
next `acks` calls; the block waits in the call after them (40_driver R102). -/
def delayLoop : Nat → Nat → State → State
  | 0, d, s => request (nextArg s.cfg.chunk d) s
  | acks + 1, d, s =>
    if s.cfg.chunk ≤ d then
      delayLoop acks (d - s.cfg.chunk) (setDly (d - s.cfg.chunk) (delay s.cfg.chunk s))
    else delay d s

/-- `ScaledDelay(duration)` while the platform answers `acks` calls (40_driver R96, R102). -/
def scaledDelayAcks (acks : Nat) (duration : Time) (s : State) : State :=
  delayLoop acks (duration.toNat >>> s.cfg.shift) (setDly (duration.toNat >>> s.cfg.shift) s)

/-- `ScaledDelay(duration)`, every call answered (40_driver R96): the shift, then full chunks, then one final
partial delay. Each chunk is at least 1, so there are at most d + 1 calls. -/
def scaledDelay (duration : Time) (s : State) : State :=
  scaledDelayAcks ((duration.toNat >>> s.cfg.shift) + 1) duration s

/-- An emission at an electrical level: the level first, then the class's delay (40_driver R94, R95). -/
def emission (e : Level) (c : DurClass) (s : State) : State :=
  scaledDelay (s.rom.read c) (pinWrite e s)

/-- The same emission while the platform answers `acks` of its delay calls (40_driver R102). -/
def emissionAcks (acks : Nat) (e : Level) (c : DurClass) (s : State) : State :=
  scaledDelayAcks acks (s.rom.read c) (pinWrite e s)

/-- The rest of an emission that waits in a delay call while DLY holds d: the call is answered, and so are
`acks` of those that follow (40_driver R96, R102). -/
def resumeDelay (acks : Nat) (d : Nat) (s : State) : State :=
  if s.cfg.chunk ≤ d then
    delayLoop acks (d - s.cfg.chunk) (setDly (d - s.cfg.chunk) (acknowledge s))
  else acknowledge s

/-- The three actions of `LINE_INIT` (40_driver R100). -/
def lineInitActions (s : State) : State :=
  { pinWrite .high (pinConfigure s) with guard := true }

/-- The actions that CONSTRUCT and reset share (42_commands R152; 70_reset_and_hazards R190). -/
def constructActions (s : State) : State :=
  { pinWrite .high (pinConfigure
      { s with rom := Rom.build s.cfg, code := none, rep := none, bit := none, dly := none }) with
    guard := s.cfg.ctorSetsGuard
    ph := .idle }

/-- A command completes: `Done(cmd)` is recorded and `done` is pulsed (42_commands R151). -/
def complete (c : Command) (s : State) : State := { record (.done c) s with done := true }

/-- `raise Fault(reason)`: FAULT <- reason and `Flt(reason)` is recorded; PH, the registers and the pin
keep their values (60_exceptions R170). -/
def raise (r : FaultReason) (s : State) : State :=
  record (.flt r) { s with fault := some r, done := false }

/-- The launch that an `rst` ends leaves its trace, with the events the cut micro-operation had already
recorded (20_memory R56; 70_reset_and_hazards R192). Before the first reset there is no launch to end. -/
def endLaunch (cutEvents : List Stamped) (s : State) : State :=
  { s with ended := if s.launched then s.ended ++ [s.trace ++ cutEvents] else s.ended }

/-- `rst`: a new launch begins (70_reset_and_hazards R190). It is a fault's only exit
(60_exceptions R175). -/
def resetLaunch (s : State) : State :=
  constructActions
    { s with
      mop := none
      req := none
      time := 0
      trace := []
      oeLog := []
      fault := none
      done := false
      cmd := .construct
      launched := true }

/-- The environment clears PIN.OE (60_exceptions R183); before the first reset there is no line yet. -/
def interfere (s : State) : State :=
  if s.launched then { s with oe := false, oeLog := s.oeLog ++ [(s.time, false)], done := false } else s

/-- An ill-formed configuration has no run (00_scope R6; 93 I25; log 22). -/
def configured (s : State) (k : State → Result) : Result :=
  if s.cfg.wellFormed then k s else .refused .illFormedConfig

/-- Acceptance of the command whose word is w (42_commands R150): a faulted block takes no step, a busy
one faults. -/
def accept (w : CommandWord) (s : State) (k : State → Result) : Result :=
  if faultOut s then .next s
  else if busy s then .next (raise (.reentrant w s.ph) s)
  else k s

end Sys2Proof.Machine
end

