-- ==== Sys2Proof/Machine/Operands.lean ====
section
/-! DEFINITION. Operand forms: the level inversion (40_driver R90), the code bit of a data phase
(41_serializer R128), the counters' updates (41_serializer R129, R131), and the reading of a register
that may hold no value (10_state R38). -/

namespace Sys2Proof.Machine

/-- `phys(L)`: logical 1 drives LOW, logical 0 drives HIGH (40_driver R90). -/
def phys : Bool → Level
  | true => .low
  | false => .high

/-- What reading a register gives: its value, or the register's name where it holds no value
(10_state R38). -/
inductive ReadResult (α : Type) where
  | value (v : α)
  | unwritten (r : RegName)
  deriving DecidableEq, Repr

/-- Reads a register. -/
def readReg {α : Type} (r : RegName) : Option α → ReadResult α
  | some v => .value v
  | none => .unwritten r

/-- Continues with a register's value, or raises `Fault(Unwritten)` (10_state R38). -/
def withReg {α : Type} (x : ReadResult α) (s : State) (k : α → State) : State :=
  match x with
  | .value v => k v
  | .unwritten r => raise (.unwritten r) s

/-- `CODE[BIT]` (41_serializer R128). CODE is read first (log 4). -/
def codeBit (s : State) : ReadResult Bool :=
  match readReg .code s.code with
  | .unwritten r => .unwritten r
  | .value c =>
    match readReg .bit s.bit with
    | .unwritten r => .unwritten r
    | .value b => .value (c.getLsbD b.toNat)

/-- `REP - 1` (41_serializer R131). No rule gives a result at 0, and no run reaches it: there it is a
free value (log 11). -/
def repMinusOne (r : RepeatCount) (s : State) : RepeatCount :=
  if r = 0 then Config.repBelowZero s.trace.length else r - 1

end Sys2Proof.Machine
end

