-- ==== Sys2Proof/Machine/Commands.lean ====
section
/-! DEFINITION. The host commands CONSTRUCT, INIT and TRANSMIT (42_commands R150 to R156). -/

namespace Sys2Proof.Machine

/-- `CONSTRUCT` (42_commands R152). It completes at its own acceptance (42_commands R151). -/
def execConstruct (s : State) : Result :=
  configured s fun s => accept (assembleC64 0 0 3) s fun s =>
    .next (complete .construct { constructActions s with cmd := .construct })

/-- `INIT` (42_commands R153). -/
def execInit (s : State) : Result :=
  configured s fun s => accept (assembleC64 0 0 1) s fun s =>
    .next { s with ph := .finalInit, cmd := .init }

/-- `TRANSMIT code, repeat` (42_commands R156). -/
def execTransmit (code : CodeWord) (rep : RepeatCount) (s : State) : Result :=
  configured s fun s => accept (assembleC64 code rep 2) s fun s =>
    .next
      { s with
        code := some code
        rep := some rep
        ph := if s.guard then .preLong else .preInit
        cmd := .transmit }

end Sys2Proof.Machine
end

