-- ==== Sys2Proof/Machine/Driver.lean ====
section
/-! DEFINITION. The driver's micro-operations EMIT and LINE_INIT (40_driver R94, R100). -/

namespace Sys2Proof.Machine

/-- `EMIT L, C` (40_driver R94). -/
def execEmit (level : Bool) (cls : DurClass) (s : State) : Result :=
  configured s fun s => .next (emission (phys level) cls s)

/-- `LINE_INIT` (40_driver R100). -/
def execLineInit (s : State) : Result :=
  configured s fun s => .next (lineInitActions s)

end Sys2Proof.Machine
end

