-- ==== Sys2Proof/Machine/Dispatch.lean ====
section
/-! DEFINITION. exec: one arm per instruction. -/

namespace Sys2Proof.Machine

def exec (i : Instr) (s : State) : Host.Outcome State Fault Refusal :=
  match i with
  | .construct => Sys2Proof.Machine.execConstruct s
  | .init => Sys2Proof.Machine.execInit s
  | .transmit code rep => Sys2Proof.Machine.execTransmit code rep s
  | .emit level cls => Sys2Proof.Machine.execEmit level cls s
  | .lineInit => Sys2Proof.Machine.execLineInit s

end Sys2Proof.Machine
end

