-- ==== Sys2Proof/Machine/Sequencer.lean ====
section
/-! DEFINITION. The symbol sequencer (41_serializer R120 to R134): what a phase issues, the driver that
runs it, and the register updates and next phase that follow. -/

namespace Sys2Proof.Machine

/-- What the sequencer hands to the driver in a phase. -/
inductive Issue where
  /-- IDLE issues nothing (41_serializer R120). -/
  | nothing
  /-- A micro-operation word (30_encoding R76). -/
  | word (w : MicroWord)
  /-- The frame trail's ZERO emission under `LITERAL_4C`, which drives LOW (41_serializer R131; log 12). -/
  | literalTrailZero
  /-- The phase reads a register with no value before its micro-operation (10_state R38). -/
  | unwritten (r : RegName)
  /-- PH holds a reserved value (30_encoding R81). -/
  | badPhase (p : Phase)
  deriving DecidableEq, Repr

/-- An issued micro-operation as what the sequencer handed over. -/
def Mop.issue : Mop → Issue
  | .word w => .word w
  | .literalTrailZero => .literalTrailZero

/-- The micro-operation handed to the driver, if any. -/
def Issue.mop : Issue → Option Mop
  | .nothing => none
  | .word w => some (.word w)
  | .literalTrailZero => some .literalTrailZero
  | .unwritten _ => none
  | .badPhase _ => none

/-- The level and the duration class of an `EMIT` (40_driver R94). -/
def pulseOf : Instr → Option (Level × DurClass)
  | .construct => none
  | .init => none
  | .transmit _ _ => none
  | .emit level cls => some (phys level, cls)
  | .lineInit => none

/-- The emission handed to the driver, if it is one: only an emission has delay calls. -/
def Issue.pulse : Issue → Option (Level × DurClass)
  | .nothing => none
  | .word w => (decodeMicro w).toOption.bind pulseOf
  | .literalTrailZero => some (.low, .zero)
  | .unwritten _ => none
  | .badPhase _ => none

/-- The word of `EMIT L, C` (30_encoding R76). -/
def emitWord (level : Bool) (cls : DurClass) : MicroWord := assembleM4 false level cls.toBits

/-- The word of `LINE_INIT` (30_encoding R76). -/
def lineInitWord : MicroWord := assembleM4 true false 0

/-- A data half-pulse: `EMIT b, TICK` for a bit b that was read, or no micro-operation
(41_serializer R128, R129). -/
def dataHalf (x : ReadResult Bool) (flip : Bool) : Issue :=
  match x with
  | .value b => .word (emitWord (b ^^ flip) .tick)
  | .unwritten r => .unwritten r

/-- `issue(PH, CODE, BIT)`: the micro-operation column of 41_serializer R121. -/
def issue (s : State) : Issue :=
  match s.ph with
  | .idle => .nothing
  | .preInit => .word lineInitWord
  | .preLong => .word (emitWord true .long)
  | .preTick => .word (emitWord false .tick)
  | .preSep => .word (emitWord true .sep)
  | .leadIdle => .word (emitWord false .tick)
  | .leadActive => .word (emitWord true .tick)
  | .dataFirst => dataHalf (codeBit s) false
  | .dataSecond => dataHalf (codeBit s) true
  | .trailSep => .word (emitWord true .sep)
  | .trailZero =>
    match s.cfg.trailZero with
    | .law => .word (emitWord false .zero)
    | .literal4c => .literalTrailZero
  | .postIdle => .word (emitWord false .tick)
  | .postActive => .word (emitWord true .tick)
  | .finalInit => .word lineInitWord
  | .reservedE => .badPhase .reservedE
  | .reservedF => .badPhase .reservedF

/-- The driver runs a micro-operation word: a reserved word raises `Fault(BadMicroOp)`
(30_encoding R78), any other is executed (40_driver R91). -/
def runWord (w : MicroWord) (s : State) : Result :=
  match decodeMicro w with
  | .instr i => exec i s
  | .illegal _ => .next (raise (.badMicroOp w) s)

/-- Moves PH to the phase of a loop test: the loop is entered again while the counter is not 0. -/
def branch (again : Bool) (loop done : Phase) : Phase := if again then loop else done

/-- The register updates and the next phase of 41_serializer R121, taken together after the phase's
micro-operation has completed (41_serializer R120). A fault has left PH as it was (60_exceptions R170);
the rows IDLE, 0xE and 0xF have no micro-operation and update nothing. -/
def advance (s : State) : State :=
  match s.ph with
  | .idle => s
  | .preInit => { s with ph := .preLong }
  | .preLong => { s with ph := .preTick }
  | .preTick => { s with ph := .preSep }
  | .preSep =>
    withReg (readReg .rep s.rep) s fun r => { s with ph := branch (r ≠ 0) .leadIdle .postIdle }
  | .leadIdle => { s with ph := .leadActive }
  | .leadActive => { s with bit := some 31, ph := .dataFirst }
  | .dataFirst => { s with ph := .dataSecond }
  | .dataSecond =>
    withReg (readReg .bit s.bit) s fun b =>
      if b ≠ 0 then { s with bit := some (b - 1), ph := .dataFirst } else { s with ph := .trailSep }
  | .trailSep => { s with ph := .trailZero }
  | .trailZero =>
    withReg (readReg .rep s.rep) s fun r =>
      { s with
        rep := some (repMinusOne r s)
        ph := branch (repMinusOne r s ≠ 0) .leadIdle .postIdle }
  | .postIdle => { s with ph := .postActive }
  | .postActive => { s with ph := .finalInit }
  | .finalInit => complete s.cmd { s with ph := .idle }
  | .reservedE => s
  | .reservedF => s

/-- The updates follow a micro-operation that ended without a fault (60_exceptions R170), and the driver is
free again. -/
def thenAdvance : Result → Result
  | .next s => .next (if faultOut s then s else advance { s with mop := none })
  | .fault r => .fault r
  | .refused r => .refused r

/-- The micro-operation part of a sequencer step, before any update (41_serializer R120). -/
def runIssue (x : Issue) (s : State) : Result :=
  match x with
  | .nothing => .next s
  | .word w => runWord w s
  | .literalTrailZero => .next (emission .low .zero s)
  | .unwritten r => .next (raise (.unwritten r) s)
  | .badPhase p => .next (raise (.badPhase p) s)

/-- One sequencer step (41_serializer R120). In IDLE it changes nothing. -/
def sequencerStep (s : State) : Result := thenAdvance (runIssue (issue s) s)

/-- The micro-operation of this step: the one already issued, else the phase's. -/
def current (s : State) : Issue :=
  match s.mop with
  | some m => m.issue
  | none => issue s

/-- The end of a step whose emission may wait in a delay call: then the micro-operation stays issued and no
update follows (40_driver R91, R102); else the updates follow. -/
def settle (m : Option Mop) (s : State) : State :=
  if s.req.isSome then { s with mop := m } else advance { s with mop := none }

/-- A step that starts a micro-operation while the platform answers `acks` of its delay calls. -/
def heldStep (acks : Nat) (x : Issue) (s : State) : Result :=
  match x.pulse with
  | some (e, c) => .next (settle x.mop (emissionAcks acks e c s))
  | none => thenAdvance (runIssue x s)

/-- A step that resumes a micro-operation waiting in a delay call, whose remaining part DLY holds
(10_state R29, R38); with `none` the platform answers every further call. -/
def resumeStep (acks : Option Nat) (s : State) : Result :=
  .next (withReg (readReg .dly s.dly) s fun d =>
    settle s.mop (resumeDelay (acks.getD (d.toNat + 1)) d.toNat s))

/-- A step inside a micro-operation: the driver runs what the sequencer issued, on to completion or to a
delay call that is not answered (40_driver R91, R102). -/
def insideStep (acks : Option Nat) (s : State) : Result :=
  if s.req.isSome then resumeStep acks s
  else
    match acks with
    | some k => heldStep k (current s) s
    | none => thenAdvance (runIssue (current s) s)

/-- A step inside a micro-operation with nothing presented: a block that waits for `dly_ack` does nothing
else (40_driver R102). -/
def waitInside (s : State) : Result := if s.req.isSome then .next s else insideStep none s

/-- The instruction a phase issues to the driver in this step, where it issues one: nothing new while a
micro-operation is in progress (40_driver R91). -/
def issuedInstr (s : State) : Option Instr :=
  match s.mop, issue s with
  | none, .word w => (decodeMicro w).toOption
  | none, .nothing => none
  | none, .literalTrailZero => none
  | none, .unwritten _ => none
  | none, .badPhase _ => none
  | some _, _ => none

/-- The events an outcome has recorded since a state. -/
def newEvents (s : State) : Result → List Stamped
  | .next s' => s'.trace.drop s.trace.length
  | .fault _ => []
  | .refused _ => []

/-- The events that the micro-operation of this step records before an `rst` cuts it after `cut` of them
(70_reset_and_hazards R192; log 8). A faulted block and a block before its first reset run none, and one
that waits for `dly_ack` records none until it comes. -/
def cutEvents (cut : Nat) (s : State) : List Stamped :=
  if s.launched && (!faultOut s && s.req.isNone) then
    match current s with
    | .nothing => []
    | .word w => (newEvents s (runWord w s)).take cut
    | .literalTrailZero => (newEvents s (.next (emission .low .zero s))).take cut
    | .unwritten _ => []
    | .badPhase _ => []
  else []

end Sys2Proof.Machine
end

