-- ==== Sys2Proof/Machine/Arbiter.lean ====
section
/-! DEFINITION. One step of the block under the move the outside world makes, in the priority order of
60_exceptions R174, and the placing of a word where the next step takes it. -/

namespace Sys2Proof.Machine

/-- A command word presented while `busy = 0` (42_commands R150; 60_exceptions R174 item 5). -/
def acceptWord (w : CommandWord) (s : State) : Result :=
  match decodeCommand w with
  | .instr i => exec i s
  | .illegal _ => .next (raise (.illegalCommand w) s)

/-- A step with `cmd_valid = 1`: Reentrant comes before decoding (60_exceptions R174 items 4 and 5). -/
def commandStep (w : CommandWord) (s : State) : Result :=
  if busy s then .next (raise (.reentrant w s.ph) s) else acceptWord w s

/-- A step of the block that no `rst` overrides: none before the first reset (70_reset_and_hazards
R191) and none when faulted (60_exceptions R174 item 2). Inside a micro-operation no fault is raised and
nothing is accepted (60_exceptions R170; 40_driver R91), so `inside` goes on with it; at a step boundary
comes `Fault(BadPhase)` (item 3) and then `next`. The `done` pulse of the step before is over
(42_commands R151). -/
def whenLive (s : State) (inside next : State → Result) : Result :=
  if !s.launched || faultOut s then .next s
  else if s.mop.isSome then inside { s with done := false }
  else if s.ph.isReserved then .next (raise (.badPhase s.ph) s)
  else next { s with done := false }

/-- A command or a wait of the host inside a micro-operation stays presented until the step boundary, and
the platform answers (42_commands R150; log 17). -/
def keepMove (m : HostMove) (s : State) : Result := insideStep none { s with host := m :: s.host }

/-- A step while the host waits: the block goes on while `busy = 1` and the wait stays; once `busy = 0`
the n units pass and the wait is over (42_commands R158, R159; log 7); n is a whole number (log 29). -/
def waitStep (n : Nat) (s : State) : Result :=
  if busy s then sequencerStep { s with host := .wait n :: s.host } else .next (elapse n s)

/-- A step with no move left: nothing is presented. A faulted block takes no step any more
(60_exceptions R170; log 14), and neither does a block before its first reset (log 15). -/
def quietStep (s : State) : Result :=
  if s.launched then
    match s.fault with
    | some r => .fault (.stuck r)
    | none => whenLive s waitInside sequencerStep
  else .fault .notReset

/-- One step: the first move of `host` is taken (60_exceptions R174). `rst` and the environment's
interference come at any time, to a faulted block too. An `ack` while no delay call is open has no effect, and
its step is that of `pass`: DESIGN CHOICE (log 28), unsafe. -/
def arbitrate (s : State) : Result :=
  configured s fun s =>
    match s.host with
    | [] => quietStep s
    | .rst cut :: rest => .next (resetLaunch (endLaunch (cutEvents cut s) { s with host := rest }))
    | .interfere :: rest => .next (interfere { s with host := rest })
    | .command w :: rest => whenLive { s with host := rest } (keepMove (.command w)) (commandStep w)
    | .wait n :: rest => whenLive { s with host := rest } (keepMove (.wait n)) (waitStep n)
    | .pass :: rest => whenLive { s with host := rest } waitInside sequencerStep
    | .ack :: rest => whenLive { s with host := rest } (insideStep none) sequencerStep
    | .hold k :: rest => whenLive { s with host := rest } (insideStep (some k)) fun s => heldStep k (issue s) s

/-- Puts a word on its port, so that the next step takes it. A command is the host's next move, to an idle
block (42_commands R150). A micro-operation is issued to the driver, as the sequencer issues one
(40_driver R91), and nothing is presented in the next step. A faulted block takes neither (60_exceptions
R170), nor does one before its first reset (70_reset_and_hazards R191) (log 5, log 6). -/
def placeWord : PortWord → State → State
  | .c64 w, s =>
    { s with
      host := .command w :: s.host
      ph := .idle
      mop := none
      req := none
      fault := none
      launched := true }
  | .m4 w, s =>
    { s with
      host := .pass :: s.host
      mop := some (.word w)
      req := none
      fault := none
      launched := true }

end Sys2Proof.Machine
end

