-- ==== Sys2Proof/Machine/Step.lean ====
section
/-! DEFINITION. One step of the machine, and the placing of an opcode-table word where it is taken. -/

namespace Sys2Proof.Machine

/-- One step of the machine (60_exceptions R174). -/
def step (s : State) : Host.Outcome State Fault Refusal := arbitrate s

/-- The state with the instruction whose bits are w (the low nbits of them) as the next move, so that
the next step takes exactly it (log 5, log 20). -/
def State.withFetchWord (s : State) (nbits w : Nat) : State := placeWord (tableWord nbits w) s

end Sys2Proof.Machine
end

