-- ==== Sys2Proof/Machine/Assembler.lean ====
section
/-! DEFINITION. The textual syntax of host command sequences, its pseudo-instructions, and the syntax of
micro-operations (30_encoding R84 to R86). A text is a list of characters. -/

namespace Sys2Proof.Machine

/-- One statement of the syntax, its operands as written (30_encoding R84, R85). -/
inductive AsmLine where
  | construct
  | init
  | transmit (code rep : Nat)
  /-- `TRANSMIT <code>`: the repeat count defaults to 8 (30_encoding R85). -/
  | transmitDefault (code : Nat)
  /-- `SEND <code>, <repeat>` (30_encoding R85). -/
  | send (code rep : Nat)
  | reset
  | wait
  deriving DecidableEq, Repr

/-- The command word of an instruction; a micro-operation has none. -/
def commandWord (i : Instr) : Option CommandWord :=
  match encode i with
  | .c64 w => some w
  | .m4 _ => none

/-- `TRANSMIT <code>, <repeat>`: an operand out of range is an assembly error (30_encoding R84). -/
def assembleTransmit (code rep : Nat) : Option (List HostMove) :=
  if code < 2 ^ 32 ∧ rep < 2 ^ 8 then
    some [.command (assembleC64 (BitVec.ofNat 32 code) (BitVec.ofNat 8 rep) 2)]
  else none

/-- The moves of one statement; `none` is an assembly error (30_encoding R84, R85). -/
def assemble : AsmLine → Option (List HostMove)
  | .construct => some [.command (assembleC64 0 0 3)]
  | .init => some [.command (assembleC64 0 0 1)]
  | .transmit code rep => assembleTransmit code rep
  | .transmitDefault code => assembleTransmit code 8
  | .send code rep => (assembleTransmit code rep).map (· ++ [.wait 0])
  | .reset => some [.rst 0]
  | .wait => some [.wait 0]

/-- The moves of a sequence of statements. -/
def assembleAll : List AsmLine → Option (List HostMove)
  | [] => some []
  | l :: rest =>
    match assemble l, assembleAll rest with
    | some a, some b => some (a ++ b)
    | some _, none => none
    | none, _ => none

/-- A token: a word, or the comma between two operands. -/
inductive Token where
  | word (w : List Char)
  | comma
  deriving DecidableEq, Repr

/-- Adds a word that has been read, if it is not empty. -/
def flush (w : List Char) (rest : List Token) : List Token :=
  if w = [] then rest else .word w :: rest

/-- The tokens of a line, with the word read so far; a `;` starts a comment (30_encoding R84). -/
def tokens : List Char → List Char → List Token
  | w, [] => flush w []
  | w, c :: rest =>
    if c = ';' then flush w []
    else if c = ',' then flush w (.comma :: tokens [] rest)
    else if c = ' ' ∨ c = '\t' then flush w (tokens [] rest)
    else tokens (w ++ [c]) rest

/-- The value of a decimal digit. -/
def decDigit (c : Char) : Option Nat :=
  if '0' ≤ c ∧ c ≤ '9' then some (c.toNat - '0'.toNat) else none

/-- The value of a hexadecimal digit. -/
def hexDigit (c : Char) : Option Nat :=
  if '0' ≤ c ∧ c ≤ '9' then some (c.toNat - '0'.toNat)
  else if 'a' ≤ c ∧ c ≤ 'f' then some (c.toNat - 'a'.toNat + 10)
  else if 'A' ≤ c ∧ c ≤ 'F' then some (c.toNat - 'A'.toNat + 10)
  else none

/-- The value of digits in a base, after the value read so far; `_` separates digits where `sep` says so. -/
def digits (base : Nat) (digit : Char → Option Nat) (sep : Bool) : Nat → List Char → Option Nat
  | n, [] => some n
  | n, c :: rest =>
    if sep ∧ c = '_' then digits base digit sep n rest
    else
      match digit c with
      | some d => digits base digit sep (base * n + d) rest
      | none => none

/-- A literal: decimal, or hexadecimal with a `0x` mark and optional `_` separators
(30_encoding R84; log 23). -/
def literal (w : List Char) : Option Nat :=
  match w with
  | [] => none
  | '0' :: 'x' :: rest =>
    if rest.filter (· ≠ '_') = [] then none else digits 16 hexDigit true 0 rest
  | c :: rest => digits 10 decDigit false 0 (c :: rest)

/-- The words of the syntax (30_encoding R84 to R86), as characters. -/
def kwConstruct : List Char := ['C', 'O', 'N', 'S', 'T', 'R', 'U', 'C', 'T']
def kwInit : List Char := ['I', 'N', 'I', 'T']
def kwTransmit : List Char := ['T', 'R', 'A', 'N', 'S', 'M', 'I', 'T']
def kwSend : List Char := ['S', 'E', 'N', 'D']
def kwReset : List Char := ['R', 'E', 'S', 'E', 'T']
def kwWait : List Char := ['W', 'A', 'I', 'T']
def kwEmit : List Char := ['E', 'M', 'I', 'T']
def kwLineInit : List Char := ['L', 'I', 'N', 'E', '_', 'I', 'N', 'I', 'T']
def kwForceIdle : List Char := ['F', 'O', 'R', 'C', 'E', '_', 'I', 'D', 'L', 'E']

/-- A statement that takes no operand. -/
def plainStatement (w : List Char) : Option AsmLine :=
  if w = kwConstruct then some .construct
  else if w = kwInit then some .init
  else if w = kwReset then some .reset
  else if w = kwWait then some .wait
  else none

/-- A statement that takes a code and a repeat count. -/
def sendStatement (w : List Char) (code rep : Nat) : Option AsmLine :=
  if w = kwTransmit then some (.transmit code rep)
  else if w = kwSend then some (.send code rep)
  else none

/-- What a line of text says. -/
inductive Parsed where
  /-- Nothing but blanks and a comment. -/
  | blank
  | line (l : AsmLine)
  | error
  deriving DecidableEq, Repr

/-- A statement, or an error where there is none. -/
def Parsed.ofOption : Option AsmLine → Parsed
  | some l => .line l
  | none => .error

/-- Reads one line of a host command sequence (30_encoding R84, R85; log 23). -/
def parseLine (text : List Char) : Parsed :=
  match tokens [] text with
  | [] => .blank
  | [.word w] => Parsed.ofOption (plainStatement w)
  | [.word w, .word a] =>
    if w = kwTransmit then Parsed.ofOption ((literal a).map AsmLine.transmitDefault) else .error
  | [.word w, .word a, .comma, .word b] =>
    match literal a, literal b with
    | some code, some rep => Parsed.ofOption (sendStatement w code rep)
    | some _, none => .error
    | none, _ => .error
  | _ => .error

/-- `<level>`: 0, 1, idle or active (30_encoding R86). -/
def parseLevel (w : List Char) : Option Bool :=
  if w = ['0'] ∨ w = ['i', 'd', 'l', 'e'] then some false
  else if w = ['1'] ∨ w = ['a', 'c', 't', 'i', 'v', 'e'] then some true
  else none

/-- `<class>`: ZERO, TICK, SEP or LONG (30_encoding R86). -/
def parseClass (w : List Char) : Option DurClass :=
  if w = ['Z', 'E', 'R', 'O'] then some .zero
  else if w = ['T', 'I', 'C', 'K'] then some .tick
  else if w = ['S', 'E', 'P'] then some .sep
  else if w = ['L', 'O', 'N', 'G'] then some .long
  else none

/-- Reads one micro-operation; FORCE_IDLE is another name of LINE_INIT (30_encoding R86). -/
def parseMicroOp (text : List Char) : Option Instr :=
  match tokens [] text with
  | [.word w] => if w = kwLineInit ∨ w = kwForceIdle then some .lineInit else none
  | [.word w, .word l, .comma, .word c] =>
    if w = kwEmit then
      match parseLevel l, parseClass c with
      | some level, some cls => some (.emit level cls)
      | some _, none => none
      | none, _ => none
    else none
  | _ => none

end Sys2Proof.Machine
end

