-- ==== Sys2Proof/Machine/Ports.lean ====
section
/-! DEFINITION. The output ports (30_encoding R70, R71): the status outputs of a state, and the strobes
of the pin port and the delay port that an event of the trace stands for. -/

namespace Sys2Proof.Machine

/-- The status outputs (30_encoding R70). -/
structure StatusOut where
  busy : Bool
  done : Bool
  fault : Bool
  deriving DecidableEq, Repr

/-- The status outputs of a state. Before the first reset PH and FAULT hold no value (70_reset_and_hazards
R191), and so do the outputs: `none`. DESIGN CHOICE (log 15), safe. -/
def statusOut (s : State) : Option StatusOut :=
  if s.launched then some { busy := busy s, done := doneOut s, fault := faultOut s } else none

/-- `dly_req` with `dly_arg`, while the block waits for `dly_ack` (30_encoding R70; 40_driver R102). -/
def delayRequest (s : State) : Option Time := s.req.map (BitVec.ofNat 32)

/-- The strobes of the pin port and the delay port, with their data (30_encoding R70). The spec does not say
what `pin_level` holds while `pin_we = 0`, nor `dly_arg` while `dly_req = 0`: there the data is `none`, no
value. DESIGN CHOICE (log 25), safe. -/
structure Strobes where
  pinCfg : Bool
  pinWe : Bool
  pinLevel : Option Bool
  dlyReq : Bool
  dlyArg : Option Time
  deriving DecidableEq, Repr

/-- `pin_level`: 1 is HIGH, 0 is LOW (30_encoding R71). -/
def Level.toPin : Level → Bool
  | .high => true
  | .low => false

/-- No strobe, and so no data (log 25). -/
def Strobes.quiet : Strobes :=
  { pinCfg := false, pinWe := false, pinLevel := none, dlyReq := false, dlyArg := none }

/-- The strobe an event stands for; `Flt` and `Done` raise none (00_scope R10; 30_encoding R70). -/
def Event.strobes : Event → Strobes
  | .cfg => { Strobes.quiet with pinCfg := true }
  | .set e => { Strobes.quiet with pinWe := true, pinLevel := some (Level.toPin e) }
  | .dly n => { Strobes.quiet with dlyReq := true, dlyArg := some (BitVec.ofNat 32 n) }
  | .flt _ => Strobes.quiet
  | .done _ => Strobes.quiet

end Sys2Proof.Machine
end

