-- ==== Sys2Proof/Machine/Schedule.lean ====
section
/-! DEFINITION. The closed forms of the sequence that 41_serializer R135 to R139 give: the micro-operation
list of one transmit, its counts, its duration, and the delay calls of one emission (40_driver R97). -/

namespace Sys2Proof.Machine

/-- The half-pulses of one code bit (41_serializer R128, R129, R135). -/
def bitPair (b : Bool) : List Instr := [.emit b .tick, .emit (!b) .tick]

/-- The half-pulses of bits n-1 down to 0 of a code (41_serializer R135). -/
def dataBits (v : CodeWord) : Nat → List Instr
  | 0 => []
  | n + 1 => bitPair (v.getLsbD n) ++ dataBits v n

/-- `frame(v)` (41_serializer R135). -/
def frame (v : CodeWord) : List Instr :=
  [.emit false .tick, .emit true .tick] ++ dataBits v 32 ++ [.emit true .sep, .emit false .zero]

/-- `frame(v)` repeated r times. -/
def frames (v : CodeWord) : Nat → List Instr
  | 0 => []
  | r + 1 => frame v ++ frames v r

/-- `seq(v, r, g)`, the micro-operations of one transmit under `LAW` (41_serializer R135). -/
def seq (v : CodeWord) (r : Nat) (g : Bool) : List Instr :=
  (if g then [] else [.lineInit])
    ++ [.emit true .long, .emit false .tick, .emit true .sep]
    ++ frames v r
    ++ [.emit false .tick, .emit true .tick, .lineInit]

/-- The EMITs of a list of micro-operations, in order (41_serializer R136, R137). -/
def emits (l : List Instr) : List Instr := l.filter Instr.isEmit

/-- The number of EMITs of a transmit with repeat count r (41_serializer R136). -/
def emitCount (r : Nat) : Nat := 5 + 68 * r

/-- The number of micro-operations of a transmit (41_serializer R136). -/
def microOpCount (r : Nat) (g : Bool) : Nat := emitCount r + 1 + (if g then 0 else 1)

/-- `D(C) = ROM[C] >> SHIFT`, the time an emission of class C lasts (40_driver R99). -/
def emissionTime (k : Config) (rom : Rom) (c : DurClass) : Nat := (rom.read c).toNat >>> k.shift

/-- `T(r)`, the nominal duration of one transmit (41_serializer R139). -/
def transmitTime (k : Config) (rom : Rom) (r : Nat) : Nat :=
  emissionTime k rom .long + emissionTime k rom .tick + emissionTime k rom .sep
    + r * (66 * emissionTime k rom .tick + emissionTime k rom .sep + emissionTime k rom .zero)
    + 2 * emissionTime k rom .tick

/-- The arguments of the delay calls for a shifted duration d: q full chunks and the remainder, the closed
form of 40_driver R97. The block itself computes them by repeated subtraction (40_driver R96). -/
def chunkArgs (chunk d : Nat) : List Nat := List.replicate (d / chunk) chunk ++ [d % chunk]

/-- The events of those delay calls, the first at time t (20_memory R58). -/
def delayEvents (t : Nat) : List Nat → List Stamped
  | [] => []
  | n :: rest => ⟨t, .dly n⟩ :: delayEvents (t + n) rest

/-- The events of one emission that starts at time t (40_driver R94). -/
def emissionEvents (k : Config) (rom : Rom) (e : Level) (c : DurClass) (t : Nat) : List Stamped :=
  ⟨t, .set e⟩ :: delayEvents t (chunkArgs k.chunk (emissionTime k rom c))

/-- The events of a line initialisation at time t (40_driver R100). -/
def lineInitEvents (t : Nat) : List Stamped := [⟨t, .cfg⟩, ⟨t, .set .high⟩]

/-- The events of a list of micro-operations that starts at time t; host commands record none of their own
here. -/
def microEvents (k : Config) (rom : Rom) : List Instr → Nat → List Stamped
  | [], _ => []
  | .emit b c :: rest, t =>
    emissionEvents k rom (phys b) c t ++ microEvents k rom rest (t + emissionTime k rom c)
  | .lineInit :: rest, t => lineInitEvents t ++ microEvents k rom rest t
  | .construct :: rest, t => microEvents k rom rest t
  | .init :: rest, t => microEvents k rom rest t
  | .transmit _ _ :: rest, t => microEvents k rom rest t

end Sys2Proof.Machine
end

