-- ==== Sys2Proof/Machine/Waveform.lean ====
section
/-! DEFINITION. The waveform of a trace under a history of PIN.OE, and its normalized form (20_memory R57;
60_exceptions R183). -/

namespace Sys2Proof.Machine

/-- The `Set` events of a trace with their stamps, in trace order. -/
def setsOf : List Stamped → List (Nat × Level)
  | [] => []
  | ⟨t, .set e⟩ :: rest => (t, e) :: setsOf rest
  | ⟨_, .cfg⟩ :: rest => setsOf rest
  | ⟨_, .dly _⟩ :: rest => setsOf rest
  | ⟨_, .flt _⟩ :: rest => setsOf rest
  | ⟨_, .done _⟩ :: rest => setsOf rest

/-- The delay arguments of a trace, in trace order. -/
def delaysOf : List Stamped → List Nat
  | [] => []
  | ⟨_, .dly n⟩ :: rest => n :: delaysOf rest
  | ⟨_, .cfg⟩ :: rest => delaysOf rest
  | ⟨_, .set _⟩ :: rest => delaysOf rest
  | ⟨_, .flt _⟩ :: rest => delaysOf rest
  | ⟨_, .done _⟩ :: rest => delaysOf rest

/-- The last value stamped at or before t. -/
def lastAt {α : Type} (t : Nat) (l : List (Nat × α)) : Option α :=
  ((l.filter fun p => p.1 ≤ t).getLast?).map Prod.snd

/-- PIN.OE at time t in a history of it (20_memory R57). -/
def oeOf (oe : List (Nat × Bool)) (t : Nat) : Bool := (lastAt t oe).getD false

/-- PIN.OE at time t. -/
def oeAt (s : State) (t : Nat) : Bool := oeOf s.oeLog t

/-- What a trace says of the line: each `Set` with its level, in trace order, up to the first `Flt`. From a
fault on the line is not specified, any value, so the list ends with `none` there (60_exceptions R170;
93 I17; log 26). -/
def marksOf : List Stamped → List (Nat × Option Level)
  | [] => []
  | ⟨t, .set e⟩ :: rest => (t, some e) :: marksOf rest
  | ⟨t, .flt _⟩ :: _ => [(t, none)]
  | ⟨_, .cfg⟩ :: rest => marksOf rest
  | ⟨_, .dly _⟩ :: rest => marksOf rest
  | ⟨_, .done _⟩ :: rest => marksOf rest

/-- `line(t)`: the level of the last `Set` stamped at or before t, while `PIN.OE = 1` and before any fault.
Elsewhere the line may have any value, and this is `none`: no stated level (20_memory R57; 60_exceptions R170,
R183; 93 I14, I17). DESIGN CHOICE (log 13, log 26), safe. -/
def lineOf (tr : List Stamped) (oe : List (Nat × Bool)) (t : Nat) : Option Level :=
  if oeOf oe t then (lastAt t (marksOf tr)).join else none

/-- `line(t)` in a state. -/
def lineAt (s : State) (t : Nat) : Option Level := lineOf s.trace s.oeLog t

/-- A normalized waveform: maximal segments of constant level in time order, then the level of the
open-ended last segment (20_memory R57). A level `none` is no stated level: no `Set` has happened, PIN.OE is 0
(log 13), or a fault has happened (log 26). -/
structure Wave where
  segments : List (Option Level × Nat)
  tail : Option Level
  deriving DecidableEq, Repr

/-- Puts a segment before a waveform: one of no length leaves no mark, one of the next segment's level
joins it (20_memory R57). -/
def Wave.push (e : Option Level) (n : Nat) (w : Wave) : Wave :=
  if n = 0 then w
  else
    match w.segments with
    | [] => if w.tail = e then w else { w with segments := [(e, n)] }
    | (e', m) :: rest =>
      if e' = e then { w with segments := (e, n + m) :: rest }
      else { w with segments := (e, n) :: (e', m) :: rest }

/-- The normalized waveform of a list of marks. -/
def waveOf : List (Nat × Option Level) → Wave
  | [] => { segments := [], tail := none }
  | [(_, e)] => { segments := [], tail := e }
  | (t, e) :: (t', e') :: rest => (waveOf ((t', e') :: rest)).push e (t' - t)

/-- Puts a time into a list of times in order, after those that are not later. -/
def insertTime (t : Nat) : List Nat → List Nat
  | [] => [t]
  | a :: rest => if a ≤ t then a :: insertTime t rest else t :: a :: rest

/-- The times at which the line may change: those of the marks and those of PIN.OE's changes, in order. -/
def changeTimes (tr : List Stamped) (oe : List (Nat × Bool)) : List Nat :=
  oe.foldl (fun l p => insertTime p.1 l) ((marksOf tr).map Prod.fst)

/-- The normalized waveform of a trace under a history of PIN.OE (20_memory R57). Where `PIN.OE = 0`, and from a
fault on, its segments have no stated level. DESIGN CHOICE (log 13, log 26), safe. -/
def normalized (tr : List Stamped) (oe : List (Nat × Bool)) : Wave :=
  waveOf ((changeTimes tr oe).map fun t => (t, lineOf tr oe t))

/-- The level of a waveform n time units after its start. -/
def segmentLevel (tail : Option Level) : List (Option Level × Nat) → Nat → Option Level
  | [], _ => tail
  | (e, m) :: rest, n => if n < m then e else segmentLevel tail rest (n - m)

/-- The level of a normalized waveform n time units after its start. -/
def Wave.levelAt (w : Wave) (n : Nat) : Option Level := segmentLevel w.tail w.segments n

/-- Segments are maximal: none is empty, and each differs from what follows it (20_memory R57). -/
def maximal (tail : Option Level) : List (Option Level × Nat) → Bool
  | [] => true
  | [(e, n)] => n ≠ 0 && e ≠ tail
  | (e, n) :: (e', n') :: rest => (n ≠ 0 && e ≠ e') && maximal tail ((e', n') :: rest)

end Sys2Proof.Machine
end

