-- ==== Sys2Proof/Safety.lean ====
section
/-! DEFINITION. What claims are stated in: the launch and its premises (70_reset_and_hazards R193, R194),
the end of a run (R195, R196), runs of several steps, the invariant of the block, real delays
(20_memory R58), and several encoders side by side (60_exceptions R180). -/

namespace Sys2Proof.Machine

/-- The launch of a configuration: an ill-formed one is refused, it "has no run" (00_scope R6); any other
starts with reset (70_reset_and_hazards R190, R193). -/
def launch (k : Config) (moves : List HostMove) : Result :=
  if k.wellFormed then .next (State.afterReset k moves) else .refused .illFormedConfig

/-- The states at a step boundary in which the block can take a step: launched, configured, not faulted
(70_reset_and_hazards R194: WellFormedConfig, ResetDone, NoFault), and no micro-operation in progress. -/
structure Live (s : State) : Prop where
  configured : s.cfg.wellFormed = true
  launched : s.launched = true
  noFault : s.fault = none
  free : s.mop = none
  noRequest : s.req = none

/-- Whether the host presents no further command in this launch: none of its moves up to the next `rst` is
one (70_reset_and_hazards R195). -/
def noFurtherCommand : List HostMove → Bool
  | [] => true
  | .rst _ :: _ => true
  | .command _ :: _ => false
  | .wait _ :: rest => noFurtherCommand rest
  | .pass :: rest => noFurtherCommand rest
  | .ack :: rest => noFurtherCommand rest
  | .hold _ :: rest => noFurtherCommand rest
  | .interfere :: rest => noFurtherCommand rest

/-- Whether the state ends a launch's observed run: PH = IDLE, no fault, and no further command
(70_reset_and_hazards R195, R196). -/
def endsRun (s : State) : Bool :=
  s.launched && (!busy s && (!faultOut s && noFurtherCommand s.host))

/-- The observation of a run that ends in this state: the trace and the normalized waveform, which states no
level where PIN.OE was 0 (70_reset_and_hazards R195; 60_exceptions R183; log 13). -/
def observation (s : State) : List Stamped × Wave := (s.trace, normalized s.trace s.oeLog)

/-- Whether the state ends the run of a command: `Done(cmd)` has just been recorded
(70_reset_and_hazards R195; 42_commands R151). -/
def endsCommand (c : Command) (s : State) : Bool := s.done && s.trace.getLast? = some ⟨s.time, .done c⟩

/-- n steps with the moves the state holds. -/
def runSteps (n : Nat) (s : State) : Result := Sys2Proof.core.run n s

/-- Instructions executed one after the other, each in the state the one before left. -/
def execAll : List Instr → State → Result
  | [], s => .next s
  | i :: rest, s =>
    match exec i s with
    | .next s' => execAll rest s'
    | .fault r => .fault r
    | .refused r => .refused r

/-- The micro-operations that the sequencer issues in n steps (41_serializer R135). -/
def issuedOver : Nat → State → List Instr
  | 0, _ => []
  | n + 1, s =>
    (issuedInstr s).toList ++
      match step s with
      | .next s' => issuedOver n s'
      | .fault _ => []
      | .refused _ => []

/-- Whether P holds of each of the first n states of the run from a state. -/
def throughout (P : State → Bool) : Nat → State → Bool
  | 0, _ => true
  | n + 1, s =>
    P s &&
      match step s with
      | .next s' => throughout P n s'
      | .fault _ => true
      | .refused _ => true

/-- **WellFormedConfig** (70_reset_and_hazards R194). -/
def WellFormedConfig (s : State) : Bool := s.cfg.wellFormed

/-- **ResetDone**: the launch began with a reset (70_reset_and_hazards R194). -/
def ResetDone (s : State) : Bool := s.launched

/-- **NoFault**: `FAULT = none` throughout n steps, at their end too (70_reset_and_hazards R194). -/
def NoFault (n : Nat) (s : State) : Bool := throughout (fun s => !faultOut s) (n + 1) s

/-- Whether the host presents a command in the next step. -/
def presentsCommand (s : State) : Bool :=
  match s.host with
  | .command _ :: _ => true
  | _ => false

/-- **HostSerializes**: in n steps every command is presented while `busy = 0`
(70_reset_and_hazards R194; 42_commands R150). -/
def HostSerializes (n : Nat) (s : State) : Bool :=
  throughout (fun s => !presentsCommand s || !busy s) n s

/-- Whether the environment interferes in the next step. -/
def interferes (s : State) : Bool := s.host.head? = some .interfere

/-- **NoInterference**: PIN.OE is not cleared in n steps (70_reset_and_hazards R194; 60_exceptions R183). -/
def NoInterference (n : Nat) (s : State) : Bool := throughout (fun s => !interferes s) n s

/-- Whether `rst` is asserted in the next step. -/
def resets (s : State) : Bool :=
  match s.host with
  | .rst _ :: _ => true
  | _ => false

/-- **NoResetDuring**: `rst` is not asserted in n steps (70_reset_and_hazards R192, R194). -/
def NoResetDuring (n : Nat) (s : State) : Bool := throughout (fun s => !resets s) n s

/-- Whether the platform withholds an answer in the next step. -/
def holds (s : State) : Bool :=
  match s.host with
  | .hold _ :: _ => true
  | _ => false

/-- **PlatformAnswers**: in n steps the platform withholds no `dly_ack`, which is its duty (40_driver R102;
log 17). -/
def PlatformAnswers (n : Nat) (s : State) : Bool := throughout (fun s => !holds s) n s

/-- The premises under which a transmit, or any other n steps, runs undisturbed (70_reset_and_hazards R194):
the host serializes, nothing interferes, `rst` stays low and the platform answers. -/
def Undisturbed (n : Nat) (s : State) : Bool :=
  HostSerializes n s && (NoInterference n s && (NoResetDuring n s && PlatformAnswers n s))

/-- Whether a trace records no fault. -/
def noFlt : List Stamped → Bool
  | [] => true
  | ⟨_, .flt _⟩ :: _ => false
  | ⟨_, .cfg⟩ :: rest => noFlt rest
  | ⟨_, .set _⟩ :: rest => noFlt rest
  | ⟨_, .dly _⟩ :: rest => noFlt rest
  | ⟨_, .done _⟩ :: rest => noFlt rest

/-- The phases of a frame, in which REP counts the current frame too (10_state R26). -/
def Phase.inFrame : Phase → Bool
  | .idle => false
  | .preInit => false
  | .preLong => false
  | .preTick => false
  | .preSep => false
  | .leadIdle => true
  | .leadActive => true
  | .dataFirst => true
  | .dataSecond => true
  | .trailSep => true
  | .trailZero => true
  | .postIdle => false
  | .postActive => false
  | .finalInit => false
  | .reservedE => false
  | .reservedF => false

/-- The phases only a transmit reaches, in which CODE and REP hold values (10_state R38). -/
def Phase.inTransmit : Phase → Bool
  | .idle => false
  | .preInit => true
  | .preLong => true
  | .preTick => true
  | .preSep => true
  | .leadIdle => true
  | .leadActive => true
  | .dataFirst => true
  | .dataSecond => true
  | .trailSep => true
  | .trailZero => true
  | .postIdle => true
  | .postActive => true
  | .finalInit => false
  | .reservedE => false
  | .reservedF => false

/-- The phases that read BIT (41_serializer R128, R129). -/
def Phase.readsBit (p : Phase) : Bool := p = .dataFirst ∨ p = .dataSecond

/-- The fault reasons of a host that breaks its duties; the others are unreachable (60_exceptions R171). -/
def FaultReason.isHosts : FaultReason → Bool
  | .illegalCommand _ => true
  | .reentrant _ _ => true
  | .badMicroOp _ => false
  | .badPhase _ => false
  | .unwritten _ => false

/-- What holds of the sequencer's registers in every state a run reaches: no reserved phase, every register
a phase reads holds a value, and REP is not 0 inside a frame (10_state R26, R38; 30_encoding R81;
41_serializer R121); the driver is busy only with what the phase issued, and waits in the call that DLY asks
for (40_driver R91, R96, R102). -/
structure SequencerInv (s : State) : Prop where
  phase : s.ph.isReserved = false
  written : s.ph.inTransmit = true → ∃ c r, s.code = some c ∧ s.rep = some r
  frame : s.ph.inFrame = true → s.rep ≠ some 0
  bit : s.ph.readsBit = true → ∃ b, s.bit = some b
  name : s.ph.inTransmit = true → s.cmd = .transmit
  noConstruct : s.ph ≠ .idle → s.cmd ≠ .construct
  issued : ∀ m, s.mop = some m → issue s = m.issue ∧ m.issue.pulse ≠ none
  waits : s.mop.isSome = s.req.isSome
  owed : ∀ n, s.req = some n → ∃ d : Time, s.dly = some d ∧ n = nextArg s.cfg.chunk d.toNat

/-- What holds of the ROM, the trace and the pin: the ROM is the configuration's (10_state R24), no event
lies in the future and stamps never go back (20_memory R56), every delay argument is at most CHUNK
(40_driver R97), a block without a fault has recorded none (60_exceptions R170), the pin's level is the one
last written (10_state R36), and PIN.OE's history is in order, has no entry in the future and ends with its
value (10_state R35; 20_memory R57). -/
structure TraceInv (s : State) : Prop where
  rom : s.rom = Rom.build s.cfg
  order : List.Pairwise (fun a b => a.time ≤ b.time) s.trace
  past : ∀ e ∈ s.trace, e.time ≤ s.time
  chunks : ∀ n ∈ delaysOf s.trace, n ≤ s.cfg.chunk
  sound : s.fault = none → noFlt s.trace = true
  pin : s.launched = true → ((setsOf s.trace).getLast?).map Prod.snd = s.level
  oeOrder : List.Pairwise (fun a b => a.1 ≤ b.1) s.oeLog
  oePast : ∀ p ∈ s.oeLog, p.1 ≤ s.time
  oe : s.launched = true → (s.oeLog.getLast?).map Prod.snd = some s.oe

/-- What the platform owes a delay call of n units that lasts d: within DELAY_ERR of n (20_memory R58;
40_driver R102), and no time at all for n = 0 (40_driver R103). DESIGN CHOICE (log 24), unsafe: real durations
and DELAY_ERR are whole numbers of time units. -/
def closeTo (err n d : Nat) : Bool := if n = 0 then d = 0 else n ≤ d + err && d ≤ n + err

/-- **DelayExact**, the premise of claims about real elapsed time: `real` gives the real duration of each
delay call of the trace, each as the platform owes it, in whole time units (70_reset_and_hazards R194;
40_driver R102, R103; log 24). -/
def DelayExact (k : Config) (tr : List Stamped) (real : List Nat) : Prop :=
  List.Forall₂ (fun n d => closeTo k.delayErr n d = true) (delaysOf tr) real

/-- The strobes of a trace's port events, in order (30_encoding R70). -/
def strobesOf (tr : List Stamped) : List Strobes := tr.map fun e => e.event.strobes

/-- Several encoders side by side: encoder k takes a step alone, and the others stand
(60_exceptions R180; log 21). -/
def stepEncoder (k : Nat) (all : List State) : List State :=
  match all[k]? with
  | none => all
  | some s =>
    match step s with
    | .next s' => all.set k s'
    | .fault _ => all
    | .refused _ => all

/-- The host gives distinct encoders distinct PIN_IDs (60_exceptions R180). -/
def distinctPins (all : List State) : Prop := List.Pairwise (fun a b => a.cfg.pinId ≠ b.cfg.pinId) all

end Sys2Proof.Machine
end

