-- ==== Sys2Proof/Certificates/Slice0/Obligations.lean ====
section
/-! DEFINITION. The statements for the provers. Each docstring names the rule of spec/ it formalises. -/

open Sys2Proof Sys2Proof.Machine

/-! ## Encoding -/

/-- 30_encoding R72 to R76: no bit of an encoding is dropped. -/
def Obligations.EncodeThenDecodeGivesInstruction : Prop :=
  ∀ i : Instr, i.wellFormed = true → decode (encode i) = .instr i

/-- 30_encoding R74, R76: a word that is an instruction is that instruction's one word. -/
def Obligations.DecodedWordIsItsInstructionsEncoding : Prop :=
  ∀ (w : PortWord) (i : Instr), decode w = .instr i → encode i = w

/-- 30_encoding R75: match and mask of each command; every word matched by no row is ILLEGAL. -/
def Obligations.CommandsDecodeByMatchAndMask : Prop :=
  ∀ w : CommandWord,
    (decodeCommand w = .instr .init ↔ w &&& 0xFFFFFFFFFFFFFFFF = 0x0000000000000001) ∧
    ((∃ c r, decodeCommand w = .instr (.transmit c r)) ↔ w &&& 0x0000000000FFFFFF = 0x0000000000000002) ∧
    (decodeCommand w = .instr .construct ↔ w &&& 0xFFFFFFFFFFFFFFFF = 0x0000000000000003) ∧
    (w &&& 0xFFFFFFFFFFFFFFFF ≠ 0x0000000000000001 → w &&& 0x0000000000FFFFFF ≠ 0x0000000000000002 →
      w &&& 0xFFFFFFFFFFFFFFFF ≠ 0x0000000000000003 → ∃ e, decodeCommand w = .illegal e)

/-- 30_encoding R72, 20_memory R52: code bit i is `cmd[32+i]`, repeat bit i is `cmd[24+i]`. -/
def Obligations.TransmitOperandBitsOfTheWord : Prop :=
  ∀ (w : CommandWord) (c : CodeWord) (r : RepeatCount), decodeCommand w = .instr (.transmit c r) →
    (∀ i, i < 32 → c.getLsbD i = w.getLsbD (32 + i)) ∧ (∀ i, i < 8 → r.getLsbD i = w.getLsbD (24 + i))

/-- 30_encoding R72 to R78: words written out from the spec's encodings (95 V-DEC, V-EM, V-LI). -/
def Obligations.SpecWordsDecode : Prop :=
  decodeCommand 0x0000000000000001 = .instr .init ∧
  decodeCommand 0x0000000000000003 = .instr .construct ∧
  decodeCommand 0x1234567808000002 = .instr (.transmit 0x12345678 8) ∧
  decodeMicro 0x7 = .instr (.emit true .long) ∧
  decodeMicro 0x2 = .instr (.emit false .sep) ∧
  decodeMicro 0x8 = .instr .lineInit ∧
  decodeMicro 0x9 = .illegal .reservedMicroOp

/-- 30_encoding R80: PH is a 4-bit register and every 4-bit value is one phase. -/
def Obligations.PhaseCodesAreAllFourBitValues : Prop :=
  (∀ p : Phase, Phase.ofBits p.toBits = p) ∧ (∀ v : BitVec 4, (Phase.ofBits v).toBits = v)

/-! ## A step runs the decoded instruction -/

/-- 42_commands R150, 41_serializer R120, 40_driver R91: what a step runs is exec of the decoded word: a command
word of the host, a word already issued to the driver (log 6), or the word the sequencer issues in this step,
which the phase's updates follow. -/
def Obligations.StepRunsTheDecodedInstruction : Prop :=
  (∀ (s : State) (w : CommandWord) (i : Instr) (rest : List HostMove), Live s → s.ph = .idle →
    s.host = .command w :: rest → decodeCommand w = .instr i →
    step s = exec i { s with host := rest, done := false }) ∧
  (∀ (s : State) (w : MicroWord) (i : Instr) (rest : List HostMove), s.cfg.wellFormed = true →
    s.launched = true → s.fault = none → s.req = none → s.mop = some (.word w) →
    (s.host = [] ∧ rest = [] ∨ s.host = .pass :: rest) → decodeMicro w = .instr i →
    step s = thenAdvance (exec i { s with host := rest, done := false })) ∧
  (∀ (s : State) (w : MicroWord) (i : Instr) (rest : List HostMove), Live s →
    (s.host = [] ∧ rest = [] ∨ s.host = .pass :: rest) → issue s = .word w → decodeMicro w = .instr i →
    step s = thenAdvance (exec i { s with host := rest, done := false }))

/-! ## Configuration, ROM, reset -/

/-- 10_state R23, R24: the ROM that CONSTRUCT and reset load holds the exact products, ZERO maps to 0 and
the other three are strictly increasing. -/
def Obligations.BuiltRomHoldsTheExactProducts : Prop :=
  ∀ k : Config, k.wellFormed = true →
    (Rom.build k).zero = 0 ∧
    (∀ c : DurClass, ((Rom.build k).read c).toNat = k.multiplier c * k.baseUnit) ∧
    (Rom.build k).tick.toNat < (Rom.build k).sep.toNat ∧ (Rom.build k).sep.toNat < (Rom.build k).long.toNat

/-- 00_scope R6: an ill-formed configuration is refused: it has no run, no step and no instruction. -/
def Obligations.IllFormedConfigurationIsRefused : Prop :=
  (∀ (k : Config) (moves : List HostMove), k.wellFormed = false → launch k moves = .refused .illFormedConfig) ∧
  (∀ (s : State) (i : Instr), s.cfg.wellFormed = false →
    step s = .refused .illFormedConfig ∧ exec i s = .refused .illFormedConfig)

/-- 70_reset_and_hazards R190: asserting `rst` starts a new launch, in any state and whatever else the step
holds. That `done` is 0 after reset is the model's reading (log 10). -/
def Obligations.RstStartsANewLaunch : Prop :=
  ∀ (s : State) (cut : Nat) (rest : List HostMove), s.cfg.wellFormed = true → s.host = .rst cut :: rest →
    ∃ t, step s = .next t ∧ t.time = 0 ∧ t.trace = [⟨0, .cfg⟩, ⟨0, .set .high⟩] ∧ t.fault = none ∧
      (∀ c : DurClass, (t.rom.read c).toNat = s.cfg.multiplier c * s.cfg.baseUnit) ∧
      t.code = none ∧ t.rep = none ∧ t.bit = none ∧ t.dly = none ∧
      t.oe = true ∧ t.level = some .high ∧ t.guard = s.cfg.ctorSetsGuard ∧ t.ph = .idle ∧
      t.done = false ∧ t.launched = true ∧ t.cfg = s.cfg ∧ t.host = rest

/-- 10_state R39: the values after reset in the spec's own configuration. -/
def Obligations.ResetStateHoldsTheSpecValues : Prop :=
  State.reset.rom = ⟨0, 1140, 5472, 57000⟩ ∧ State.reset.code = none ∧ State.reset.rep = none ∧
  State.reset.bit = none ∧ State.reset.dly = none ∧ State.reset.ph = .idle ∧ State.reset.guard = false ∧
  State.reset.fault = none ∧ State.reset.oe = true ∧ State.reset.level = some .high ∧
  State.reset.time = 0 ∧ State.reset.trace = [⟨0, .cfg⟩, ⟨0, .set .high⟩]

/-- 70_reset_and_hazards R192: an `rst` inside a micro-operation ends the launch with the events recorded so far,
a prefix of the micro-operation's own, and records no Done; an `rst` while the block is idle, or waits for
`dly_ack`, ends it with its last event. That the ended trace is kept in a field is the model's choice (log 8). -/
def Obligations.RstInsideAMicroOpEndsTheLaunchThere : Prop :=
  (∀ (s : State) (cut : Nat) (rest : List HostMove) (u : State), Live s → s.host = .rst cut :: rest →
    ((∃ w i, issue s = .word w ∧ decodeMicro w = .instr i ∧ exec i s = .next u) ∨
      (issue s = .literalTrailZero ∧ u = emission .low .zero s)) →
    ∃ t es, step s = .next t ∧ t.trace = [⟨0, .cfg⟩, ⟨0, .set .high⟩] ∧ t.ph = .idle ∧
      t.ended = s.ended ++ [s.trace ++ es] ∧ es.length ≤ cut ∧
      (∃ more, u.trace = s.trace ++ es ++ more ∧ (es.length < cut → more = [])) ∧
      ∀ e ∈ es, ∀ c, e.event ≠ .done c) ∧
  (∀ (s : State) (cut : Nat) (rest : List HostMove), s.cfg.wellFormed = true → s.launched = true →
    s.host = .rst cut :: rest → (s.mop = none ∧ s.ph = .idle) ∨ s.req ≠ none →
    ∃ t, step s = .next t ∧ t.ph = .idle ∧ t.mop = none ∧ t.req = none ∧ t.ended = s.ended ++ [s.trace])

/-- 70_reset_and_hazards R191: before the first reset the block takes no step: any move but `rst` passes
with nothing changed, and without a move the machine stands (the model's choice: log 15). After `rst`, `done` is 0
by the model's reading (log 10), and its own fields hold what logs 8, 9 and 27 give them. -/
def Obligations.NoStepBeforeTheFirstReset : Prop :=
  ∀ s : State, s.cfg.wellFormed = true → s.launched = false →
    (s.host = [] → step s = .fault .notReset) ∧
    (∀ m rest, s.host = m :: rest → (∀ cut, m ≠ .rst cut) → step s = .next { s with host := rest }) ∧
    (∀ cut rest, s.host = .rst cut :: rest →
      step s = .next { State.afterReset s.cfg rest with ended := s.ended })

/-! ## The driver -/

/-- 40_driver R94, R96, R97, R99: EMIT completes in every state; its whole next state. -/
def Obligations.EmitSetsTheLevelAndHoldsItForTheDelay : Prop :=
  ∀ (level : Bool) (cls : DurClass) (s : State), s.cfg.wellFormed = true →
    exec (.emit level cls) s = .next
      { s with
        level := some (if level then .low else .high)
        dly := some (BitVec.ofNat 32 (((s.rom.read cls).toNat >>> s.cfg.shift) % s.cfg.chunk))
        req := none
        time := s.time + ((s.rom.read cls).toNat >>> s.cfg.shift)
        trace := s.trace ++ ⟨s.time, .set (if level then .low else .high)⟩ ::
          delayEvents s.time
            (List.replicate (((s.rom.read cls).toNat >>> s.cfg.shift) / s.cfg.chunk) s.cfg.chunk
              ++ [((s.rom.read cls).toNat >>> s.cfg.shift) % s.cfg.chunk]) }

/-- 40_driver R90: the physical level is HIGH for logical 0 and LOW for logical 1, for every EMIT: the pin's
level after it and the level of the one `Set` event it records. -/
def Obligations.EveryEmitInvertsTheLevel : Prop :=
  ∀ (b : Bool) (cls : DurClass) (s : State), s.cfg.wellFormed = true →
    ∃ t, exec (.emit b cls) s = .next t ∧
      t.level = some (if b = true then .low else .high) ∧
      setsOf t.trace = setsOf s.trace ++ [(s.time, if b = true then .low else .high)]

/-- 40_driver R97: the delay calls of a shifted duration d: q full chunks and one remainder, with q the
largest number of chunks in d; every argument is at most CHUNK and they sum to d. -/
def Obligations.ScaledDelayIssuesFullChunksThenTheRemainder : Prop :=
  ∀ (duration : Time) (s : State), s.cfg.wellFormed = true →
    ∃ q r, q * s.cfg.chunk + r = duration.toNat >>> s.cfg.shift ∧ r < s.cfg.chunk ∧
      (∀ q', q' * s.cfg.chunk ≤ duration.toNat >>> s.cfg.shift → q' ≤ q) ∧
      delaysOf (scaledDelay duration s).trace
        = delaysOf s.trace ++ (List.replicate q s.cfg.chunk ++ [r]) ∧
      (∀ n ∈ List.replicate q s.cfg.chunk ++ [r], n ≤ s.cfg.chunk) ∧
      (List.replicate q s.cfg.chunk ++ [r]).sum = duration.toNat >>> s.cfg.shift

/-- 20_memory R59, R57: the line holds the emission's level for the whole emission delay, wherever PIN.OE's
history says the pin was driven, in a launch without a fault (60_exceptions R170; log 26). -/
def Obligations.LineHoldsTheEmissionsLevel : Prop :=
  ∀ (b : Bool) (cls : DurClass) (s : State) (τ : Nat), s.cfg.wellFormed = true → noFlt s.trace = true →
    s.time ≤ τ → τ < s.time + ((s.rom.read cls).toNat >>> s.cfg.shift) → oeAt s τ = true →
    ∃ t, exec (.emit b cls) s = .next t ∧ lineAt t τ = some (if b then .low else .high)

/-- 40_driver R100: LINE_INIT completes in every state; its whole next state. -/
def Obligations.LineInitConfiguresAndDrivesHigh : Prop :=
  ∀ s : State, s.cfg.wellFormed = true →
    exec .lineInit s = .next
      { s with
        oe := true
        level := some .high
        guard := true
        trace := s.trace ++ [⟨s.time, .cfg⟩, ⟨s.time, .set .high⟩]
        oeLog := s.oeLog ++ [(s.time, true)] }

/-- 40_driver R101: any number of LINE_INITs leave the line an output, HIGH, with GUARD set, and from a HIGH,
configured line the normalized waveform has no new segment. The premises on the trace and PIN.OE's history are an
invariant of every step. -/
def Obligations.LineInitIsIdempotentOnTheLine : Prop :=
  ∀ (n : Nat) (s : State), s.cfg.wellFormed = true →
    ∃ t, execAll (List.replicate (n + 1) .lineInit) s = .next t ∧
      t.oe = true ∧ t.level = some .high ∧ t.guard = true ∧ t.time = s.time ∧
      (TraceInv s → s.launched = true → s.oe = true → s.level = some .high →
        normalized t.trace t.oeLog = normalized s.trace s.oeLog)

/-- 30_encoding R70, R71: on the pin port EMIT strobes `pin_we` once, with `pin_level = NOT L`, and LINE_INIT strobes
`pin_cfg` and then `pin_we` with 1, which is HIGH. That data without its strobe is no value is the model's choice
(log 25). -/
def Obligations.PinLevelIsTheInvertedLogicalLevel : Prop :=
  Level.toPin .high = true ∧ Level.toPin .low = false ∧
  (∀ (b : Bool) (cls : DurClass) (s : State), s.cfg.wellFormed = true →
    ∃ t es, exec (.emit b cls) s = .next t ∧ t.trace = s.trace ++ es ∧
      (strobesOf es).filter Strobes.pinWe = [{ Strobes.quiet with pinWe := true, pinLevel := some (!b) }]) ∧
  (∀ s : State, s.cfg.wellFormed = true →
    ∃ t es, exec .lineInit s = .next t ∧ t.trace = s.trace ++ es ∧
      strobesOf es = [{ Strobes.quiet with pinCfg := true },
        { Strobes.quiet with pinWe := true, pinLevel := some true }])

/-! ## The host commands -/

/-- 42_commands R152: CONSTRUCT on an idle block; its whole next state (`cmd` is the model's own: log 9). -/
def Obligations.ConstructBuildsTheRomAndTheIdleLine : Prop :=
  ∀ s : State, Live s → s.ph = .idle →
    exec .construct s = .next
      { s with
        rom := Rom.build s.cfg
        code := none
        rep := none
        bit := none
        dly := none
        ph := .idle
        guard := s.cfg.ctorSetsGuard
        oe := true
        level := some .high
        trace := s.trace ++ [⟨s.time, .cfg⟩, ⟨s.time, .set .high⟩, ⟨s.time, .done .construct⟩]
        done := true
        cmd := .construct
        oeLog := s.oeLog ++ [(s.time, true)] }

/-- 42_commands R153: INIT on an idle block moves to FINAL_INIT and changes nothing else yet; the next step
runs LINE_INIT, returns to IDLE and records Done(INIT). -/
def Obligations.InitRunsFinalInit : Prop :=
  ∀ s : State, Live s → s.ph = .idle →
    exec .init s = .next { s with ph := .finalInit, cmd := .init } ∧
    (s.host = [] →
      step { s with ph := .finalInit, cmd := .init } = .next
        { s with
          ph := .idle
          cmd := .init
          oe := true
          level := some .high
          guard := true
          done := true
          trace := s.trace ++ [⟨s.time, .cfg⟩, ⟨s.time, .set .high⟩, ⟨s.time, .done .init⟩]
          oeLog := s.oeLog ++ [(s.time, true)] })

/-- 42_commands R156: TRANSMIT on an idle block: CODE and REP are written, and PH depends on GUARD. -/
def Obligations.TransmitLoadsItsOperandsAndStarts : Prop :=
  ∀ (code : CodeWord) (rep : RepeatCount) (s : State), Live s → s.ph = .idle →
    exec (.transmit code rep) s = .next
      { s with
        code := some code
        rep := some rep
        ph := if s.guard = false then .preInit else .preLong
        cmd := .transmit }

/-- 42_commands R150, R152, R153, R156: a command that a busy block is given raises Reentrant, with the word
and PH recorded, and has none of its effect; PH, the registers and the pin stay (60_exceptions R170). That `done`
is 0 at a fault is the model's reading (log 10). -/
def Obligations.CommandsFaultWhileBusy : Prop :=
  ∀ (i : Instr) (w : CommandWord) (s : State), encode i = .c64 w → Live s → s.ph ≠ .idle →
    exec i s = .next
      { s with
        fault := some (.reentrant w s.ph)
        done := false
        trace := s.trace ++ [⟨s.time, .flt (.reentrant w s.ph)⟩] }

/-- 42_commands R151: FINAL_INIT completes the command in progress and CONSTRUCT completes at its own
acceptance: Done is recorded at the current TIME, `done` is 1 and `busy` is 0; the next step, when nothing is
presented, ends the pulse and changes nothing else. -/
def Obligations.CompletionRecordsDoneAndPulses : Prop :=
  (∀ (s : State) (rest : List HostMove), Live s → s.ph = .finalInit →
    (s.host = [] ∧ rest = [] ∨ s.host = .pass :: rest) →
    ∃ t, step s = .next t ∧ t.trace.getLast? = some ⟨t.time, .done s.cmd⟩ ∧ doneOut t = true ∧
      busy t = false ∧ (rest = [] → step t = .next { t with done := false }) ∧
      ∀ more, rest = .pass :: more → step t = .next { t with host := more, done := false }) ∧
  (∀ (s : State) (rest : List HostMove), Live s → s.ph = .idle → s.host = .command 3 :: rest →
    ∃ t, step s = .next t ∧ t.trace.getLast? = some ⟨t.time, .done .construct⟩ ∧ doneOut t = true ∧
      busy t = false ∧ (rest = [] → step t = .next { t with done := false }) ∧
      ∀ more, rest = .pass :: more → step t = .next { t with host := more, done := false })

/-- 42_commands R151: the `done` output is 1 after a step only if that very step recorded a Done event, as its
last event and at the current TIME, and left `busy = 0`. -/
def Obligations.DoneIsPulsedOnlyAtACompletion : Prop :=
  ∀ s t : State, s.launched = true → s.fault = none → step s = .next t → doneOut t = true →
    busy t = false ∧ ∃ es c, t.trace = s.trace ++ es ++ [⟨t.time, .done c⟩]

/-! ## The sequencer's phases -/

/-- 41_serializer R123, R124, R126, R130, R132, R133: the phases that issue one EMIT and move on.
POST_ACTIVE leaves the line LOW. -/
def Obligations.StraightPhasesIssueTheirEmit : Prop :=
  ∀ (s : State) (p q : Phase) (b : Bool) (c : DurClass), Live s → s.host = [] → s.ph = p →
    (p, b, c, q) ∈ [(.preLong, true, .long, .preTick), (.preTick, false, .tick, .preSep),
      (.leadIdle, false, .tick, .leadActive), (.trailSep, true, .sep, .trailZero),
      (.postIdle, false, .tick, .postActive), (.postActive, true, .tick, .finalInit)] →
    issuedInstr s = some (.emit b c) ∧
    ∃ u, exec (.emit b c) { s with done := false } = .next u ∧ step s = .next { u with ph := q } ∧
      (p = .postActive → u.level = some .low)

/-- 41_serializer R122: PRE_INIT issues LINE_INIT and moves to PRE_LONG; TRANSMIT's acceptance enters it only
when GUARD = 0. -/
def Obligations.PreInitRunsTheLazyInit : Prop :=
  (∀ s : State, Live s → s.host = [] → s.ph = .preInit →
    issuedInstr s = some .lineInit ∧
    ∃ u, exec .lineInit { s with done := false } = .next u ∧ step s = .next { u with ph := .preLong }) ∧
  (∀ (code : CodeWord) (rep : RepeatCount) (s t : State), s.ph ≠ .preInit →
    exec (.transmit code rep) s = .next t → t.ph = .preInit → s.guard = false)

/-- 41_serializer R125: PRE_SEP issues EMIT 1, SEP and moves to LEAD_IDLE when REP != 0, else to POST_IDLE. -/
def Obligations.PreSepSkipsTheFramesAtRepeatZero : Prop :=
  ∀ (s : State) (r : RepeatCount), Live s → s.host = [] → s.ph = .preSep → s.rep = some r →
    issuedInstr s = some (.emit true .sep) ∧
    ∃ u, exec (.emit true .sep) { s with done := false } = .next u ∧
      (r ≠ 0 → step s = .next { u with ph := .leadIdle }) ∧
      (r = 0 → step s = .next { u with ph := .postIdle })

/-- 41_serializer R127: LEAD_ACTIVE issues EMIT 1, TICK, writes BIT <- 31 and moves to DATA_FIRST. -/
def Obligations.LeadActiveStartsAtBit31 : Prop :=
  ∀ s : State, Live s → s.host = [] → s.ph = .leadActive →
    issuedInstr s = some (.emit true .tick) ∧
    ∃ u, exec (.emit true .tick) { s with done := false } = .next u ∧
      step s = .next { u with bit := some 31, ph := .dataFirst }

/-- 41_serializer R128, R129: the two half-pulses of code bit BIT, and the loop to bit 0. -/
def Obligations.DataPhasesSendTheBitThenItsComplement : Prop :=
  ∀ (s : State) (v : CodeWord) (n : BitIndex), Live s → s.host = [] → s.code = some v → s.bit = some n →
    (s.ph = .dataFirst →
      issuedInstr s = some (.emit (v.getLsbD n.toNat) .tick) ∧
      ∃ u, exec (.emit (v.getLsbD n.toNat) .tick) { s with done := false } = .next u ∧
        step s = .next { u with ph := .dataSecond }) ∧
    (s.ph = .dataSecond →
      issuedInstr s = some (.emit (!v.getLsbD n.toNat) .tick) ∧
      ∃ u, exec (.emit (!v.getLsbD n.toNat) .tick) { s with done := false } = .next u ∧
        (n ≠ 0 → step s = .next { u with bit := some (n - 1), ph := .dataFirst }) ∧
        (n = 0 → u.bit = some 0 ∧ step s = .next { u with ph := .trailSep }))

/-- 41_serializer R131: TRAIL_ZERO's emission under both readings, REP <- REP - 1, and the frame loop. -/
def Obligations.TrailZeroClosesTheFrame : Prop :=
  ∀ (s : State) (r : RepeatCount), Live s → s.host = [] → s.ph = .trailZero → s.rep = some r → r ≠ 0 →
    s.rom.zero = 0 →
    step s = .next
      { s with
        level := some (if s.cfg.trailZero = .law then .high else .low)
        dly := some 0
        trace := s.trace ++
          [⟨s.time, .set (if s.cfg.trailZero = .law then .high else .low)⟩, ⟨s.time, .dly 0⟩]
        rep := some (r - 1)
        ph := if r - 1 = 0 then .postIdle else .leadIdle
        done := false }

/-- 41_serializer R131, 90_conflicts C1: the two readings of the frame trail give the same normalized
waveform once the next emission has run. -/
def Obligations.TrailReadingsGiveTheSameWaveform : Prop :=
  ∀ (s : State) (r : RepeatCount), Live s → s.host = [] → s.ph = .trailZero → s.rep = some r → r ≠ 0 →
    s.rom.zero = 0 →
    ∃ t t', runSteps 2 { s with cfg := { s.cfg with trailZero := .law } } = .next t ∧
      runSteps 2 { s with cfg := { s.cfg with trailZero := .literal4c } } = .next t' ∧
      normalized t.trace t.oeLog = normalized t'.trace t'.oeLog ∧ t.time = t'.time ∧ t.ph = t'.ph ∧ t.level = t'.level

/-- 41_serializer R134: FINAL_INIT issues LINE_INIT, sets PH to IDLE and completes the command. -/
def Obligations.FinalInitForcesTheIdleLine : Prop :=
  ∀ s : State, Live s → s.host = [] → s.ph = .finalInit →
    issuedInstr s = some .lineInit ∧
    step s = .next
      { s with
        ph := .idle
        oe := true
        level := some .high
        guard := true
        done := true
        trace := s.trace ++ [⟨s.time, .cfg⟩, ⟨s.time, .set .high⟩, ⟨s.time, .done s.cmd⟩]
        oeLog := s.oeLog ++ [(s.time, true)] }

/-- 30_encoding R79: the sequencer issues five of the eight EMIT words, and LINE_INIT; the three other EMIT
words are legal for the driver. -/
def Obligations.SequencerIssuesFiveEmitWords : Prop :=
  (∀ (s : State) (w : MicroWord), issue s = .word w → w ∈ ([0x7, 0x1, 0x6, 0x5, 0x0, 0x8] : List MicroWord)) ∧
  (∀ w ∈ ([0x7, 0x1, 0x6, 0x5, 0x0] : List MicroWord), ∃ s, issue s = .word w) ∧
  decodeMicro 0x3 = .instr (.emit false .long) ∧ decodeMicro 0x2 = .instr (.emit false .sep) ∧
  decodeMicro 0x4 = .instr (.emit true .zero)

/-- 10_state R38, 60_exceptions R171: a read of a register with no value raises Unwritten with its name; it does
not pick a value. Before the micro-operation for CODE and BIT, after it for REP, and at the answer to a delay call
for DLY; the fault itself keeps PH, the registers and the pin (60_exceptions R170). The order, and that the last is
raised inside a micro-operation, where R170 raises none, are the model's choice in states no run reaches (log 4). That `done` is
0 at a fault is the model's reading (log 10). -/
def Obligations.ReadingARegisterWithNoValueFaults : Prop :=
  (∀ s : State, Live s → s.host = [] →
    ((s.ph = .dataFirst ∨ s.ph = .dataSecond) → s.code = none →
      step s = .next { s with
          fault := some (.unwritten .code)
          done := false
          trace := s.trace ++ [⟨s.time, .flt (.unwritten .code)⟩] }) ∧
    ((s.ph = .dataFirst ∨ s.ph = .dataSecond) → s.code ≠ none → s.bit = none →
      step s = .next { s with
          fault := some (.unwritten .bit)
          done := false
          trace := s.trace ++ [⟨s.time, .flt (.unwritten .bit)⟩] }) ∧
    ((s.ph = .preSep ∨ s.ph = .trailZero) → s.rep = none →
      ∃ t, step s = .next t ∧ t.fault = some (.unwritten .rep) ∧ t.ph = s.ph ∧ t.rep = none ∧
        t.trace.getLast? = some ⟨t.time, .flt (.unwritten .rep)⟩)) ∧
  (∀ (s : State) (rest : List HostMove), s.cfg.wellFormed = true → s.launched = true → s.fault = none →
    s.mop ≠ none → s.req ≠ none → s.dly = none → s.host = .ack :: rest →
    step s = .next { s with
        host := rest
        fault := some (.unwritten .dly)
        done := false
        trace := s.trace ++ [⟨s.time, .flt (.unwritten .dly)⟩] })

/-! ## Faults and priority -/

/-- 60_exceptions R174: the order in which a step weighs what happens at once, at a step boundary. A step that
nothing is presented in is the sequencer's, which does nothing in IDLE (41_serializer R120). That `done` is 0 at
a fault and after reset is the model's reading (log 10), that a faulted block's moves pass one a step its choice
(log 14), and so are the other fields of its own after reset (log 8, log 9, log 27). -/
def Obligations.StepWeighsEventsInTheSpecsOrder : Prop :=
  ∀ s : State, s.cfg.wellFormed = true → s.launched = true → s.mop = none →
    (∀ cut rest, s.host = .rst cut :: rest →
      ∃ ended, step s = .next { State.afterReset s.cfg rest with ended := ended }) ∧
    (s.fault ≠ none → ∀ m rest, (∀ cut, m ≠ .rst cut) → m ≠ .interfere → s.host = m :: rest →
      step s = .next { s with host := rest }) ∧
    (s.fault = none → s.ph.isReserved = true → ∀ m rest, (∀ cut, m ≠ .rst cut) → m ≠ .interfere →
      s.host = m :: rest →
      step s = .next { s with
          host := rest
          fault := some (.badPhase s.ph)
          done := false
          trace := s.trace ++ [⟨s.time, .flt (.badPhase s.ph)⟩] }) ∧
    (s.fault = none → s.ph.isReserved = true → s.host = [] →
      step s = .next { s with
          fault := some (.badPhase s.ph)
          done := false
          trace := s.trace ++ [⟨s.time, .flt (.badPhase s.ph)⟩] }) ∧
    (s.fault = none → s.ph.isReserved = false → s.ph ≠ .idle → ∀ w rest, s.host = .command w :: rest →
      step s = .next { s with
          host := rest
          fault := some (.reentrant w s.ph)
          done := false
          trace := s.trace ++ [⟨s.time, .flt (.reentrant w s.ph)⟩] }) ∧
    (s.fault = none → s.ph = .idle → ∀ w rest, s.host = .command w :: rest →
      (∀ e, decodeCommand w = .illegal e →
        step s = .next { s with
            host := rest
            fault := some (.illegalCommand w)
            done := false
            trace := s.trace ++ [⟨s.time, .flt (.illegalCommand w)⟩] }) ∧
      (∀ i, decodeCommand w = .instr i → step s = exec i { s with host := rest, done := false })) ∧
    (s.fault = none → s.ph.isReserved = false →
      (s.host = [] → step s = sequencerStep { s with done := false }) ∧
      (∀ rest, s.host = .pass :: rest → step s = sequencerStep { s with host := rest, done := false })) ∧
    (∀ w e, decodeMicro w = .illegal e →
      runWord w s = .next { s with
          fault := some (.badMicroOp w)
          done := false
          trace := s.trace ++ [⟨s.time, .flt (.badMicroOp w)⟩] })

/-- 60_exceptions R170, R175: a faulted block takes no further step: whatever is presented, short of `rst` and
of interference with the pin, changes no state of it, for as many steps as there are moves; with none left the
machine stands. That a move passes in each step, and that stop, are the model's choice (log 14). -/
def Obligations.FaultedBlockTakesNoStep : Prop :=
  ∀ (n : Nat) (s : State) (r : FaultReason), s.cfg.wellFormed = true → s.launched = true →
    s.fault = some r → (∀ m ∈ s.host, (∀ cut, m ≠ .rst cut) ∧ m ≠ .interfere) →
    (n ≤ s.host.length → runSteps n s = .next { s with host := s.host.drop n }) ∧
    (s.host.length < n → runSteps n s = .fault (.stuck r))

/-- 30_encoding R83: every reserved command encoding presented to an idle block, and every reserved
micro-operation word that reaches the driver, faults. -/
def Obligations.ReservedEncodingsFault : Prop :=
  (∀ (s : State) (w : CommandWord) (rest : List HostMove), Live s → s.ph = .idle →
    s.host = .command w :: rest →
    (fieldRsv w ≠ 0 ∨ (fieldOp w ≠ 1 ∧ fieldOp w ≠ 2 ∧ fieldOp w ≠ 3) ∨
      (fieldOp w ≠ 2 ∧ fieldOperands w ≠ 0)) →
    ∃ t, step s = .next t ∧ t.fault = some (.illegalCommand w) ∧
      t.trace = s.trace ++ [⟨s.time, .flt (.illegalCommand w)⟩]) ∧
  (∀ (s : State) (w : MicroWord), 9 ≤ w.toNat →
    ∃ t, runWord w s = .next t ∧ t.fault = some (.badMicroOp w) ∧
      t.trace = s.trace ++ [⟨s.time, .flt (.badMicroOp w)⟩])

/-! ## Invariants -/

/-- 10_state R26, R38, 30_encoding R81, 41_serializer R121, 40_driver R91, R102: every step keeps the sequencer's
invariant: the driver is busy only with what the phase issued. -/
def Obligations.StepKeepsTheSequencerInvariant : Prop :=
  ∀ s t : State, SequencerInv s → step s = .next t → SequencerInv t

/-- 10_state R39: the invariant holds after reset. -/
def Obligations.ResetMeetsTheSequencerInvariant : Prop := SequencerInv State.reset

/-- 60_exceptions R171: codes 3, 4 and 5 are unreachable: from a state in the invariant no step raises them. -/
def Obligations.OnlyTheHostsFaultsAreRaised : Prop :=
  ∀ s t : State, SequencerInv s → (∀ r, s.fault = some r → r.isHosts = true) → step s = .next t →
    ∀ r, t.fault = some r → r.isHosts = true

/-- 10_state R24, R35, R36, 20_memory R56, R57, 40_driver R97, 60_exceptions R170: every step keeps the invariant of
the ROM, the trace, the pin and PIN.OE's history. -/
def Obligations.StepKeepsTheTraceInvariant : Prop :=
  ∀ s t : State, TraceInv s → step s = .next t → TraceInv t

/-- 10_state R39: the invariant holds after reset. -/
def Obligations.ResetMeetsTheTraceInvariant : Prop := TraceInv State.reset

/-- 60_exceptions R182, 70_reset_and_hazards R197: between commands the block holds the line HIGH: every
step from a state in the sequencer's invariant with the pin HIGH whenever PH is IDLE leaves a state with the
pin HIGH whenever PH is IDLE. -/
def Obligations.IdleBlockHoldsTheLineHigh : Prop :=
  ∀ s t : State, SequencerInv s → (s.launched = true → s.ph = .idle → s.level = some .high) →
    step s = .next t → (t.launched = true → t.ph = .idle → t.level = some .high)

/-- 00_scope R6, 10_state R24, 20_memory R51: no step changes the configuration, and only CONSTRUCT and reset
write the ROM. -/
def Obligations.OnlyConstructAndResetWriteTheRom : Prop :=
  ∀ s t : State, step s = .next t →
    t.cfg = s.cfg ∧
    (t.rom ≠ s.rom → (∃ cut rest, s.host = .rst cut :: rest) ∨ (∃ rest, s.host = .command 3 :: rest))

/-- 20_memory R56, R59: without `rst` the trace only grows at its end, and TIME never goes back. -/
def Obligations.TraceOnlyGrowsAtItsEnd : Prop :=
  ∀ s t : State, (∀ cut rest, s.host ≠ .rst cut :: rest) → step s = .next t →
    (∃ es, t.trace = s.trace ++ es) ∧ s.time ≤ t.time ∧ t.ended = s.ended

/-! ## Whole transmits -/

/-- 41_serializer R135: the micro-operations that the sequencer issues for a TRANSMIT, in order, under `LAW`, in
a run that nothing disturbs (70_reset_and_hazards R194), whatever the host's later moves are. -/
def Obligations.TransmitIssuesExactlyTheSequence : Prop :=
  ∀ (v : CodeWord) (r : RepeatCount) (s : State) (rest : List HostMove), Live s → s.ph = .idle →
    s.cfg.trailZero = .law → s.host = .command (assembleC64 v r 2) :: rest →
    Undisturbed (1 + (seq v r.toNat s.guard).length) s = true →
    issuedOver (1 + (seq v r.toNat s.guard).length) s = seq v r.toNat s.guard ∧
    ∃ t, runSteps (1 + (seq v r.toNat s.guard).length) s = .next t ∧ t.ph = .idle

/-- 41_serializer R140: the state when a transmit completes, for every code and every repeat count, in a run that
nothing disturbs (70_reset_and_hazards R194), whatever the host's later moves are. -/
def Obligations.TransmitEndsWithTheIdleLine : Prop :=
  ∀ (v : CodeWord) (r : RepeatCount) (s : State) (rest : List HostMove), Live s → s.ph = .idle →
    s.host = .command (assembleC64 v r 2) :: rest →
    Undisturbed (1 + microOpCount r.toNat s.guard) s = true →
    ∃ t, runSteps (1 + microOpCount r.toNat s.guard) s = .next t ∧
      t.ph = .idle ∧ t.oe = true ∧ t.level = some .high ∧ t.guard = true ∧ t.code = some v ∧
      t.rep = some 0 ∧ t.fault = none ∧ (1 ≤ r.toNat → t.bit = some 0) ∧ (r.toNat = 0 → t.bit = s.bit) ∧
      t.dly = some (BitVec.ofNat 32 (emissionTime s.cfg s.rom .tick % s.cfg.chunk))

/-- 41_serializer R139: a transmit takes T(r), whatever its code; with the default base unit and multipliers
T(r) is 65892 + 80712*r at SHIFT 0, 8235 + 10056*r at SHIFT 3 and 4117 + 5028*r at SHIFT 4. The run is one that
nothing disturbs (70_reset_and_hazards R194). -/
def Obligations.TransmitTakesItsNominalDuration : Prop :=
  (∀ (v : CodeWord) (r : RepeatCount) (s : State) (rest : List HostMove), Live s → s.ph = .idle →
    s.host = .command (assembleC64 v r 2) :: rest →
    Undisturbed (1 + microOpCount r.toNat s.guard) s = true →
    ∃ t, runSteps (1 + microOpCount r.toNat s.guard) s = .next t ∧ t.ph = .idle ∧
      t.time = s.time +
        (emissionTime s.cfg s.rom .long + emissionTime s.cfg s.rom .tick + emissionTime s.cfg s.rom .sep
          + r.toNat * (66 * emissionTime s.cfg s.rom .tick + emissionTime s.cfg s.rom .sep
            + emissionTime s.cfg s.rom .zero)
          + 2 * emissionTime s.cfg s.rom .tick)) ∧
  (∀ r : Nat,
    transmitTime { Config.standard with shift := 0 } (Rom.build Config.standard) r = 65892 + 80712 * r ∧
    transmitTime { Config.standard with shift := 3 } (Rom.build Config.standard) r = 8235 + 10056 * r ∧
    transmitTime { Config.standard with shift := 4 } (Rom.build Config.standard) r = 4117 + 5028 * r)

/-- 41_serializer R135, 42_commands R151, 20_memory R65: the whole trace of a transmit under `LAW`: the events
of its micro-operations, then Done(TRANSMIT), in a run that nothing disturbs (70_reset_and_hazards R194). -/
def Obligations.TransmitRecordsTheEventsOfItsSequence : Prop :=
  ∀ (v : CodeWord) (r : RepeatCount) (s : State) (rest : List HostMove), Live s → s.ph = .idle →
    s.cfg.trailZero = .law → s.host = .command (assembleC64 v r 2) :: rest →
    Undisturbed (1 + microOpCount r.toNat s.guard) s = true →
    ∃ t, runSteps (1 + microOpCount r.toNat s.guard) s = .next t ∧
      t.trace = s.trace ++ microEvents s.cfg s.rom (seq v r.toNat s.guard) s.time
        ++ [⟨t.time, .done .transmit⟩]

/-- 41_serializer R136: the counts of a transmit. -/
def Obligations.SequenceHasTheStatedCounts : Prop :=
  ∀ (v : CodeWord) (r : Nat) (g : Bool),
    (emits (seq v r g)).length = 3 + r * (2 + 64 + 2) + 2 ∧
    (emits (seq v r g)).length = 5 + 68 * r ∧
    (seq v r g).length = (emits (seq v r g)).length + 1 + (if g = true then 0 else 1) ∧
    ((r, (emits (seq v r g)).length) ∈ [(0, 5), (1, 73), (8, 549), (255, 17345)] ∨
      (r ≠ 0 ∧ r ≠ 1 ∧ r ≠ 8 ∧ r ≠ 255))

/-- 41_serializer R137: the k-th EMIT of a transmit. -/
def Obligations.EmitsStandAtTheirStatedIndices : Prop :=
  ∀ (v : CodeWord) (r : Nat) (g : Bool),
    (emits (seq v r g))[0]? = some (.emit true .long) ∧
    (emits (seq v r g))[1]? = some (.emit false .tick) ∧
    (emits (seq v r g))[2]? = some (.emit true .sep) ∧
    (∀ f, f < r →
      (emits (seq v r g))[3 + 68 * f]? = some (.emit false .tick) ∧
      (emits (seq v r g))[3 + 68 * f + 1]? = some (.emit true .tick) ∧
      (∀ j, j < 32 →
        (emits (seq v r g))[3 + 68 * f + 2 + 2 * j]? = some (.emit (v.getLsbD (31 - j)) .tick) ∧
        (emits (seq v r g))[3 + 68 * f + 3 + 2 * j]? = some (.emit (!v.getLsbD (31 - j)) .tick)) ∧
      (emits (seq v r g))[3 + 68 * f + 66]? = some (.emit true .sep) ∧
      (emits (seq v r g))[3 + 68 * f + 67]? = some (.emit false .zero)) ∧
    (emits (seq v r g))[3 + 68 * r]? = some (.emit false .tick) ∧
    (emits (seq v r g))[4 + 68 * r]? = some (.emit true .tick)

/-! ## Host, platform and environment -/

/-- 42_commands R158, R159: the host's wait: the block goes on while busy, then n units pass. The form of the
wait, and that n is a whole number, are the model's choice (log 7, log 29). -/
def Obligations.HostWaitLetsTheBlockFinishThenTimePass : Prop :=
  ∀ (s : State) (n : Nat) (rest : List HostMove), Live s → s.ph.isReserved = false →
    s.host = .wait n :: rest →
    (s.ph = .idle → step s = .next { s with time := s.time + n, host := rest, done := false }) ∧
    (s.ph ≠ .idle → step s = sequencerStep { s with done := false })

/-- 60_exceptions R183: interference clears PIN.OE; from then on the waveform is undefined until the output is
re-asserted, which LINE_INIT does. That interference takes a step of its own, in which no micro-operation runs,
that it ends the done pulse, and that the waveform function answers none are the model's choice (log 13). -/
def Obligations.InterferenceClearsTheOutputUntilReasserted : Prop :=
  ∀ (s : State) (rest : List HostMove), Live s → noFlt s.trace = true → s.host = .interfere :: rest →
    ∃ t, step s = .next t ∧
      t = { s with oe := false, oeLog := s.oeLog ++ [(s.time, false)], host := rest, done := false } ∧
      lineAt t t.time = none ∧
      ∃ u, exec .lineInit t = .next u ∧ u.oe = true ∧ lineAt u u.time = some .high

/-- 20_memory R58, 40_driver R102, R103, 70_reset_and_hazards R194: TIME advances over an EMIT, and over a step in
which nothing is presented, by the sum of the delay arguments it records; under DelayExact the real duration
strays from that by at most DELAY_ERR for each delay call whose argument is not 0. Real durations are whole
numbers in the model (log 24). -/
def Obligations.RealTimeStraysByAtMostTheErrorPerCall : Prop :=
  ∀ (s t : State), ((∃ b cls, exec (.emit b cls) s = .next t) ∨
      (Live s ∧ (s.host = [] ∨ ∃ rest, s.host = .pass :: rest) ∧ step s = .next t)) →
    ∃ es, t.trace = s.trace ++ es ∧ t.time = s.time + (delaysOf es).sum ∧
      ∀ real, DelayExact s.cfg es real →
        t.time ≤ s.time + real.sum + ((delaysOf es).filter (· ≠ 0)).length * s.cfg.delayErr ∧
        s.time + real.sum ≤ t.time + ((delaysOf es).filter (· ≠ 0)).length * s.cfg.delayErr

/-- 30_encoding R84, R85: a TRANSMIT statement assembles to the word of its operands, an operand out of range
is an assembly error, the repeat count defaults to 8, and SEND is TRANSMIT followed by WAIT. -/
def Obligations.AssembledTransmitIsTheWordOfItsOperands : Prop :=
  ∀ code rep : Nat,
    (code < 2 ^ 32 → rep < 2 ^ 8 →
      ∃ w, assemble (.transmit code rep) = some [.command w] ∧
        assemble (.send code rep) = some [.command w, .wait 0] ∧
        decodeCommand w = .instr (.transmit (BitVec.ofNat 32 code) (BitVec.ofNat 8 rep))) ∧
    (2 ^ 32 ≤ code ∨ 2 ^ 8 ≤ rep → assemble (.transmit code rep) = none ∧ assemble (.send code rep) = none) ∧
    assemble (.transmitDefault code) = assemble (.transmit code 8)

/-- 60_exceptions R180: encoders share no state: a step of encoder k makes its state the one that step answers,
and leaves every other as it was. That several encoders are a list is the model's choice (log 21). -/
def Obligations.EncodersAreIndependent : Prop :=
  ∀ (all : List State) (k : Nat) (s : State), all[k]? = some s →
    (stepEncoder k all).length = all.length ∧
    (∀ t, step s = .next t → (stepEncoder k all)[k]? = some t) ∧
    ((∀ t, step s ≠ .next t) → (stepEncoder k all)[k]? = some s) ∧
    ∀ j, j ≠ k → (stepEncoder k all)[j]? = all[j]?

/-- 40_driver R102: the delay handshake. A step whose emission meets a call that is not answered waits in it:
`dly_req` with the call's argument, the answered calls' time passed, no update made; a waiting block does
nothing until `dly_ack`; and once it is answered the micro-operation ends as one that never waited. The moves
that withhold and give `dly_ack` are the model's (log 17). -/
def Obligations.DelayCallWaitsForItsAcknowledge : Prop :=
  (∀ (s : State) (k : Nat) (rest : List HostMove) (m : Mop) (e : Level) (c : DurClass), Live s →
    s.host = .hold k :: .ack :: rest → issue s = m.issue → m.issue.pulse = some (e, c) →
    k * s.cfg.chunk ≤ emissionTime s.cfg s.rom c →
    ∃ t, step s = .next t ∧
      t.req = some (nextArg s.cfg.chunk (emissionTime s.cfg s.rom c - k * s.cfg.chunk)) ∧
      t.mop = some m ∧ t.ph = s.ph ∧ t.level = some e ∧ t.time = s.time + k * s.cfg.chunk ∧
      t.trace = s.trace ++ ⟨s.time, .set e⟩ :: delayEvents s.time (List.replicate k s.cfg.chunk
        ++ [nextArg s.cfg.chunk (emissionTime s.cfg s.rom c - k * s.cfg.chunk)]) ∧
      step t = step { s with host := .pass :: rest }) ∧
  (∀ s : State, s.cfg.wellFormed = true → s.launched = true → s.fault = none → s.mop ≠ none → s.req ≠ none →
    (s.host = [] → step s = .next { s with done := false }) ∧
    (∀ rest, s.host = .pass :: rest → step s = .next { s with host := rest, done := false }))

/-- 70_reset_and_hazards R195, 20_memory R57, 60_exceptions R183: where a launch's observed run ends, the observed
waveform ends with an open-ended HIGH segment if PIN.OE is 1, and with no stated level if interference has cleared
it; from then on that is the line's level; and any later move but a command leaves it an end of a run. In any
state the normalized waveform gives the line's level at every time from its start on, in maximal segments. That
the line has no stated level while PIN.OE is 0, nor from a fault on, is the model's choice (log 13, log 26). The
premises are invariants of every step. -/
def Obligations.ObservedRunEndsWithTheLineHigh : Prop :=
  (∀ s : State, TraceInv s → (s.launched = true → s.ph = .idle → s.level = some .high) → endsRun s = true →
    s.ph = .idle ∧ s.fault = none ∧ (observation s).2.tail = (if s.oe = true then some .high else none) ∧
    (∀ τ, s.time ≤ τ → lineAt s τ = (observation s).2.tail) ∧
    ∀ rest, noFurtherCommand rest = true → endsRun { s with host := rest } = true) ∧
  (∀ s : State, TraceInv s →
    (∀ t0 n, (changeTimes s.trace s.oeLog).head? = some t0 → (observation s).2.levelAt n = lineAt s (t0 + n)) ∧
    maximal (observation s).2.tail (observation s).2.segments = true)
end

