-- ==== Sys2Proof/Laws/Decode.lean ====
section
/-! SUPPORT. The fields of a command word and its assembly undo each other (30_encoding R72). -/

namespace Sys2Proof

/-- The field CODE of an assembled word is the CODE it was assembled from. -/
@[simp] theorem fieldCode_assemble (c : CodeWord) (r : RepeatCount) (o : BitVec 8) :
    fieldCode (assembleC64 c r o) = c := by
  apply BitVec.eq_of_getLsbD_eq; intro i hi
  have h1 : 32 + i < 64 := by omega
  have h2 : r.getLsbD (32 + i - 24) = false := BitVec.getLsbD_of_ge _ _ (by omega)
  have h3 : o.getLsbD (32 + i) = false := BitVec.getLsbD_of_ge _ _ (by omega)
  simp [fieldCode, assembleC64, hi, h1, h2, h3]

/-- The field REPEAT of an assembled word is its REPEAT. -/
@[simp] theorem fieldRepeat_assemble (c : CodeWord) (r : RepeatCount) (o : BitVec 8) :
    fieldRepeat (assembleC64 c r o) = r := by
  apply BitVec.eq_of_getLsbD_eq; intro i hi
  have h3 : o.getLsbD (24 + i) = false := BitVec.getLsbD_of_ge _ _ (by omega)
  simp [fieldRepeat, assembleC64, hi, h3, show 24 + i < 32 by omega, show 24 + i < 64 by omega]

/-- An assembled word has RSV zero. -/
@[simp] theorem fieldRsv_assemble (c : CodeWord) (r : RepeatCount) (o : BitVec 8) :
    fieldRsv (assembleC64 c r o) = 0 := by
  apply BitVec.eq_of_getLsbD_eq; intro i hi
  simp [fieldRsv, assembleC64, hi, show 8 + i < 32 by omega, show 8 + i < 24 by omega]

/-- The field OP of an assembled word is its OP. -/
@[simp] theorem fieldOp_assemble (c : CodeWord) (r : RepeatCount) (o : BitVec 8) :
    fieldOp (assembleC64 c r o) = o := by
  apply BitVec.eq_of_getLsbD_eq; intro i hi
  simp [fieldOp, assembleC64, hi, show i < 32 by omega, show i < 24 by omega]; omega

/-- RSV is bits 23:8. -/
theorem fieldRsv_bits {w : CommandWord} (h : fieldRsv w = 0) :
    ∀ j, 8 ≤ j → j < 24 → w.getLsbD j = false := by
  intro j h1 h2
  have := congrArg (fun v => v.getLsbD (j - 8)) h
  simpa [fieldRsv, show j - 8 < 16 by omega, show 8 + (j - 8) = j by omega] using this

/-- A word with RSV zero is assembled from its fields: no bit is in two fields or in none. -/
theorem assemble_fields (w : CommandWord) (h : fieldRsv w = 0) :
    assembleC64 (fieldCode w) (fieldRepeat w) (fieldOp w) = w := by
  apply BitVec.eq_of_getLsbD_eq
  intro i hi
  simp only [assembleC64, fieldCode, fieldRepeat, fieldOp, BitVec.getLsbD_or, BitVec.getLsbD_shiftLeft,
    BitVec.getLsbD_setWidth, BitVec.getLsbD_extractLsb']
  by_cases h1 : i < 8
  · simp [h1, show i < 32 by omega, show i < 24 by omega, hi]
  · by_cases h2 : i < 24
    · have := fieldRsv_bits h i (by omega) (by omega)
      simp [h1, this, show i < 32 by omega, h2]
    · by_cases h3 : i < 32
      · simp [h1, h2, h3, hi, show i - 24 < 8 by omega, show 24 + (i - 24) = i by omega]; omega
      · simp [h1, h2, h3, hi, show ¬ i - 24 < 8 by omega,
          show i - 32 < 32 by omega, show 32 + (i - 32) = i by omega]; omega

/-- Operand bits that are all zero are a CODE and a REPEAT of zero. -/
theorem fieldOperands_zero (w : CommandWord) (h : fieldOperands w = 0) :
    fieldCode w = 0 ∧ fieldRepeat w = 0 := by
  have hr : ∀ j, j < 40 → w.getLsbD (24 + j) = false := by
    intro j hj
    have := congrArg (fun v => v.getLsbD j) h
    simpa [fieldOperands, hj] using this
  constructor <;> (apply BitVec.eq_of_getLsbD_eq; intro i hi; simp [fieldCode, fieldRepeat])
  · intro; have := hr (8 + i) (by omega); rwa [show 24 + (8 + i) = 32 + i by omega] at this
  · intro; exact hr i (by omega)

end Sys2Proof
end

