-- ==== Sys2Proof/Laws/State.lean ====
section
/-! SUPPORT. Beside State: one lemma per field per update, true by rfl, so that no proof unfolds a record
update. -/

namespace Sys2Proof.Machine

section
variable (e : Event) (s : State)

@[simp] theorem record_rom : (record e s).rom = s.rom := rfl
@[simp] theorem record_code : (record e s).code = s.code := rfl
@[simp] theorem record_rep : (record e s).rep = s.rep := rfl
@[simp] theorem record_bit : (record e s).bit = s.bit := rfl
@[simp] theorem record_ph : (record e s).ph = s.ph := rfl
@[simp] theorem record_dly : (record e s).dly = s.dly := rfl
@[simp] theorem record_guard : (record e s).guard = s.guard := rfl
@[simp] theorem record_fault : (record e s).fault = s.fault := rfl
@[simp] theorem record_oe : (record e s).oe = s.oe := rfl
@[simp] theorem record_level : (record e s).level = s.level := rfl
@[simp] theorem record_mop : (record e s).mop = s.mop := rfl
@[simp] theorem record_req : (record e s).req = s.req := rfl
@[simp] theorem record_time : (record e s).time = s.time := rfl
@[simp] theorem record_trace : (record e s).trace = s.trace ++ [⟨s.time, e⟩] := rfl
@[simp] theorem record_done : (record e s).done = s.done := rfl
@[simp] theorem record_cmd : (record e s).cmd = s.cmd := rfl
@[simp] theorem record_oeLog : (record e s).oeLog = s.oeLog := rfl
@[simp] theorem record_ended : (record e s).ended = s.ended := rfl
@[simp] theorem record_launched : (record e s).launched = s.launched := rfl
@[simp] theorem record_cfg : (record e s).cfg = s.cfg := rfl
@[simp] theorem record_host : (record e s).host = s.host := rfl

end

section
variable (s : State)

@[simp] theorem pinConfigure_rom : (pinConfigure s).rom = s.rom := rfl
@[simp] theorem pinConfigure_code : (pinConfigure s).code = s.code := rfl
@[simp] theorem pinConfigure_rep : (pinConfigure s).rep = s.rep := rfl
@[simp] theorem pinConfigure_bit : (pinConfigure s).bit = s.bit := rfl
@[simp] theorem pinConfigure_ph : (pinConfigure s).ph = s.ph := rfl
@[simp] theorem pinConfigure_dly : (pinConfigure s).dly = s.dly := rfl
@[simp] theorem pinConfigure_guard : (pinConfigure s).guard = s.guard := rfl
@[simp] theorem pinConfigure_fault : (pinConfigure s).fault = s.fault := rfl
@[simp] theorem pinConfigure_oe : (pinConfigure s).oe = true := rfl
@[simp] theorem pinConfigure_level : (pinConfigure s).level = some s.cfg.pinCfgLevel := rfl
@[simp] theorem pinConfigure_mop : (pinConfigure s).mop = s.mop := rfl
@[simp] theorem pinConfigure_req : (pinConfigure s).req = s.req := rfl
@[simp] theorem pinConfigure_time : (pinConfigure s).time = s.time := rfl
@[simp] theorem pinConfigure_trace : (pinConfigure s).trace = s.trace ++ [⟨s.time, .cfg⟩] := rfl
@[simp] theorem pinConfigure_done : (pinConfigure s).done = s.done := rfl
@[simp] theorem pinConfigure_cmd : (pinConfigure s).cmd = s.cmd := rfl
@[simp] theorem pinConfigure_oeLog : (pinConfigure s).oeLog = s.oeLog ++ [(s.time, true)] := rfl
@[simp] theorem pinConfigure_ended : (pinConfigure s).ended = s.ended := rfl
@[simp] theorem pinConfigure_launched : (pinConfigure s).launched = s.launched := rfl
@[simp] theorem pinConfigure_cfg : (pinConfigure s).cfg = s.cfg := rfl
@[simp] theorem pinConfigure_host : (pinConfigure s).host = s.host := rfl

end

section
variable (e : Level) (s : State)

@[simp] theorem pinWrite_rom : (pinWrite e s).rom = s.rom := rfl
@[simp] theorem pinWrite_code : (pinWrite e s).code = s.code := rfl
@[simp] theorem pinWrite_rep : (pinWrite e s).rep = s.rep := rfl
@[simp] theorem pinWrite_bit : (pinWrite e s).bit = s.bit := rfl
@[simp] theorem pinWrite_ph : (pinWrite e s).ph = s.ph := rfl
@[simp] theorem pinWrite_dly : (pinWrite e s).dly = s.dly := rfl
@[simp] theorem pinWrite_guard : (pinWrite e s).guard = s.guard := rfl
@[simp] theorem pinWrite_fault : (pinWrite e s).fault = s.fault := rfl
@[simp] theorem pinWrite_oe : (pinWrite e s).oe = s.oe := rfl
@[simp] theorem pinWrite_level : (pinWrite e s).level = some e := rfl
@[simp] theorem pinWrite_mop : (pinWrite e s).mop = s.mop := rfl
@[simp] theorem pinWrite_req : (pinWrite e s).req = s.req := rfl
@[simp] theorem pinWrite_time : (pinWrite e s).time = s.time := rfl
@[simp] theorem pinWrite_trace : (pinWrite e s).trace = s.trace ++ [⟨s.time, .set e⟩] := rfl
@[simp] theorem pinWrite_done : (pinWrite e s).done = s.done := rfl
@[simp] theorem pinWrite_cmd : (pinWrite e s).cmd = s.cmd := rfl
@[simp] theorem pinWrite_oeLog : (pinWrite e s).oeLog = s.oeLog := rfl
@[simp] theorem pinWrite_ended : (pinWrite e s).ended = s.ended := rfl
@[simp] theorem pinWrite_launched : (pinWrite e s).launched = s.launched := rfl
@[simp] theorem pinWrite_cfg : (pinWrite e s).cfg = s.cfg := rfl
@[simp] theorem pinWrite_host : (pinWrite e s).host = s.host := rfl

end

section
variable (n : Nat) (s : State)

@[simp] theorem elapse_rom : (elapse n s).rom = s.rom := rfl
@[simp] theorem elapse_code : (elapse n s).code = s.code := rfl
@[simp] theorem elapse_rep : (elapse n s).rep = s.rep := rfl
@[simp] theorem elapse_bit : (elapse n s).bit = s.bit := rfl
@[simp] theorem elapse_ph : (elapse n s).ph = s.ph := rfl
@[simp] theorem elapse_dly : (elapse n s).dly = s.dly := rfl
@[simp] theorem elapse_guard : (elapse n s).guard = s.guard := rfl
@[simp] theorem elapse_fault : (elapse n s).fault = s.fault := rfl
@[simp] theorem elapse_oe : (elapse n s).oe = s.oe := rfl
@[simp] theorem elapse_level : (elapse n s).level = s.level := rfl
@[simp] theorem elapse_mop : (elapse n s).mop = s.mop := rfl
@[simp] theorem elapse_req : (elapse n s).req = s.req := rfl
@[simp] theorem elapse_time : (elapse n s).time = s.time + n := rfl
@[simp] theorem elapse_trace : (elapse n s).trace = s.trace := rfl
@[simp] theorem elapse_done : (elapse n s).done = s.done := rfl
@[simp] theorem elapse_cmd : (elapse n s).cmd = s.cmd := rfl
@[simp] theorem elapse_oeLog : (elapse n s).oeLog = s.oeLog := rfl
@[simp] theorem elapse_ended : (elapse n s).ended = s.ended := rfl
@[simp] theorem elapse_launched : (elapse n s).launched = s.launched := rfl
@[simp] theorem elapse_cfg : (elapse n s).cfg = s.cfg := rfl
@[simp] theorem elapse_host : (elapse n s).host = s.host := rfl

end

section
variable (n : Nat) (s : State)

@[simp] theorem request_rom : (request n s).rom = s.rom := rfl
@[simp] theorem request_code : (request n s).code = s.code := rfl
@[simp] theorem request_rep : (request n s).rep = s.rep := rfl
@[simp] theorem request_bit : (request n s).bit = s.bit := rfl
@[simp] theorem request_ph : (request n s).ph = s.ph := rfl
@[simp] theorem request_dly : (request n s).dly = s.dly := rfl
@[simp] theorem request_guard : (request n s).guard = s.guard := rfl
@[simp] theorem request_fault : (request n s).fault = s.fault := rfl
@[simp] theorem request_oe : (request n s).oe = s.oe := rfl
@[simp] theorem request_level : (request n s).level = s.level := rfl
@[simp] theorem request_mop : (request n s).mop = s.mop := rfl
@[simp] theorem request_req : (request n s).req = some n := rfl
@[simp] theorem request_time : (request n s).time = s.time := rfl
@[simp] theorem request_trace : (request n s).trace = s.trace ++ [⟨s.time, .dly n⟩] := rfl
@[simp] theorem request_done : (request n s).done = s.done := rfl
@[simp] theorem request_cmd : (request n s).cmd = s.cmd := rfl
@[simp] theorem request_oeLog : (request n s).oeLog = s.oeLog := rfl
@[simp] theorem request_ended : (request n s).ended = s.ended := rfl
@[simp] theorem request_launched : (request n s).launched = s.launched := rfl
@[simp] theorem request_cfg : (request n s).cfg = s.cfg := rfl
@[simp] theorem request_host : (request n s).host = s.host := rfl

end

section
variable (n : Nat) (s : State)

@[simp] theorem delay_rom : (delay n s).rom = s.rom := rfl
@[simp] theorem delay_code : (delay n s).code = s.code := rfl
@[simp] theorem delay_rep : (delay n s).rep = s.rep := rfl
@[simp] theorem delay_bit : (delay n s).bit = s.bit := rfl
@[simp] theorem delay_ph : (delay n s).ph = s.ph := rfl
@[simp] theorem delay_dly : (delay n s).dly = s.dly := rfl
@[simp] theorem delay_guard : (delay n s).guard = s.guard := rfl
@[simp] theorem delay_fault : (delay n s).fault = s.fault := rfl
@[simp] theorem delay_oe : (delay n s).oe = s.oe := rfl
@[simp] theorem delay_level : (delay n s).level = s.level := rfl
@[simp] theorem delay_mop : (delay n s).mop = s.mop := rfl
@[simp] theorem delay_req : (delay n s).req = none := rfl
@[simp] theorem delay_time : (delay n s).time = s.time + n := rfl
@[simp] theorem delay_trace : (delay n s).trace = s.trace ++ [⟨s.time, .dly n⟩] := rfl
@[simp] theorem delay_done : (delay n s).done = s.done := rfl
@[simp] theorem delay_cmd : (delay n s).cmd = s.cmd := rfl
@[simp] theorem delay_oeLog : (delay n s).oeLog = s.oeLog := rfl
@[simp] theorem delay_ended : (delay n s).ended = s.ended := rfl
@[simp] theorem delay_launched : (delay n s).launched = s.launched := rfl
@[simp] theorem delay_cfg : (delay n s).cfg = s.cfg := rfl
@[simp] theorem delay_host : (delay n s).host = s.host := rfl

end

section
variable (d : Nat) (s : State)

@[simp] theorem setDly_rom : (setDly d s).rom = s.rom := rfl
@[simp] theorem setDly_code : (setDly d s).code = s.code := rfl
@[simp] theorem setDly_rep : (setDly d s).rep = s.rep := rfl
@[simp] theorem setDly_bit : (setDly d s).bit = s.bit := rfl
@[simp] theorem setDly_ph : (setDly d s).ph = s.ph := rfl
@[simp] theorem setDly_dly : (setDly d s).dly = some (BitVec.ofNat 32 d) := rfl
@[simp] theorem setDly_guard : (setDly d s).guard = s.guard := rfl
@[simp] theorem setDly_fault : (setDly d s).fault = s.fault := rfl
@[simp] theorem setDly_oe : (setDly d s).oe = s.oe := rfl
@[simp] theorem setDly_level : (setDly d s).level = s.level := rfl
@[simp] theorem setDly_mop : (setDly d s).mop = s.mop := rfl
@[simp] theorem setDly_req : (setDly d s).req = s.req := rfl
@[simp] theorem setDly_time : (setDly d s).time = s.time := rfl
@[simp] theorem setDly_trace : (setDly d s).trace = s.trace := rfl
@[simp] theorem setDly_done : (setDly d s).done = s.done := rfl
@[simp] theorem setDly_cmd : (setDly d s).cmd = s.cmd := rfl
@[simp] theorem setDly_oeLog : (setDly d s).oeLog = s.oeLog := rfl
@[simp] theorem setDly_ended : (setDly d s).ended = s.ended := rfl
@[simp] theorem setDly_launched : (setDly d s).launched = s.launched := rfl
@[simp] theorem setDly_cfg : (setDly d s).cfg = s.cfg := rfl
@[simp] theorem setDly_host : (setDly d s).host = s.host := rfl

end

section
variable (c : Command) (s : State)

@[simp] theorem complete_rom : (complete c s).rom = s.rom := rfl
@[simp] theorem complete_code : (complete c s).code = s.code := rfl
@[simp] theorem complete_rep : (complete c s).rep = s.rep := rfl
@[simp] theorem complete_bit : (complete c s).bit = s.bit := rfl
@[simp] theorem complete_ph : (complete c s).ph = s.ph := rfl
@[simp] theorem complete_dly : (complete c s).dly = s.dly := rfl
@[simp] theorem complete_guard : (complete c s).guard = s.guard := rfl
@[simp] theorem complete_fault : (complete c s).fault = s.fault := rfl
@[simp] theorem complete_oe : (complete c s).oe = s.oe := rfl
@[simp] theorem complete_level : (complete c s).level = s.level := rfl
@[simp] theorem complete_mop : (complete c s).mop = s.mop := rfl
@[simp] theorem complete_req : (complete c s).req = s.req := rfl
@[simp] theorem complete_time : (complete c s).time = s.time := rfl
@[simp] theorem complete_trace : (complete c s).trace = s.trace ++ [⟨s.time, .done c⟩] := rfl
@[simp] theorem complete_done : (complete c s).done = true := rfl
@[simp] theorem complete_cmd : (complete c s).cmd = s.cmd := rfl
@[simp] theorem complete_oeLog : (complete c s).oeLog = s.oeLog := rfl
@[simp] theorem complete_ended : (complete c s).ended = s.ended := rfl
@[simp] theorem complete_launched : (complete c s).launched = s.launched := rfl
@[simp] theorem complete_cfg : (complete c s).cfg = s.cfg := rfl
@[simp] theorem complete_host : (complete c s).host = s.host := rfl

end

section
variable (r : FaultReason) (s : State)

@[simp] theorem raise_rom : (raise r s).rom = s.rom := rfl
@[simp] theorem raise_code : (raise r s).code = s.code := rfl
@[simp] theorem raise_rep : (raise r s).rep = s.rep := rfl
@[simp] theorem raise_bit : (raise r s).bit = s.bit := rfl
@[simp] theorem raise_ph : (raise r s).ph = s.ph := rfl
@[simp] theorem raise_dly : (raise r s).dly = s.dly := rfl
@[simp] theorem raise_guard : (raise r s).guard = s.guard := rfl
@[simp] theorem raise_fault : (raise r s).fault = some r := rfl
@[simp] theorem raise_oe : (raise r s).oe = s.oe := rfl
@[simp] theorem raise_level : (raise r s).level = s.level := rfl
@[simp] theorem raise_mop : (raise r s).mop = s.mop := rfl
@[simp] theorem raise_req : (raise r s).req = s.req := rfl
@[simp] theorem raise_time : (raise r s).time = s.time := rfl
@[simp] theorem raise_trace : (raise r s).trace = s.trace ++ [⟨s.time, .flt r⟩] := rfl
@[simp] theorem raise_done : (raise r s).done = false := rfl
@[simp] theorem raise_cmd : (raise r s).cmd = s.cmd := rfl
@[simp] theorem raise_oeLog : (raise r s).oeLog = s.oeLog := rfl
@[simp] theorem raise_ended : (raise r s).ended = s.ended := rfl
@[simp] theorem raise_launched : (raise r s).launched = s.launched := rfl
@[simp] theorem raise_cfg : (raise r s).cfg = s.cfg := rfl
@[simp] theorem raise_host : (raise r s).host = s.host := rfl

end

end Sys2Proof.Machine
end

