-- ==== Sys2Proof/Laws/Ops.lean ====
section
/-! SUPPORT. For each shared operation, one lemma that says everything it does. -/

namespace Sys2Proof.Machine

theorem chunkArgs_lt {chunk d : Nat} (h : d < chunk) : chunkArgs chunk d = [d] := by
  simp [chunkArgs, Nat.div_eq_of_lt h, Nat.mod_eq_of_lt h]

theorem chunkArgs_ge {chunk d : Nat} (hc : 0 < chunk) (h : chunk ≤ d) :
    chunkArgs chunk d = chunk :: chunkArgs chunk (d - chunk) := by
  simp only [chunkArgs, Nat.div_eq_sub_div hc h, Nat.mod_eq_sub_mod h, List.replicate_succ,
    List.cons_append]

/-- What the delay loop does from DLY = d when each of its d / CHUNK + 1 calls is answered: TIME advances by d, the calls are
40_driver R97's, DLY is left with the remainder, no call is left open, and nothing else changes. -/
theorem delayLoop_eq (acks : Nat) : ∀ (d : Nat) (s : State), 0 < s.cfg.chunk → d / s.cfg.chunk < acks →
    s.dly = some (BitVec.ofNat 32 d) →
    delayLoop acks d s =
      { s with
        dly := some (BitVec.ofNat 32 (d % s.cfg.chunk))
        time := s.time + d
        trace := s.trace ++ delayEvents s.time (chunkArgs s.cfg.chunk d)
        req := none } := by
  induction acks with
  | zero => intro d s _ hd; exact absurd hd (Nat.not_lt_zero _)
  | succ acks ih =>
    intro d s hc hd hs
    by_cases h : s.cfg.chunk ≤ d
    · rw [delayLoop, if_pos h, ih _ _ (by simpa using hc)
        (by rw [Nat.div_eq_sub_div hc h] at hd; simpa using hd) (by simp), chunkArgs_ge hc h]
      simp only [setDly, delay, acknowledge, request, elapse, record, delayEvents, Nat.mod_eq_sub_mod h,
        List.append_assoc, List.cons_append, List.nil_append]
      congr 1
      omega
    · rw [delayLoop, if_neg h, chunkArgs_lt (by omega), Nat.mod_eq_of_lt (by omega)]
      cases s
      simp_all [delay, acknowledge, request, elapse, record, delayEvents]

/-- A call that is asked for and then answered is the call of the loop: holding a call open changes nothing
but when it ends (40_driver R102). -/
theorem resumeDelay_request (acks d : Nat) (s : State) :
    resumeDelay acks d (request (nextArg s.cfg.chunk d) s) = delayLoop (acks + 1) d s := by
  by_cases h : s.cfg.chunk ≤ d <;> simp [resumeDelay, delayLoop, nextArg, h, delay]

/-- A delay that waits in a call after `k` answered ones, and then goes on, ends as one that never waited
(40_driver R102). -/
theorem resumeDelay_delayLoop (acks k : Nat) : ∀ (d : Nat) (s : State), 0 < s.cfg.chunk →
    k * s.cfg.chunk ≤ d →
    resumeDelay acks (d - k * s.cfg.chunk) (delayLoop k d s) = delayLoop (k + 1 + acks) d s := by
  induction k with
  | zero => intro d s _ _; simpa [delayLoop, Nat.add_comm] using resumeDelay_request acks d s
  | succ k ih =>
    intro d s hc hd
    have h : s.cfg.chunk ≤ d := by rw [Nat.succ_mul] at hd; omega
    have := ih (d - s.cfg.chunk) (setDly (d - s.cfg.chunk) (delay s.cfg.chunk s)) (by simpa using hc)
      (by rw [Nat.succ_mul] at hd; simp; omega)
    rw [show k + 1 + 1 + acks = (k + 1 + acks) + 1 by omega, delayLoop, if_pos h, delayLoop, if_pos h, ← this]
    congr 1
    rw [Nat.succ_mul]
    simp
    omega

/-- What the delay loop does when the call after `acks` answered ones is not answered: the block waits in
it, DLY holding the part not yet over (10_state R29; 40_driver R102). -/
theorem delayLoop_held (acks : Nat) : ∀ (d : Nat) (s : State), 0 < s.cfg.chunk →
    acks * s.cfg.chunk ≤ d → s.dly = some (BitVec.ofNat 32 d) →
    delayLoop acks d s =
      { s with
        dly := some (BitVec.ofNat 32 (d - acks * s.cfg.chunk))
        time := s.time + acks * s.cfg.chunk
        trace := s.trace ++ delayEvents s.time
          (List.replicate acks s.cfg.chunk ++ [nextArg s.cfg.chunk (d - acks * s.cfg.chunk)])
        req := some (nextArg s.cfg.chunk (d - acks * s.cfg.chunk)) } := by
  induction acks with
  | zero =>
    intro d s _ _ hs
    cases s
    simp_all [delayLoop, request, record, delayEvents]
  | succ acks ih =>
    intro d s hc hd hs
    have h : s.cfg.chunk ≤ d := by rw [Nat.succ_mul] at hd; omega
    rw [delayLoop, if_pos h, ih _ _ (by simpa using hc) (by rw [Nat.succ_mul] at hd; simp; omega) (by simp)]
    simp only [setDly, delay, acknowledge, request, elapse, record, Nat.succ_mul, List.replicate_succ,
      List.cons_append, delayEvents, List.append_assoc, List.nil_append, Nat.sub_sub,
      Nat.add_comm s.cfg.chunk (acks * s.cfg.chunk)]
    congr 1
    omega

/-- Everything a delay may do to the state, answered to its end or not: only DLY, TIME, the trace and the
request change; the events are delay calls in order of time, none above CHUNK, none later than TIME; and a
call left open is the one DLY asks for (40_driver R96, R97, R102). -/
def DelayEffect (s t : State) : Prop :=
  ∃ (d : Time) (τ : Nat) (es : List Stamped) (q : Option Nat),
    t = { s with dly := some d, time := τ, trace := s.trace ++ es, req := q } ∧ s.time ≤ τ ∧
    (∀ e ∈ es, s.time ≤ e.time ∧ e.time ≤ τ ∧ ∃ n, e.event = .dly n ∧ n ≤ s.cfg.chunk) ∧
    List.Pairwise (fun a b => a.time ≤ b.time) es ∧
    (∀ n, q = some n → n = nextArg s.cfg.chunk d.toNat)

theorem nextArg_le (chunk d : Nat) : nextArg chunk d ≤ chunk := by
  unfold nextArg
  split <;> omega

/-- The effect of the delay loop. -/
theorem delayLoop_effect (acks : Nat) : ∀ (d : Nat) (s : State), d < 2 ^ 32 →
    s.dly = some (BitVec.ofNat 32 d) → DelayEffect s (delayLoop acks d s) := by
  induction acks with
  | zero =>
    intro d s hd hs
    refine ⟨BitVec.ofNat 32 d, s.time, [⟨s.time, .dly (nextArg s.cfg.chunk d)⟩],
      some (nextArg s.cfg.chunk d), ?_, Nat.le_refl _, ?_, by simp, ?_⟩
    · cases s; simp_all [delayLoop, request, record]
    · simp [nextArg_le]
    · have : (BitVec.ofNat 32 d).toNat = d := by simpa using Nat.mod_eq_of_lt hd
      simp [this]
  | succ acks ih =>
    intro d s hd hs
    by_cases h : s.cfg.chunk ≤ d
    · obtain ⟨d', τ, es, q, ht, h1, h2, h3, h4⟩ :=
        ih (d - s.cfg.chunk) (setDly (d - s.cfg.chunk) (delay s.cfg.chunk s)) (by omega) (by simp)
      simp only [setDly_time, delay_time, setDly_cfg, delay_cfg] at h1 h2 h4
      refine ⟨d', τ, ⟨s.time, .dly s.cfg.chunk⟩ :: es, q, ?_, by omega, ?_, ?_, h4⟩
      · rw [delayLoop, if_pos h, ht]
        simp [setDly, delay, acknowledge, request, elapse, record]
      · intro e he
        rcases List.mem_cons.1 he with rfl | he
        · exact ⟨Nat.le_refl _, by simp only; omega, _, rfl, Nat.le_refl _⟩
        · exact ⟨by have := (h2 e he).1; omega, (h2 e he).2⟩
      · exact List.pairwise_cons.2 ⟨fun e he => by have := (h2 e he).1; simp only; omega, h3⟩
    · refine ⟨BitVec.ofNat 32 d, s.time + d, [⟨s.time, .dly d⟩], none, ?_, by omega, ?_, by simp, by simp⟩
      · rw [delayLoop, if_neg h]
        cases s
        simp_all [delay, acknowledge, request, elapse, record]
      · intro e he
        obtain rfl := List.mem_singleton.1 he
        exact ⟨Nat.le_refl _, Nat.le_add_right _ _, d, rfl, by omega⟩

/-- The effect of an emission, whatever the platform answers, from its level write on (40_driver R94). -/
theorem emissionAcks_effect (acks : Nat) (e : Level) (c : DurClass) (s : State) :
    DelayEffect (pinWrite e s) (emissionAcks acks e c s) := by
  have hd : (s.rom.read c).toNat >>> s.cfg.shift < 2 ^ 32 := by
    rw [Nat.shiftRight_eq_div_pow]
    exact Nat.lt_of_le_of_lt (Nat.div_le_self _ _) (s.rom.read c).isLt
  obtain ⟨d, τ, es, q, ht, h⟩ := delayLoop_effect acks _
    (setDly ((s.rom.read c).toNat >>> s.cfg.shift) (pinWrite e s)) hd rfl
  exact ⟨d, τ, es, q, ht, h⟩

/-- An emission whose every call is answered (40_driver R94). -/
theorem emission_effect (e : Level) (c : DurClass) (s : State) :
    DelayEffect (pinWrite e s) (emission e c s) := emissionAcks_effect _ e c s

/-- The effect of a resumed delay (40_driver R102). -/
theorem resumeDelay_effect {acks n : Nat} {d : Time} {s : State} (hd : s.dly = some d)
    (hq : s.req = some n) : DelayEffect s (resumeDelay acks d.toNat s) := by
  have ha : acknowledge s = { s with time := s.time + n, req := none } := by simp [acknowledge, hq, elapse]
  unfold resumeDelay
  split
  · obtain ⟨d', τ, es, q, ht, h1, h2, h3, h4⟩ := delayLoop_effect acks (d.toNat - s.cfg.chunk)
      (setDly (d.toNat - s.cfg.chunk) (acknowledge s)) (by have := d.isLt; omega) rfl
    rw [ha] at h1 h2 h4 ht
    simp only [setDly_time, setDly_cfg] at h1 h2 h4
    refine ⟨d', τ, es, q, by rw [ha, ht]; simp [setDly], by omega, fun e he => ?_, h3, h4⟩
    exact ⟨by have := (h2 e he).1; omega, (h2 e he).2⟩
  · refine ⟨d, s.time + n, [], none, ?_, by omega, by simp, by simp, by simp⟩
    rw [ha]
    cases s
    simp_all

/-- What an emission does whose every call is answered (40_driver R94, R96, R97, R99). -/
theorem emission_eq (e : Level) (c : DurClass) (s : State) (hc : 0 < s.cfg.chunk) :
    emission e c s =
      { s with
        level := some e
        dly := some (BitVec.ofNat 32 (emissionTime s.cfg s.rom c % s.cfg.chunk))
        time := s.time + emissionTime s.cfg s.rom c
        trace := s.trace ++ emissionEvents s.cfg s.rom e c s.time
        req := none } := by
  rw [emission, scaledDelay, scaledDelayAcks,
    delayLoop_eq _ _ _ (by simpa using hc) (Nat.lt_succ_of_le (Nat.div_le_self _ _)) (by simp)]
  simp [setDly, pinWrite, record, emissionEvents, emissionTime]

/-- What a line initialisation does (40_driver R100). -/
theorem lineInitActions_eq (s : State) :
    lineInitActions s =
      { s with
        oe := true
        level := some .high
        guard := true
        oeLog := s.oeLog ++ [(s.time, true)]
        trace := s.trace ++ lineInitEvents s.time } := by
  simp [lineInitActions, pinWrite, pinConfigure, record, lineInitEvents]

/-- What CONSTRUCT's actions do (42_commands R152). -/
theorem constructActions_eq (s : State) :
    constructActions s =
      { s with
        rom := Rom.build s.cfg
        code := none
        rep := none
        bit := none
        dly := none
        ph := .idle
        oe := true
        level := some .high
        guard := s.cfg.ctorSetsGuard
        oeLog := s.oeLog ++ [(s.time, true)]
        trace := s.trace ++ lineInitEvents s.time } := by
  simp [constructActions, pinWrite, pinConfigure, record, lineInitEvents]

/-- What a reset leaves: the state of 10_state R39, with the ended launches kept (70_reset_and_hazards
R190). -/
theorem resetLaunch_eq (s : State) :
    resetLaunch s = { State.afterReset s.cfg s.host with ended := s.ended } := by
  simp [resetLaunch, constructActions_eq, State.afterReset, lineInitEvents]

/-- Under a well-formed configuration CHUNK is at least 1 (00_scope R6). -/
theorem chunk_pos {k : Config} (h : k.wellFormed = true) : 0 < k.chunk := by
  simp only [Config.wellFormed, Config.chunkOk, Bool.and_eq_true, decide_eq_true_eq] at h
  omega

/-- A configured state goes on. -/
theorem configured_eq {s : State} (h : s.cfg.wellFormed = true) (k : State → Result) :
    configured s k = k s := if_pos h

/-- Whatever runs under `configured` and answers a next state ran in a configured state. -/
theorem configured_next {s t : State} {k : State → Result} (h : configured s k = .next t) :
    s.cfg.wellFormed = true ∧ k s = .next t := by
  unfold configured at h
  split at h
  · exact ⟨‹_›, h⟩
  · cases h

/-- Everything acceptance can answer (42_commands R150). -/
theorem accept_next {w : CommandWord} {s t : State} {k : State → Result} (h : accept w s k = .next t) :
    (faultOut s = true ∧ t = s) ∨
    (faultOut s = false ∧ busy s = true ∧ t = raise (.reentrant w s.ph) s) ∨
    (faultOut s = false ∧ busy s = false ∧ k s = .next t) := by
  unfold accept at h
  split at h
  · cases h; simp_all
  · split at h
    · cases h; simp_all
    · simp_all

/-- Acceptance by an idle block without a fault. -/
theorem accept_idle {w : CommandWord} {s : State} {k : State → Result} (hf : s.fault = none)
    (hp : s.ph = .idle) : accept w s k = k s := by
  simp [accept, faultOut, busy, hf, hp]

/-- Acceptance by a busy block without a fault. -/
theorem accept_busy {w : CommandWord} {s : State} {k : State → Result} (hf : s.fault = none)
    (hp : s.ph ≠ .idle) : accept w s k = .next (raise (.reentrant w s.ph) s) := by
  simp [accept, faultOut, busy, hf, hp]

end Sys2Proof.Machine
end

