-- ==== Sys2Proof/Laws/PerInstr.lean ====
section
/-! SUPPORT. The statement made of every instruction: its word stands in its row of the opcode table
(30_encoding R75, R76). -/

namespace Sys2Proof.Laws.TableRow

/-- The instruction's word, on the port of its format, has the fixed bits of its opcode-table row. -/
def Statement (i : Instr) : Prop :=
  match i with
  | .construct => ∃ w, encode i = .c64 w ∧ w &&& 0xFFFFFFFFFFFFFFFF = 0x0000000000000003
  | .init => ∃ w, encode i = .c64 w ∧ w &&& 0xFFFFFFFFFFFFFFFF = 0x0000000000000001
  | .transmit _ _ => ∃ w, encode i = .c64 w ∧ w &&& 0x0000000000FFFFFF = 0x0000000000000002
  | .emit _ _ => ∃ w, encode i = .m4 w ∧ w &&& 0x8 = 0x0
  | .lineInit => ∃ w, encode i = .m4 w ∧ w &&& 0xF = 0x8

theorem construct : Statement .construct := ⟨_, rfl, by decide⟩

theorem init : Statement .init := ⟨_, rfl, by decide⟩

theorem transmit (code : CodeWord) (rep : RepeatCount) : Statement (.transmit code rep) := by
  refine ⟨_, rfl, ?_⟩
  apply BitVec.eq_of_getLsbD_eq
  intro i hi
  simp [assembleC64]
  interval_cases i <;> simp

theorem emit (level : Bool) (cls : DurClass) : Statement (.emit level cls) := by
  refine ⟨_, rfl, ?_⟩
  cases level <;> cases cls <;> decide

theorem lineInit : Statement .lineInit := ⟨_, rfl, by decide⟩

end Sys2Proof.Laws.TableRow
end

