-- ==== Sys2Proof/Laws/Step.lean ====
section
/-! SUPPORT. What a step can do, said once: the cases of the arbiter (60_exceptions R174), of a step of the
sequencer and the driver (41_serializer R120; 40_driver R91, R102), and of exec of a decoded word. -/

namespace Sys2Proof.Machine

/-- A live block at a step boundary, under a move that is no `rst` and no interference. -/
theorem whenLive_eq {s : State} (hl : s.launched = true) (hf : s.fault = none) (hm : s.mop = none)
    (hp : s.ph.isReserved = false) (k j : State → Result) :
    whenLive s k j = j { s with done := false } := by
  simp [whenLive, hl, faultOut, hf, hm, hp]

/-- Everything `whenLive` can answer. -/
theorem whenLive_next {s t : State} {k j : State → Result} (h : whenLive s k j = .next t) :
    ((s.launched = false ∨ s.fault ≠ none) ∧ t = s) ∨
    (s.launched = true ∧ s.fault = none ∧ s.mop ≠ none ∧ k { s with done := false } = .next t) ∨
    (s.launched = true ∧ s.fault = none ∧ s.mop = none ∧ s.ph.isReserved = true ∧
      t = raise (.badPhase s.ph) s) ∨
    (s.launched = true ∧ s.fault = none ∧ s.mop = none ∧ s.ph.isReserved = false ∧
      j { s with done := false } = .next t) := by
  unfold whenLive at h
  split at h
  · rename_i hc
    refine .inl ⟨?_, by cases h; rfl⟩
    simpa [faultOut, Option.isSome_iff_ne_none] using hc
  · rename_i hc
    have hc : s.launched = true ∧ s.fault = none := by simpa [faultOut] using hc
    split at h
    · rename_i hm
      exact .inr (.inl ⟨hc.1, hc.2, Option.isSome_iff_ne_none.1 hm, h⟩)
    · rename_i hm
      have hm : s.mop = none := by simpa using hm
      split at h
      · exact .inr (.inr (.inl ⟨hc.1, hc.2, hm, ‹_›, by cases h; rfl⟩))
      · exact .inr (.inr (.inr ⟨hc.1, hc.2, hm, Bool.eq_false_of_not_eq_true ‹_›, h⟩))

/-- Everything a step can do that answers a next state. `s0` names the state with the move taken and the
`done` pulse over. -/
inductive StepCase (s t : State) : Prop where
  /-- `rst` starts a new launch. -/
  | reset (cut : Nat) (rest : List HostMove) (hm : s.host = .rst cut :: rest)
      (ht : t = { State.afterReset s.cfg rest with
        ended := if s.launched then s.ended ++ [s.trace ++ cutEvents cut s] else s.ended })
  /-- The environment clears PIN.OE. -/
  | interfere (rest : List HostMove) (hm : s.host = .interfere :: rest)
      (ht : t = interfere { s with host := rest })
  /-- A faulted block, or one before its first reset, lets the move pass. -/
  | skip (m : HostMove) (rest : List HostMove) (hm : s.host = m :: rest) (hn : ∀ cut, m ≠ .rst cut)
      (hd : s.launched = false ∨ s.fault ≠ none) (ht : t = { s with host := rest })
  /-- A fault at the step's start: BadPhase, Reentrant or IllegalCommand. -/
  | raised (r : FaultReason) (rest : List HostMove) (hl : s.launched = true) (hf : s.fault = none)
      (hm : s.mop = none)
      (hr : (s.ph.isReserved = true ∧ r = .badPhase s.ph) ∨
        (∃ w, s.host = .command w :: rest ∧ (r = .reentrant w s.ph ∨ r = .illegalCommand w)))
      (ht : t = raise r { s with host := rest, done := false })
  /-- An idle block accepts a command. -/
  | command (w : CommandWord) (i : Instr) (rest : List HostMove) (hm : s.host = .command w :: rest)
      (hl : s.launched = true) (hf : s.fault = none) (hp : s.ph = .idle) (hb : s.mop = none)
      (hd : decodeCommand w = .instr i) (ht : exec i { s with host := rest, done := false } = .next t)
  /-- The host's wait of n units passes. -/
  | waited (n : Nat) (rest : List HostMove) (hm : s.host = .wait n :: rest) (hl : s.launched = true)
      (hf : s.fault = none) (hp : s.ph = .idle) (hb : s.mop = none)
      (ht : t = elapse n { s with host := rest, done := false })
  /-- The sequencer steps from a step boundary, the platform answering every call or `acks` of them. -/
  | boundary (acks : Option Nat) (rest : List HostMove) (hl : s.launched = true) (hf : s.fault = none)
      (hb : s.mop = none) (hp : s.ph.isReserved = false) (hm : ∀ cut more, s.host ≠ .rst cut :: more)
      (ht : (match acks with
        | none => sequencerStep { s with host := rest, done := false }
        | some k => heldStep k (issue s) { s with host := rest, done := false }) = .next t)
  /-- A block that waits for `dly_ack` does nothing else. -/
  | waiting (rest : List HostMove) (hl : s.launched = true) (hf : s.fault = none) (hb : s.mop ≠ none)
      (hq : s.req ≠ none) (hm : ∀ cut more, s.host ≠ .rst cut :: more)
      (ht : t = { s with host := rest, done := false })
  /-- The driver goes on with the micro-operation in progress. -/
  | inside (acks : Option Nat) (rest : List HostMove) (hl : s.launched = true) (hf : s.fault = none)
      (hb : s.mop ≠ none) (hm : ∀ cut more, s.host ≠ .rst cut :: more)
      (ht : insideStep acks { s with host := rest, done := false } = .next t)

/-- What waiting inside a micro-operation comes to. -/
theorem waitInside_next {s t : State} (h : waitInside s = .next t) :
    (s.req ≠ none ∧ t = s) ∨ insideStep none s = .next t := by
  unfold waitInside at h
  split at h
  · exact .inl ⟨Option.isSome_iff_ne_none.1 ‹_›, by cases h; rfl⟩
  · exact .inr h

/-- A step that answers a next state is one of these cases (60_exceptions R174), under a well-formed
configuration. -/
theorem step_cases {s t : State} (h : step s = .next t) : s.cfg.wellFormed = true ∧ StepCase s t := by
  simp only [step, arbitrate] at h
  obtain ⟨hk, h⟩ := configured_next h
  refine ⟨hk, ?_⟩
  cases hm : s.host with
  | nil =>
    have hr : ∀ cut more, s.host ≠ .rst cut :: more := by simp [hm]
    rw [hm] at h
    simp only [quietStep] at h
    split at h
    · split at h
      · cases h
      · rcases whenLive_next h with ⟨hx, -⟩ | ⟨hl, hf, hb, hq⟩ | ⟨hl, hf, hb, hp, rfl⟩ | ⟨hl, hf, hb, hp, hq⟩
        · simp_all
        · rcases waitInside_next hq with ⟨hw, rfl⟩ | hq
          · exact .waiting s.host hl hf hb hw hr rfl
          · exact .inside none s.host hl hf hb hr hq
        · exact .raised (.badPhase s.ph) s.host hl hf hb (.inl ⟨hp, rfl⟩) rfl
        · exact .boundary none s.host hl hf hb hp hr hq
    · cases h
  | cons m rest =>
    rw [hm] at h
    cases m with
    | rst cut =>
      refine .reset cut rest hm ?_
      simp only [resetLaunch_eq, endLaunch, Host.Outcome.next.injEq] at h
      exact h.symm
    | interfere => exact .interfere rest hm (by cases h; rfl)
    | command w =>
      have hr : ∀ cut more, s.host ≠ .rst cut :: more := by simp [hm]
      rcases whenLive_next h with ⟨hx, rfl⟩ | ⟨hl, hf, hb, hq⟩ | ⟨hl, hf, hb, hp, rfl⟩ | ⟨hl, hf, hb, hp, hq⟩
      · exact .skip _ rest hm (by simp) hx rfl
      · exact .inside none (.command w :: rest) hl hf hb hr hq
      · exact .raised (.badPhase s.ph) rest hl hf hb (.inl ⟨hp, rfl⟩) rfl
      · simp only [commandStep] at hq
        split at hq
        · exact .raised (.reentrant w s.ph) rest hl hf hb (.inr ⟨w, hm, .inl rfl⟩) (by cases hq; rfl)
        · rename_i hi
          simp only [acceptWord] at hq
          split at hq
          · exact .command w _ rest hm hl hf (by simpa [busy] using hi) hb ‹_› hq
          · exact .raised (.illegalCommand w) rest hl hf hb (.inr ⟨w, hm, .inr rfl⟩) (by cases hq; rfl)
    | wait n =>
      have hr : ∀ cut more, s.host ≠ .rst cut :: more := by simp [hm]
      rcases whenLive_next h with ⟨hx, rfl⟩ | ⟨hl, hf, hb, hq⟩ | ⟨hl, hf, hb, hp, rfl⟩ | ⟨hl, hf, hb, hp, hq⟩
      · exact .skip _ rest hm (by simp) hx rfl
      · exact .inside none (.wait n :: rest) hl hf hb hr hq
      · exact .raised (.badPhase s.ph) rest hl hf hb (.inl ⟨hp, rfl⟩) rfl
      · simp only [waitStep] at hq
        split at hq
        · exact .boundary none (.wait n :: rest) hl hf hb hp hr hq
        · rename_i hi
          exact .waited n rest hm hl hf (by simpa [busy] using hi) hb (by cases hq; rfl)
    | pass =>
      have hr : ∀ cut more, s.host ≠ .rst cut :: more := by simp [hm]
      rcases whenLive_next h with ⟨hx, rfl⟩ | ⟨hl, hf, hb, hq⟩ | ⟨hl, hf, hb, hp, rfl⟩ | ⟨hl, hf, hb, hp, hq⟩
      · exact .skip _ rest hm (by simp) hx rfl
      · rcases waitInside_next hq with ⟨hw, rfl⟩ | hq
        · exact .waiting rest hl hf hb hw hr rfl
        · exact .inside none rest hl hf hb hr hq
      · exact .raised (.badPhase s.ph) rest hl hf hb (.inl ⟨hp, rfl⟩) rfl
      · exact .boundary none rest hl hf hb hp hr hq
    | ack =>
      have hr : ∀ cut more, s.host ≠ .rst cut :: more := by simp [hm]
      rcases whenLive_next h with ⟨hx, rfl⟩ | ⟨hl, hf, hb, hq⟩ | ⟨hl, hf, hb, hp, rfl⟩ | ⟨hl, hf, hb, hp, hq⟩
      · exact .skip _ rest hm (by simp) hx rfl
      · exact .inside none rest hl hf hb hr hq
      · exact .raised (.badPhase s.ph) rest hl hf hb (.inl ⟨hp, rfl⟩) rfl
      · exact .boundary none rest hl hf hb hp hr hq
    | hold k =>
      have hr : ∀ cut more, s.host ≠ .rst cut :: more := by simp [hm]
      rcases whenLive_next h with ⟨hx, rfl⟩ | ⟨hl, hf, hb, hq⟩ | ⟨hl, hf, hb, hp, rfl⟩ | ⟨hl, hf, hb, hp, hq⟩
      · exact .skip _ rest hm (by simp) hx rfl
      · exact .inside (some k) rest hl hf hb hr hq
      · exact .raised (.badPhase s.ph) rest hl hf hb (.inl ⟨hp, rfl⟩) rfl
      · exact .boundary (some k) rest hl hf hb hp hr hq

/-- Everything a micro-operation that a word names can leave (40_driver R94, R100; 30_encoding R76). -/
theorem exec_decodeMicro {w : MicroWord} {i : Instr} {s t : State} (hd : decodeMicro w = .instr i)
    (h : exec i s = .next t) :
    (∃ b c, i = .emit b c ∧ t = emission (phys b) c s) ∨ (i = .lineInit ∧ t = lineInitActions s) := by
  unfold decodeMicro at hd
  split at hd
  · cases hd
    simp only [exec, execEmit] at h
    exact .inl ⟨_, _, rfl, by cases (configured_next h).2; rfl⟩
  · split at hd
    · cases hd
      simp only [exec, execLineInit] at h
      exact .inr ⟨rfl, by cases (configured_next h).2; rfl⟩
    · cases hd

/-- Everything an accepted command can leave (42_commands R152, R153, R156). -/
theorem exec_decodeCommand {w : CommandWord} {i : Instr} {s t : State} (hd : decodeCommand w = .instr i)
    (hf : s.fault = none) (hp : s.ph = .idle) (h : exec i s = .next t) :
    (i = .init ∧ t = { s with ph := .finalInit, cmd := .init }) ∨
    (∃ c r, i = .transmit c r ∧ t = { s with
      code := some c, rep := some r, ph := if s.guard then .preLong else .preInit, cmd := .transmit }) ∨
    (i = .construct ∧ t = complete .construct { constructActions s with cmd := .construct }) := by
  have hne : (∀ b c, i ≠ .emit b c) ∧ i ≠ .lineInit := by
    unfold decodeCommand at hd
    split at hd
    · cases hd
    · split at hd
      · split at hd <;> cases hd; simp
      · split at hd
        · cases hd; simp
        · split at hd
          · split at hd <;> cases hd; simp
          · cases hd
  cases i with
  | construct =>
    simp only [exec, execConstruct] at h
    obtain ⟨-, h⟩ := configured_next h
    rw [accept_idle hf hp] at h
    exact .inr (.inr ⟨rfl, by cases h; rfl⟩)
  | init =>
    simp only [exec, execInit] at h
    obtain ⟨-, h⟩ := configured_next h
    rw [accept_idle hf hp] at h
    exact .inl ⟨rfl, by cases h; rfl⟩
  | transmit c r =>
    simp only [exec, execTransmit] at h
    obtain ⟨-, h⟩ := configured_next h
    rw [accept_idle hf hp] at h
    exact .inr (.inl ⟨c, r, rfl, by cases h; rfl⟩)
  | emit b c => exact absurd rfl (hne.1 b c)
  | lineInit => exact absurd rfl hne.2

/-- The word of an EMIT decodes to it. -/
@[simp] theorem decodeMicro_emitWord (b : Bool) (c : DurClass) :
    decodeMicro (emitWord b c) = .instr (.emit b c) := by
  cases b <;> cases c <;> decide

/-- The word of LINE_INIT decodes to it. -/
@[simp] theorem decodeMicro_lineInitWord : decodeMicro lineInitWord = .instr .lineInit := by decide

/-- No other word decodes to LINE_INIT. -/
theorem eq_lineInitWord : ∀ {w : MicroWord}, decodeMicro w = .instr .lineInit → w = lineInitWord := by decide

/-- A micro-operation `x` that ran from `s`, on to its completion or to an unanswered delay call, left `u`. -/
inductive MicroRun (x : Issue) (s u : State) : Prop where
  /-- LINE_INIT ran. -/
  | line (hx : x = .word lineInitWord) (hu : u = lineInitActions s)
  /-- An emission began. -/
  | start (e : Level) (c : DurClass) (hx : x.pulse = some (e, c)) (hu : DelayEffect (pinWrite e s) u)
  /-- An emission went on. -/
  | resume (hq : s.req ≠ none) (hu : DelayEffect s u)

/-- Everything a step of the sequencer and the driver with micro-operation `x` can leave. -/
inductive RunCase (x : Issue) (s t : State) : Prop where
  /-- There is no micro-operation. -/
  | nothing (hx : x = .nothing) (ht : t = advance { s with mop := none })
  /-- A register with no value, a reserved phase or a reserved word: a fault and no micro-operation. -/
  | faulted (r : FaultReason)
      (hr : (∃ n, x = .unwritten n ∧ r = .unwritten n) ∨ (∃ p, x = .badPhase p ∧ r = .badPhase p) ∨
        (∃ w e, x = .word w ∧ decodeMicro w = .illegal e ∧ r = .badMicroOp w) ∨
        (s.req ≠ none ∧ s.dly = none ∧ r = .unwritten .dly))
      (ht : t = raise r s)
  /-- The micro-operation completed and the updates followed. -/
  | completed (u : State) (hu : MicroRun x s u)
      (hq : u.req = none ∨ (x = .word lineInitWord ∧ u = lineInitActions s))
      (ht : t = advance { u with mop := none })
  /-- The micro-operation waits in a delay call. -/
  | waits (u : State) (hx : x.pulse ≠ none ∨ s.req ≠ none) (hu : MicroRun x s u) (hq : u.req ≠ none)
      (ht : t = { u with mop := x.mop })

/-- An issued micro-operation is what the sequencer handed over. -/
@[simp] theorem Mop.issue_mop (m : Mop) : m.issue.mop = some m := by cases m <;> rfl

theorem current_of_none {s : State} (h : s.mop = none) : current s = issue s := by simp [current, h]

theorem current_of_some {s : State} {m : Mop} (h : s.mop = some m) : current s = m.issue := by
  simp [current, h]

/-- A micro-operation whose every call is answered. -/
theorem runIssue_cases {x : Issue} {s t : State} (hk : s.cfg.wellFormed = true)
    (hf : s.fault = none)
    (h : thenAdvance (runIssue x s) = .next t) : RunCase x s t := by
  have fin : ∀ {u : State}, u.fault = none → thenAdvance (.next u) = .next t →
      t = advance { u with mop := none } := by
    intro u hu h
    simpa [thenAdvance, faultOut, hu, eq_comm] using h
  have flt : ∀ r, thenAdvance (.next (raise r s)) = .next t → t = raise r s := by
    intro r h
    simpa [thenAdvance, faultOut, eq_comm] using h
  have pulse : ∀ e c, x.pulse = some (e, c) → thenAdvance (.next (emission e c s)) = .next t →
      RunCase x s t := by
    intro e c hx h
    have hu := emission_effect e c s
    have hq : (emission e c s).fault = none ∧ (emission e c s).req = none := by
      rw [emission_eq _ _ _ (chunk_pos hk)]
      exact ⟨hf, rfl⟩
    exact .completed _ (.start e c hx hu) (.inl hq.2) (fin hq.1 h)
  cases x with
  | nothing => exact .nothing rfl (fin hf h)
  | word w =>
    simp only [runIssue, runWord] at h
    cases hd : decodeMicro w with
    | illegal e =>
      rw [hd] at h
      exact .faulted _ (.inr (.inr (.inl ⟨w, e, rfl, hd, rfl⟩))) (flt _ h)
    | instr i =>
      rw [hd] at h
      cases he : exec i s with
      | next u =>
        simp only [he] at h
        rcases exec_decodeMicro hd he with ⟨b, c, rfl, rfl⟩ | ⟨rfl, rfl⟩
        · exact pulse _ _ (by simp [Issue.pulse, hd, Decoded.toOption, pulseOf]) h
        · exact .completed _ (.line (by rw [eq_lineInitWord hd]) rfl)
            (.inr ⟨by rw [eq_lineInitWord hd], rfl⟩) (fin hf h)
      | fault r => simp only [he] at h; cases h
      | refused r => simp only [he] at h; cases h
  | literalTrailZero => exact pulse _ _ rfl h
  | unwritten n => exact .faulted _ (.inl ⟨n, rfl, rfl⟩) (flt _ h)
  | badPhase p => exact .faulted _ (.inr (.inl ⟨p, rfl, rfl⟩)) (flt _ h)

/-- What an emission leaves settles to: the updates, or a wait. -/
theorem settle_cases {x : Issue} {s u : State} {m : Option Mop} (hm : m = x.mop)
    (hx : x.pulse ≠ none ∨ s.req ≠ none) (hu : MicroRun x s u) : RunCase x s (settle m u) := by
  subst hm
  unfold settle
  split
  · exact .waits u hx hu (Option.isSome_iff_ne_none.1 ‹_›) rfl
  · exact .completed u hu (.inl (by simpa using ‹¬u.req.isSome = true›)) rfl

/-- A step that starts a micro-operation while the platform answers some of its calls. -/
theorem heldStep_cases {acks : Nat} {x : Issue} {s t : State} (hk : s.cfg.wellFormed = true)
    (hf : s.fault = none)
    (h : heldStep acks x s = .next t) : RunCase x s t := by
  unfold heldStep at h
  split at h
  · rename_i e c hx
    cases h
    exact settle_cases rfl (.inl (by simp [hx])) (.start e c hx (emissionAcks_effect acks e c s))
  · exact runIssue_cases hk hf h

/-- A step from a step boundary (41_serializer R120). -/
theorem sequencerStep_cases {s t : State} (hk : s.cfg.wellFormed = true) (hf : s.fault = none)
    (h : sequencerStep s = .next t) :
    RunCase (issue s) s t := runIssue_cases hk hf h

/-- A step inside a micro-operation (40_driver R91, R102). -/
theorem insideStep_cases {acks : Option Nat} {s t : State} (hk : s.cfg.wellFormed = true)
    (hf : s.fault = none) (hb : s.mop ≠ none)
    (h : insideStep acks s = .next t) : RunCase (current s) s t := by
  obtain ⟨m, hm⟩ := Option.ne_none_iff_exists'.1 hb
  have hx : s.mop = (current s).mop := by rw [current_of_some hm, Mop.issue_mop, hm]
  unfold insideStep at h
  split at h
  · rename_i hq
    obtain ⟨n, hn⟩ := Option.isSome_iff_exists.1 hq
    have hq : s.req ≠ none := by simp [hn]
    simp only [resumeStep, Host.Outcome.next.injEq] at h
    subst h
    cases hd : s.dly with
    | none => exact .faulted _ (.inr (.inr (.inr ⟨hq, hd, rfl⟩))) rfl
    | some d => exact settle_cases hx (.inr hq) (.resume hq (resumeDelay_effect hd hn))
  · split at h
    · exact heldStep_cases hk hf h
    · exact runIssue_cases hk hf h

end Sys2Proof.Machine
end

