-- ==== Sys2Proof/Laws/Waveform.lean ====
section
/-! SUPPORT. The level writes and the delay arguments of a trace that grows, the times at which the line
may change, and the normalized waveform of an appended mark (20_memory R57). -/

namespace Sys2Proof.Machine

/-- The level writes of two traces in a row. -/
theorem setsOf_append (a b : List Stamped) : setsOf (a ++ b) = setsOf a ++ setsOf b := by
  induction a with
  | nil => rfl
  | cons x a ih => obtain ⟨t, e⟩ := x; cases e <;> simp [setsOf, ih]

/-- The delay arguments of two traces in a row. -/
theorem delaysOf_append (a b : List Stamped) : delaysOf (a ++ b) = delaysOf a ++ delaysOf b := by
  induction a with
  | nil => rfl
  | cons x a ih => obtain ⟨t, e⟩ := x; cases e <;> simp [delaysOf, ih]

/-- Delay calls write no level. -/
@[simp] theorem setsOf_delayEvents (l : List Nat) : ∀ t, setsOf (delayEvents t l) = [] := by
  induction l with
  | nil => intro t; rfl
  | cons n l ih => intro t; simp [delayEvents, setsOf, ih]

/-- The delay arguments of the events of a list of delay calls are that list. -/
@[simp] theorem delaysOf_delayEvents (l : List Nat) : ∀ t, delaysOf (delayEvents t l) = l := by
  induction l with
  | nil => intro t; rfl
  | cons n l ih => intro t; simp [delayEvents, delaysOf, ih]

/-- The marks of two traces in a row: a fault in the first ends them (log 26). -/
theorem marksOf_append (a b : List Stamped) (h : noFlt a = true) : marksOf (a ++ b) = marksOf a ++ marksOf b := by
  induction a with
  | nil => rfl
  | cons x a ih => obtain ⟨t, e⟩ := x; cases e <;> simp_all [marksOf, noFlt]

/-- After a fault nothing marks the line (log 26). -/
theorem marksOf_append_of_flt (a b : List Stamped) (h : noFlt a = false) : marksOf (a ++ b) = marksOf a := by
  induction a with
  | nil => simp [noFlt] at h
  | cons x a ih => obtain ⟨t, e⟩ := x; cases e <;> simp_all [marksOf, noFlt]

/-- Without a fault the marks are the level writes. -/
theorem marksOf_eq_setsOf (a : List Stamped) (h : noFlt a = true) :
    marksOf a = (setsOf a).map fun p => (p.1, some p.2) := by
  induction a with
  | nil => rfl
  | cons x a ih => obtain ⟨t, e⟩ := x; cases e <;> simp_all [marksOf, setsOf, noFlt]

/-- Two traces in a row record no fault exactly where neither does. -/
theorem noFlt_append (a b : List Stamped) : noFlt (a ++ b) = (noFlt a && noFlt b) := by
  induction a with
  | nil => rfl
  | cons x a ih => obtain ⟨t, e⟩ := x; cases e <;> simp [noFlt, ih]

/-- Delay calls mark nothing. -/
@[simp] theorem marksOf_delayEvents (l : List Nat) : ∀ t, marksOf (delayEvents t l) = [] := by
  induction l with
  | nil => intro t; rfl
  | cons n l ih => intro t; simp [delayEvents, marksOf, ih]

/-- The events of delay calls stand between the first call's start and the last call's end. -/
theorem delayEvents_times (l : List Nat) :
    ∀ t, ∀ e ∈ delayEvents t l, t ≤ e.time ∧ e.time ≤ t + l.sum := by
  induction l with
  | nil => simp [delayEvents]
  | cons n l ih =>
    intro t e he
    simp only [delayEvents, List.mem_cons] at he
    rcases he with rfl | he
    · simp
    · have := ih _ e he
      simp only [List.sum_cons]
      omega

/-- The delay calls of a shifted duration sum to it (40_driver R97). -/
theorem chunkArgs_sum (chunk d : Nat) : (chunkArgs chunk d).sum = d := by
  simp only [chunkArgs, List.sum_append, List.sum_replicate, smul_eq_mul, List.sum_singleton]
  rw [Nat.mul_comm]
  exact Nat.div_add_mod _ _

/-- A level that is the last one already adds no segment. -/
theorem waveOf_snoc_same (l : List (Nat × Option Level)) (t : Nat) (e : Option Level)
    (h : (l.getLast?).map Prod.snd = some e) : waveOf (l ++ [(t, e)]) = waveOf l := by
  induction l with
  | nil => simp at h
  | cons a l ih =>
    obtain ⟨t0, e0⟩ := a
    cases l with
    | nil => simp at h; subst h; simp [waveOf, Wave.push]
    | cons b l =>
      obtain ⟨t1, e1⟩ := b
      simp only [List.cons_append, waveOf] at ih ⊢
      rw [ih (by simpa using h)]

/-- A time not earlier than any in the list goes to its end. -/
theorem insertTime_of_le {t : Nat} {l : List Nat} (h : ∀ a ∈ l, a ≤ t) : insertTime t l = l ++ [t] := by
  induction l with
  | nil => rfl
  | cons a l ih =>
    rw [insertTime, if_pos (h a (by simp)), ih fun b hb => h b (by simp [hb])]
    rfl

/-- The times of a list with one more put into it. -/
@[simp] theorem mem_insertTime {t a : Nat} {l : List Nat} : a ∈ insertTime t l ↔ a = t ∨ a ∈ l := by
  induction l with
  | nil => simp [insertTime]
  | cons b l ih =>
    unfold insertTime
    split
    · simp only [List.mem_cons, ih]
      exact or_left_comm
    · simp

/-- Putting a time into a list in order keeps the order. -/
theorem insertTime_sorted {t : Nat} {l : List Nat} (h : List.Pairwise (· ≤ ·) l) :
    List.Pairwise (· ≤ ·) (insertTime t l) := by
  induction l with
  | nil => simp [insertTime]
  | cons b l ih =>
    obtain ⟨hb, hl⟩ := List.pairwise_cons.1 h
    unfold insertTime
    split
    · refine List.pairwise_cons.2 ⟨fun x hx => ?_, ih hl⟩
      rcases mem_insertTime.1 hx with rfl | hx
      · assumption
      · exact hb x hx
    · refine List.pairwise_cons.2 ⟨fun x hx => ?_, h⟩
      rcases List.mem_cons.1 hx with rfl | hx
      · omega
      · have := hb x hx
        omega

/-- A time goes before a last one that is not earlier. -/
theorem insertTime_snoc {t p : Nat} {l : List Nat} (h : ∀ a ∈ l, a ≤ t) (hp : p ≤ t) :
    insertTime p (l ++ [t]) = insertTime p l ++ [t] := by
  induction l with
  | nil =>
    by_cases e : t ≤ p
    · obtain rfl : t = p := by omega
      simp [insertTime]
    · simp [insertTime, e]
  | cons a l ih =>
    simp only [List.cons_append, insertTime]
    split
    · rw [ih fun b hb => h b (by simp [hb])]
      rfl
    · rfl

/-- A change of PIN.OE adds its time. -/
theorem changeTimes_snoc_oe (tr : List Stamped) (oe : List (Nat × Bool)) (t : Nat) (b : Bool) :
    changeTimes tr (oe ++ [(t, b)]) = insertTime t (changeTimes tr oe) := by
  simp [changeTimes]

/-- The times at which the line may change are those of the marks and of PIN.OE's changes. -/
theorem mem_changeTimes {tr : List Stamped} {oe : List (Nat × Bool)} {t : Nat} :
    t ∈ changeTimes tr oe ↔ t ∈ (marksOf tr).map Prod.fst ∨ t ∈ oe.map Prod.fst := by
  have key : ∀ (oe : List (Nat × Bool)) (l : List Nat),
      t ∈ oe.foldl (fun l p => insertTime p.1 l) l ↔ t ∈ l ∨ t ∈ oe.map Prod.fst := by
    intro oe
    induction oe with
    | nil => simp
    | cons p oe ih => intro l; simp only [List.foldl_cons, ih, mem_insertTime, List.map_cons, List.mem_cons]; tauto
  exact key oe _

/-- They stand in order where the trace does. -/
theorem changeTimes_sorted {tr : List Stamped} (oe : List (Nat × Bool))
    (h : List.Pairwise (· ≤ ·) ((marksOf tr).map Prod.fst)) : List.Pairwise (· ≤ ·) (changeTimes tr oe) := by
  have key : ∀ (oe : List (Nat × Bool)) (l : List Nat), List.Pairwise (· ≤ ·) l →
      List.Pairwise (· ≤ ·) (oe.foldl (fun l p => insertTime p.1 l) l) := by
    intro oe
    induction oe with
    | nil => simp
    | cons p oe ih => intro l hl; exact ih _ (insertTime_sorted hl)
  exact key oe _ h

/-- Every mark has the time of an event. -/
theorem exists_of_mem_marksOf {x : Nat} {tr : List Stamped} (h : x ∈ (marksOf tr).map Prod.fst) :
    ∃ e ∈ tr, e.time = x := by
  induction tr with
  | nil => simp [marksOf] at h
  | cons a l ih =>
    obtain ⟨t, e⟩ := a
    have later : x ∈ (marksOf l).map Prod.fst → ∃ e' ∈ (⟨t, e⟩ : Stamped) :: l, e'.time = x := fun h => by
      obtain ⟨y, hy, hx⟩ := ih h
      exact ⟨y, by simp [hy], hx⟩
    cases e with
    | set e => exact (List.mem_cons.1 h).elim (fun h => ⟨⟨t, .set e⟩, List.mem_cons_self, h.symm⟩) later
    | flt r => exact ⟨⟨t, .flt r⟩, List.mem_cons_self, (List.mem_singleton.1 h).symm⟩
    | cfg => exact later h
    | dly n => exact later h
    | done c => exact later h

/-- The marks of a trace in order are in order. -/
theorem marksOf_sorted {tr : List Stamped} (h : List.Pairwise (fun a b => a.time ≤ b.time) tr) :
    List.Pairwise (· ≤ ·) ((marksOf tr).map Prod.fst) := by
  induction tr with
  | nil => simp [marksOf]
  | cons a l ih =>
    obtain ⟨t, e⟩ := a
    obtain ⟨ha, hl⟩ := List.pairwise_cons.1 h
    cases e with
    | set e =>
      refine List.pairwise_cons.2 ⟨fun x hx => ?_, ih hl⟩
      obtain ⟨y, hy, rfl⟩ := exists_of_mem_marksOf hx
      exact ha y hy
    | flt r => simp [marksOf]
    | cfg => exact ih hl
    | dly n => exact ih hl
    | done c => exact ih hl

/-- The value last stamped is the one at its time and after it. -/
theorem lastAt_snoc {α : Type} (l : List (Nat × α)) (t τ : Nat) (x : α) :
    lastAt τ (l ++ [(t, x)]) = if t ≤ τ then some x else lastAt τ l := by
  unfold lastAt
  split <;> simp [List.filter_append, *]

/-- At a time not earlier than any stamp the value is the last one. -/
theorem lastAt_of_le {α : Type} {l : List (Nat × α)} {τ : Nat} (h : ∀ p ∈ l, p.1 ≤ τ) :
    lastAt τ l = (l.getLast?).map Prod.snd := by
  rw [lastAt, List.filter_eq_self.2 (by simpa using h)]

end Sys2Proof.Machine
end

