-- ==== Sys2Proof/Tests/Slice0.lean ====
section
/-! SUPPORT. The model's own tests. Expected results are the vectors of 95_test_vectors, named in each
comment, or words written out from 30_encoding. Then, for every statement with hypotheses, a witness that
meets them. -/

namespace Sys2Proof.Machine.Tests

/-! ## Helpers -/

/-- The default configuration with the platform's OPEN parameters given some value. -/
def k0 : Config :=
  { baseUnit := 114, mZero := 0, mTick := 10, mSep := 48, mLong := 500, shift := 0, chunk := 10000,
    delayMax := 20000, delayErr := 1, pinId := 7, ctorSetsGuard := false, trailZero := .law,
    pinCfgLevel := .low }

/-- After reset, with moves to come. -/
def start (moves : List HostMove) : State := State.afterReset k0 moves

/-- In a phase of a transmit of 0x80000001. -/
def at' (p : Phase) (r : RepeatCount) (b : BitIndex) (moves : List HostMove) : State :=
  { start moves with ph := p, code := some 0x80000001, rep := some r, bit := some b, cmd := .transmit }

/-- In the second delay call of PRE_LONG's emission, which is not answered yet. -/
def waiting (moves : List HostMove) : State :=
  { at' .preLong 1 0 moves with
    level := some .low, dly := some 47000, mop := some (.word 7), req := some 10000, time := 10000 }

/-- Faulted. -/
def faulted (moves : List HostMove) : State := { start moves with fault := some (.illegalCommand 4) }

/-- What an outcome's state shows, through a view of it. -/
def see {α : Type} (f : State → α) : Result → Option α
  | .next s => some (f s)
  | .fault _ => none
  | .refused _ => none

/-! ## Well-formed configurations: one ill-formed term for each check -/

/-- V-ROM-1, V-ROM-4. -/
theorem test_config_accepted :
    k0.wellFormed = true ∧ Config.standard.wellFormed = true ∧ { k0 with baseUnit := 8589934 }.wellFormed = true := by
  decide

/-- Such a state is live. -/
theorem live_start (moves : List HostMove) : Live (start moves) := ⟨test_config_accepted.1, rfl, rfl, rfl, rfl⟩

/-- The trace and the pin are in their invariant. -/
theorem traceInv_start (moves : List HostMove) : TraceInv (start moves) := by
  constructor <;> simp [start, State.afterReset, delaysOf, noFlt, setsOf]

/-- Such a state is live. -/
theorem live_at (p : Phase) (r : RepeatCount) (b : BitIndex) (moves : List HostMove) :
    Live (at' p r b moves) := ⟨test_config_accepted.1, rfl, rfl, rfl, rfl⟩

/-- V-ROM-3. -/
theorem test_config_base_unit_zero : { k0 with baseUnit := 0 }.wellFormed = false := by decide

/-- V-ROM-6, V-ROM-7, and M_SEP = M_LONG. -/
theorem test_config_multipliers :
    { k0 with mTick := 48 }.wellFormed = false ∧ { k0 with mZero := 1 }.wellFormed = false ∧
    { k0 with mSep := 500 }.wellFormed = false := by decide

/-- V-ROM-5. -/
theorem test_config_rom_overflow : { k0 with baseUnit := 8589935 }.wellFormed = false := by decide

/-- V-ROM-9. -/
theorem test_config_shift : { k0 with shift := 32 }.wellFormed = false := by decide

/-- V-ROM-8, and CHUNK above DELAY_MAX (00_scope R6). -/
theorem test_config_chunk :
    { k0 with chunk := 0 }.wellFormed = false ∧ { k0 with chunk := 20001 }.wellFormed = false := by decide

/-- 00_scope R6: DELAY_MAX >= 1. -/
theorem test_config_delay_max : { k0 with delayMax := 0 }.delayMaxOk = false := by decide

/-- V-ROM-1, V-ROM-2, V-ROM-4. -/
theorem test_rom_values :
    Rom.build k0 = ⟨0, 1140, 5472, 57000⟩ ∧ Rom.build { k0 with baseUnit := 1 } = ⟨0, 10, 48, 500⟩ ∧
    (Rom.build { k0 with baseUnit := 8589934 }).long = 4294967000 := by decide

/-! ## Decoding words written out from 30_encoding -/

/-- V-DEC-1, V-DEC-2. -/
theorem test_decode_init_construct :
    decodeCommand 0x0000000000000001 = .instr .init ∧
    decodeCommand 0x0000000000000003 = .instr .construct := by decide

/-- V-DEC-4, V-DEC-6, V-DEC-7, V-DEC-8. -/
theorem test_decode_transmit :
    decodeCommand 0x0000000001000002 = .instr (.transmit 0 1) ∧
    decodeCommand 0x1234567808000002 = .instr (.transmit 0x12345678 8) ∧
    decodeCommand 0xFFFFFFFFFF000002 = .instr (.transmit 0xFFFFFFFF 255) ∧
    decodeCommand 0x8000000101000002 = .instr (.transmit 0x80000001 1) := by decide

/-- The 64 bits of TRANSMIT 0xA0000005, 0x81 by field: CODE, REPEAT, RSV, OP (30_encoding R72). -/
theorem test_decode_transmit_bits :
    decodeCommand 0b1010000000000000000000000000010110000001000000000000000000000010
      = .instr (.transmit 0xA0000005 0x81) := by decide

/-- V-DEC-9 to V-DEC-13. -/
theorem test_decode_illegal :
    decodeCommand 0x0000000000000000 = .illegal .reservedOp ∧
    decodeCommand 0x0000000000000004 = .illegal .reservedOp ∧
    decodeCommand 0x00000000000000FF = .illegal .reservedOp ∧
    decodeCommand 0x0000000000000102 = .illegal .reservedField ∧
    decodeCommand 0x0000000000800002 = .illegal .reservedField := by decide

/-- V-DEC-14 to V-DEC-16. -/
theorem test_decode_operand_set :
    decodeCommand 0x0000000100000001 = .illegal .operandSet ∧
    decodeCommand 0x0000000001000001 = .illegal .operandSet ∧
    decodeCommand 0x8000000000000003 = .illegal .operandSet := by decide

/-- V-EM-0 to V-EM-7: all eight EMIT words, `0LCC`. -/
theorem test_decode_emit :
    decodeMicro 0b0000 = .instr (.emit false .zero) ∧ decodeMicro 0b0001 = .instr (.emit false .tick) ∧
    decodeMicro 0b0010 = .instr (.emit false .sep) ∧ decodeMicro 0b0011 = .instr (.emit false .long) ∧
    decodeMicro 0b0100 = .instr (.emit true .zero) ∧ decodeMicro 0b0101 = .instr (.emit true .tick) ∧
    decodeMicro 0b0110 = .instr (.emit true .sep) ∧ decodeMicro 0b0111 = .instr (.emit true .long) := by
  decide

/-- V-LI-1 and V-MU-1: 0x8, and the reserved words 0x9 to 0xF. -/
theorem test_decode_line_init_and_reserved :
    decodeMicro 0b1000 = .instr .lineInit ∧
    ∀ w : MicroWord, 9 ≤ w.toNat → decodeMicro w = .illegal .reservedMicroOp := by decide

/-- The opcode table's rows, each as the host lays it out. -/
theorem test_table_words :
    decodeTableWord 64 1 = some .init ∧ decodeTableWord 64 2 = some (.transmit 0 0) ∧
    decodeTableWord 24 2 = some (.transmit 0 0) ∧ decodeTableWord 64 3 = some .construct ∧
    decodeTableWord 8 0 = some (.emit false .zero) ∧ decodeTableWord 8 8 = some .lineInit := by decide

/-- A table word placed at reset is what the next step runs (42_commands R153, R156; 40_driver R100). -/
theorem test_placed_words_run :
    see State.ph (step (State.reset.withFetchWord 64 1)) = some .finalInit ∧
    see State.ph (step (State.reset.withFetchWord 24 2)) = some .preInit ∧
    see State.guard (step (State.reset.withFetchWord 8 8)) = some true ∧
    see State.time (step (State.reset.withFetchWord 8 2)) = some 5472 := by
  refine ⟨rfl, rfl, rfl, by decide⟩

/-! ## One instruction -/

/-- V-EM-7: EMIT 1, LONG at TIME 0. -/
theorem test_emit_long :
    see (fun t => (t.level, t.time, delaysOf t.trace)) (exec (.emit true .long) (start []))
      = some (some .low, 57000, [10000, 10000, 10000, 10000, 10000, 7000]) := by decide

/-- V-SH-2 and V-DLY-6: the shift, and a duration of exactly one chunk. -/
theorem test_emit_shift_and_full_chunk :
    see (fun t => delaysOf t.trace) (exec (.emit false .tick) (State.afterReset { k0 with shift := 3 } []))
      = some [142] ∧
    see (fun t => delaysOf t.trace) (exec (.emit false .tick) (State.afterReset { k0 with chunk := 1140 } []))
      = some [1140, 0] := by decide

/-- V-LI-2: LINE_INIT after interference. -/
theorem test_line_init :
    see (fun t => (t.oe, t.level, t.guard, t.time)) (exec .lineInit { start [] with oe := false, level := some .low })
      = some (true, some .high, true, 0) := by decide

/-- V-CMD-1. -/
theorem test_construct :
    see (fun t => (t.code, t.guard, t.ph, t.trace.drop 2))
      (exec .construct { start [] with code := some 5, guard := true })
      = some (none, false, .idle, [⟨0, .cfg⟩, ⟨0, .set .high⟩, ⟨0, .done .construct⟩]) := by decide

/-- V-CMD-2: acceptance, and the step after it. -/
theorem test_init :
    see State.ph (exec .init (start [])) = some .finalInit ∧
    see (fun t => (t.ph, t.guard, t.done, t.trace.drop 2)) (step { start [] with ph := .finalInit, cmd := .init })
      = some (.idle, true, true, [⟨0, .cfg⟩, ⟨0, .set .high⟩, ⟨0, .done .init⟩]) := by decide

/-- V-CMD-3, V-CMD-4. -/
theorem test_transmit :
    see (fun t => (t.code, t.rep, t.ph)) (exec (.transmit 0x80000001 3) (start []))
      = some (some 0x80000001, some 3, .preInit) ∧
    see State.ph (exec (.transmit 0x80000001 3) { start [] with guard := true }) = some .preLong := by decide

/-! ## One sequencer step -/

/-- V-SQ-2, V-SQ-3. -/
theorem test_pre_sep :
    see State.ph (step (at' .preSep 0 0 [])) = some .postIdle ∧
    see State.ph (step (at' .preSep 3 0 [])) = some .leadIdle := by decide

/-- V-SQ-4 to V-SQ-7. -/
theorem test_data_bits :
    see (fun t => (t.bit, t.ph)) (step (at' .leadActive 1 5 [])) = some (some 31, .dataFirst) ∧
    see (fun t => (t.level, t.ph)) (step (at' .dataFirst 1 31 [])) = some (some .low, .dataSecond) ∧
    see (fun t => (t.level, t.bit, t.ph)) (step (at' .dataSecond 1 31 [])) = some (some .high, some 30, .dataFirst) ∧
    see (fun t => (t.level, t.bit, t.ph)) (step (at' .dataSecond 1 0 [])) = some (some .high, some 0, .trailSep) := by
  decide

/-- V-SQ-8, V-SQ-9. -/
theorem test_trail_zero :
    see (fun t => (t.rep, t.ph)) (step (at' .trailZero 2 0 [])) = some (some 1, .leadIdle) ∧
    see (fun t => (t.rep, t.ph)) (step (at' .trailZero 1 0 [])) = some (some 0, .postIdle) := by decide

/-- V-SQ-13: the literal reading drives LOW. -/
theorem test_trail_zero_literal :
    see (fun t => (t.level, t.rep, t.ph))
      (step { at' .trailZero 1 0 [] with cfg := { k0 with trailZero := .literal4c } })
      = some (some .low, some 0, .postIdle) := by decide

/-- V-SQ-12, V-CMD-5, V-CMD-6, V-CMD-7. -/
theorem test_faults :
    see State.fault (step { start [] with ph := .reservedE }) = some (some (.badPhase .reservedE)) ∧
    see State.fault (step (at' .preSep 1 0 [.command 1])) = some (some (.reentrant 1 .preSep)) ∧
    see State.fault (step (start [.command 4])) = some (some (.illegalCommand 4)) ∧
    see id (step (faulted [.command 1])) = some (faulted []) := by decide

/-- V-CMD-9: `rst` inside the delays of EMIT 1, LONG, after three of its events. -/
theorem test_rst_inside_a_delay :
    see (fun t => (t.ph, t.trace, t.ended)) (step (at' .preLong 1 0 [.rst 3]))
      = some (.idle, [⟨0, .cfg⟩, ⟨0, .set .high⟩],
        [[⟨0, .cfg⟩, ⟨0, .set .high⟩, ⟨0, .set .low⟩, ⟨0, .dly 10000⟩, ⟨10000, .dly 10000⟩]]) := by decide

/-- 40_driver R102: EMIT 1, LONG with one call answered waits in the second, and ends as it would have. -/
theorem test_hold_and_ack :
    see (fun t => (t.req, t.time, t.dly, t.ph)) (step (at' .preLong 1 0 [.hold 1, .pass, .ack]))
      = some (some 10000, 10000, some 47000, .preLong) ∧
    see (fun t => (t.req, t.time, delaysOf t.trace, t.ph)) (runSteps 3 (at' .preLong 1 0 [.hold 1, .pass, .ack]))
      = some (none, 57000, [10000, 10000, 10000, 10000, 10000, 7000], .preTick) := by decide

/-- 42_commands R150: a command presented inside a micro-operation waits for its end and is then Reentrant. -/
theorem test_command_inside_a_delay :
    see (fun t => (t.fault, t.ph, t.time)) (step (waiting [.command 1])) = some (none, .preTick, 57000) ∧
    see (fun t => (t.fault, t.ph)) (runSteps 2 (waiting [.command 1]))
      = some (some (.reentrant 1 .preTick), .preTick) := by decide

/-- 60_exceptions R170, 93 I17: after a fault the line has no stated level. -/
theorem test_line_after_a_fault :
    see (fun t => (lineAt t 0, (observation t).2.tail)) (step (start [.command 4])) = some (none, none) ∧
    (observation (start [])).2.tail = some .high := by decide

/-- 60_exceptions R183: interference 5 units after reset, and INIT 3 units later, leave a gap in the waveform. -/
theorem test_waveform_after_interference :
    see (fun t => (observation t).2.tail) (runSteps 2 (start [.wait 5, .interfere])) = some none ∧
    see (fun t => (observation t).2) (runSteps 5 (start [.wait 5, .interfere, .wait 3, .command 1]))
      = some { segments := [(some .high, 5), (none, 3)], tail := some .high } := by decide

/-- 30_encoding R84, R85: the repeat count defaults to 8, and SEND is TRANSMIT and WAIT. -/
theorem test_parse_transmit :
    parseLine ['T', 'R', 'A', 'N', 'S', 'M', 'I', 'T', ' ', '0', 'x', '1', '_', 'F', ';', 'c']
      = .line (.transmitDefault 31) ∧
    assemble (.transmitDefault 31) = some [.command 0x0000001F08000002] ∧
    assemble (.send 31 256) = none := by decide

/-- 30_encoding R86. -/
theorem test_parse_micro_op :
    parseMicroOp ['E', 'M', 'I', 'T', ' ', 'a', 'c', 't', 'i', 'v', 'e', ',', 'S', 'E', 'P'] = some (.emit true .sep) ∧
    parseMicroOp kwForceIdle = some .lineInit := by decide

/-! ## Witnesses: what meets the hypotheses of each statement -/

theorem witness_encodeThenDecode : (Instr.transmit 0xFFFFFFFF 255).wellFormed = true := rfl

theorem witness_decodedWord :
    decode (.c64 0xFFFFFFFFFF000002) = .instr (.transmit 0xFFFFFFFF 255) ∧ decode (.m4 8) = .instr .lineInit := by
  decide

/-- A word of no row, one step off each row. -/
theorem witness_commandsMatchNoRow :
    ((0x0000000001000001 : CommandWord) &&& 0xFFFFFFFFFFFFFFFF ≠ 0x0000000000000001 ∧
      (0x0000000001000001 : CommandWord) &&& 0x0000000000FFFFFF ≠ 0x0000000000000002 ∧
      (0x0000000001000001 : CommandWord) &&& 0xFFFFFFFFFFFFFFFF ≠ 0x0000000000000003) ∧
    ((0x102 : CommandWord) &&& 0xFFFFFFFFFFFFFFFF ≠ 0x0000000000000001 ∧
      (0x102 : CommandWord) &&& 0x0000000000FFFFFF ≠ 0x0000000000000002 ∧
      (0x102 : CommandWord) &&& 0xFFFFFFFFFFFFFFFF ≠ 0x0000000000000003) := by decide

theorem witness_transmitBits : decodeCommand 0x80000001FF000002 = .instr (.transmit 0x80000001 255) := by decide

theorem witness_stepRuns :
    (Live (start [.command 3]) ∧ (start [.command 3]).ph = .idle ∧ decodeCommand 3 = .instr .construct) ∧
    (∀ moves ∈ [[], [HostMove.pass]],
      ({ start moves with mop := some (.word 2) }.cfg.wellFormed = true ∧
        { start moves with mop := some (.word 2) }.launched = true) ∧ decodeMicro 2 = .instr (.emit false .sep)) ∧
    (Live (at' .preInit 1 0 [.pass]) ∧ issue (at' .preInit 1 0 [.pass]) = .word 8 ∧
      decodeMicro 8 = .instr .lineInit) :=
  ⟨⟨live_start _, rfl, by decide⟩, fun _ _ => ⟨⟨test_config_accepted.1, rfl⟩, by decide⟩,
    live_at .., by decide, by decide⟩

/-- V-ROM-4: the largest base unit. -/
theorem witness_wellFormed : { k0 with baseUnit := 8589934 }.wellFormed = true := by decide

theorem witness_illFormed :
    { k0 with chunk := 0 }.wellFormed = false ∧
    (State.afterReset { k0 with chunk := 0 } []).cfg.wellFormed = false := by decide

theorem witness_rst : (faulted [.rst 0, .pass]).cfg.wellFormed = true ∧
    (faulted [.rst 0, .pass]).host = .rst 0 :: [.pass] := ⟨test_config_accepted.1, rfl⟩

/-- EMIT answers a next state under this configuration. -/
theorem emit_completes (b : Bool) (c : DurClass) (s : State) (h : s.cfg = k0) :
    exec (.emit b c) s = .next (emission (phys b) c s) :=
  if_pos (h ▸ test_config_accepted.1)

/-- The cut at no event, inside the events, and beyond the last. -/
theorem witness_rstInside : ∀ cut ∈ [0, 3, 7, 8], Live (at' .preLong 1 0 [.rst cut]) ∧
    issue (at' .preLong 1 0 [.rst cut]) = .word 7 ∧ decodeMicro 7 = .instr (.emit true .long) ∧
    ∃ u, exec (.emit true .long) (at' .preLong 1 0 [.rst cut]) = .next u :=
  fun _ _ => ⟨live_at .., rfl, by decide, _, emit_completes _ _ _ rfl⟩

/-- The literal reading of the frame trail, an idle block and a waiting one. -/
theorem witness_rstElsewhere :
    (Live { at' .trailZero 1 0 [.rst 1] with cfg := { k0 with trailZero := .literal4c } } ∧
      issue { at' .trailZero 1 0 [.rst 1] with cfg := { k0 with trailZero := .literal4c } } = .literalTrailZero) ∧
    ((start [.rst 0]).mop = none ∧ (start [.rst 0]).ph = .idle) ∧ (waiting [.rst 0]).req ≠ none :=
  ⟨⟨⟨by decide, rfl, rfl, rfl, rfl⟩, rfl⟩, ⟨rfl, rfl⟩, by decide⟩

theorem witness_beforeTheFirstReset :
    (State.powerOn k0 []).cfg.wellFormed = true ∧ (State.powerOn k0 []).launched = false ∧
    (State.powerOn k0 []).host = [] ∧
    ((State.powerOn k0 [.command 3]).host = .command 3 :: [] ∧ ∀ cut, HostMove.command 3 ≠ .rst cut) ∧
    (State.powerOn k0 [.rst 0]).host = .rst 0 :: [] :=
  ⟨by decide, rfl, rfl, ⟨rfl, fun _ h => by cases h⟩, rfl⟩

theorem witness_configured : (start []).cfg.wellFormed = true := by decide

/-- V-DLY-6: no number of chunks above 1 fits in 10000. -/
theorem witness_scaledDelay : (start []).cfg.wellFormed = true ∧
    1 * (start []).cfg.chunk ≤ (10000 : Time).toNat >>> (start []).cfg.shift := by decide

/-- The emission's first and last unit of time. -/
theorem witness_lineHolds : ∀ τ ∈ [0, 56999], (start []).cfg.wellFormed = true ∧
    noFlt (start []).trace = true ∧ (start []).time ≤ τ ∧
    τ < (start []).time + (((start []).rom.read .long).toNat >>> (start []).cfg.shift) ∧
    oeAt (start []) τ = true := by decide

theorem witness_lineInitIdempotent : (start []).cfg.wellFormed = true ∧ TraceInv (start []) ∧
    (start []).launched = true ∧ (start []).oe = true ∧ (start []).level = some .high :=
  ⟨by decide, traceInv_start _, rfl, rfl, rfl⟩

theorem witness_idleCommand : Live (start []) ∧ (start []).ph = .idle ∧ (start []).host = [] :=
  ⟨live_start _, rfl, rfl⟩

/-- Each of the three commands. -/
theorem witness_busyCommand : encode .init = .c64 1 ∧ encode .construct = .c64 3 ∧
    encode (.transmit 0x12345678 8) = .c64 0x1234567808000002 ∧ Live (at' .finalInit 1 0 []) ∧
    (at' .finalInit 1 0 []).ph ≠ .idle := ⟨by decide, by decide, by decide, live_at .., by decide⟩

theorem witness_completion :
    (Live (at' .finalInit 1 0 []) ∧ (at' .finalInit 1 0 []).ph = .finalInit ∧ (at' .finalInit 1 0 []).host = []) ∧
    (Live (start [.command 3]) ∧ (start [.command 3]).ph = .idle ∧ (start [.command 3]).host = .command 3 :: []) :=
  ⟨⟨live_at .., rfl, rfl⟩, live_start _, rfl, rfl⟩

theorem witness_donePulse : (at' .finalInit 1 0 []).launched = true ∧ (at' .finalInit 1 0 []).fault = none ∧
    ∃ t, step (at' .finalInit 1 0 []) = .next t ∧ doneOut t = true := ⟨rfl, rfl, _, rfl, rfl⟩

/-- Every phase the statement covers. -/
theorem witness_straightPhases : ∀ p ∈ [Phase.preLong, .preTick, .leadIdle, .trailSep, .postIdle, .postActive],
    Live (at' p 1 0 []) ∧ (at' p 1 0 []).host = [] ∧ (at' p 1 0 []).ph = p ∧
    p ∈ ([(.preLong, true, .long, .preTick), (.preTick, false, .tick, .preSep),
      (.leadIdle, false, .tick, .leadActive), (.trailSep, true, .sep, .trailZero),
      (.postIdle, false, .tick, .postActive), (.postActive, true, .tick, .finalInit)] :
        List (Phase × Bool × DurClass × Phase)).map Prod.fst :=
  fun p h => ⟨live_at .., rfl, rfl, by simpa using h⟩

theorem witness_preInit :
    (Live (at' .preInit 1 0 []) ∧ (at' .preInit 1 0 []).host = [] ∧ (at' .preInit 1 0 []).ph = .preInit) ∧
    ((start []).ph ≠ .preInit ∧ ∃ t, exec (.transmit 0 255) (start []) = .next t ∧ t.ph = .preInit) :=
  ⟨⟨live_at .., rfl, rfl⟩, by decide, _, rfl, rfl⟩

/-- REP at 0, 1 and 255. -/
theorem witness_preSep : ∀ r ∈ ([0, 1, 255] : List RepeatCount), Live (at' .preSep r 0 []) ∧
    (at' .preSep r 0 []).host = [] ∧ (at' .preSep r 0 []).ph = .preSep ∧ (at' .preSep r 0 []).rep = some r :=
  fun _ _ => ⟨live_at .., rfl, rfl, rfl⟩

theorem witness_leadActive : Live (at' .leadActive 1 0 []) ∧ (at' .leadActive 1 0 []).host = [] ∧
    (at' .leadActive 1 0 []).ph = .leadActive := ⟨live_at .., rfl, rfl⟩

/-- Both data phases, at bits 31, 1 and 0. -/
theorem witness_dataPhases : ∀ p ∈ [Phase.dataFirst, .dataSecond], ∀ n ∈ ([31, 1, 0] : List BitIndex),
    Live (at' p 1 n []) ∧ (at' p 1 n []).host = [] ∧ (at' p 1 n []).code = some 0x80000001 ∧
    (at' p 1 n []).bit = some n ∧ (at' p 1 n []).ph = p :=
  fun _ _ _ _ => ⟨live_at .., rfl, rfl, rfl, rfl⟩

/-- REP at 1, 2 and 255. -/
theorem witness_trailZero : ∀ r ∈ ([1, 2, 255] : List RepeatCount), Live (at' .trailZero r 0 []) ∧
    (at' .trailZero r 0 []).host = [] ∧ (at' .trailZero r 0 []).ph = .trailZero ∧
    (at' .trailZero r 0 []).rep = some r ∧ r ≠ 0 ∧ (at' .trailZero r 0 []).rom.zero = 0 :=
  fun r h => ⟨live_at .., rfl, rfl, rfl, by revert h; revert r; decide, rfl⟩

theorem witness_finalInit : Live (at' .finalInit 1 0 []) ∧ (at' .finalInit 1 0 []).host = [] ∧
    (at' .finalInit 1 0 []).ph = .finalInit := ⟨live_at .., rfl, rfl⟩

theorem witness_issuedWord : issue (at' .dataFirst 1 31 []) = .word 5 := by decide

theorem witness_noValue :
    (Live { at' .dataFirst 1 31 [] with code := none } ∧ Live { at' .dataSecond 1 31 [] with bit := none } ∧
      Live { at' .preSep 1 31 [] with rep := none }) ∧
    { at' .dataSecond 1 31 [] with bit := none }.code ≠ none ∧
    ({ waiting [.ack] with dly := none }.mop ≠ none ∧ { waiting [.ack] with dly := none }.req ≠ none) :=
  ⟨⟨⟨by decide, rfl, rfl, rfl, rfl⟩, ⟨by decide, rfl, rfl, rfl, rfl⟩, by decide, rfl, rfl, rfl, rfl⟩, by decide,
    by decide, by decide⟩

/-- The clauses of the priority order, one state each. -/
theorem witness_priority :
    (start []).cfg.wellFormed = true ∧ (start []).launched = true ∧ (start []).mop = none ∧
    (faulted [.command 1]).fault ≠ none ∧ (faulted [.rst 0]).host = .rst 0 :: [] ∧
    ({ start [.command 1] with ph := .reservedF }.fault = none ∧
      { start [.command 1] with ph := .reservedF }.ph.isReserved = true) ∧
    ((at' .finalInit 1 0 [.command 1]).fault = none ∧ (at' .finalInit 1 0 [.command 1]).ph.isReserved = false ∧
      (at' .finalInit 1 0 [.command 1]).ph ≠ .idle) ∧
    ((start [.command 4]).ph = .idle ∧ decodeCommand 4 = .illegal .reservedOp) ∧
    (({ start [] with ph := .reservedE }.fault = none ∧ { start [] with ph := .reservedE }.ph.isReserved = true) ∧
      { start [] with ph := .reservedE }.host = []) ∧
    (∀ moves ∈ [[], [HostMove.pass]], (at' .preSep 1 0 moves).fault = none ∧
      (at' .preSep 1 0 moves).ph.isReserved = false ∧ (start moves).ph.isReserved = false) ∧
    decodeMicro 9 = .illegal .reservedMicroOp := by decide

theorem witness_faulted : (faulted [.command 1, .wait 3]).cfg.wellFormed = true ∧
    (faulted [.command 1, .wait 3]).launched = true ∧
    (faulted [.command 1, .wait 3]).fault = some (.illegalCommand 4) ∧
    (∀ m ∈ (faulted [.command 1, .wait 3]).host, (∀ cut, m ≠ .rst cut) ∧ m ≠ .interfere) ∧
    2 ≤ (faulted [.command 1, .wait 3]).host.length ∧ (faulted [.command 1, .wait 3]).host.length < 3 := by
  refine ⟨by decide, rfl, rfl, ?_, by decide, by decide⟩
  intro m hm
  simp only [faulted, start, State.afterReset, List.mem_cons, List.not_mem_nil, or_false] at hm
  rcases hm with rfl | rfl <;> simp

/-- RSV at bit 8 and at bit 23, OP 4, INIT with a CODE bit, CONSTRUCT with a REPEAT bit; words 9 and 15. -/
theorem witness_reserved :
    (Live (start [.command 0x102]) ∧ (start [.command 0x102]).ph = .idle) ∧
    (fieldRsv 0x102 ≠ 0 ∧ fieldRsv 0x800002 ≠ 0 ∧
      (fieldOp 4 ≠ 1 ∧ fieldOp 4 ≠ 2 ∧ fieldOp 4 ≠ 3) ∧
      (fieldOp 0x0000000100000001 ≠ 2 ∧ fieldOperands 0x0000000100000001 ≠ 0) ∧
      (fieldOp 0x0000000001000003 ≠ 2 ∧ fieldOperands 0x0000000001000003 ≠ 0)) ∧
    (9 ≤ (9 : MicroWord).toNat ∧ 9 ≤ (15 : MicroWord).toNat) :=
  ⟨⟨live_start _, rfl⟩, by decide, by decide, by decide⟩

/-- Inside a frame, at the smallest REP and the last bit. -/
theorem witness_sequencerInv : SequencerInv (at' .dataSecond 1 0 []) ∧
    ∃ t, step (at' .dataSecond 1 0 []) = .next t :=
  ⟨⟨rfl, fun _ => ⟨_, _, rfl, rfl⟩, fun _ => by decide, fun _ => ⟨_, rfl⟩, fun _ => rfl, fun _ => by decide,
    fun _ h => (by cases h), rfl, fun _ h => (by cases h)⟩, _, rfl⟩

/-- In a delay call that is not answered. -/
theorem witness_sequencerInv_waiting : SequencerInv (waiting [.ack]) :=
  ⟨rfl, fun _ => ⟨_, _, rfl, rfl⟩, fun h => (by cases h), fun h => (by cases h), fun _ => rfl, fun _ => by decide,
    fun _ h => by cases h; decide, rfl, fun _ h => ⟨_, rfl, by cases h; decide⟩⟩

/-- An idle block is in the sequencer's invariant. -/
theorem sequencerInv_faulted (moves : List HostMove) : SequencerInv (faulted moves) :=
  ⟨rfl, fun h => (by cases h), fun h => (by cases h), fun h => (by cases h), fun h => (by cases h),
    fun h => absurd rfl h, fun _ h => (by cases h), rfl, fun _ h => (by cases h)⟩

theorem witness_hostsFaults : SequencerInv (faulted [.pass]) ∧
    (∀ r, (faulted [.pass]).fault = some r → r.isHosts = true) ∧ ∃ t, step (faulted [.pass]) = .next t :=
  ⟨sequencerInv_faulted _, fun _ h => by cases h; rfl, _, rfl⟩

theorem witness_traceInv : TraceInv (at' .preLong 1 0 []) ∧ ∃ t, step (at' .preLong 1 0 []) = .next t :=
  ⟨⟨by decide, by decide, by decide, by decide, by decide, by decide, by decide, by decide, by decide⟩, _, rfl⟩

theorem witness_idleHigh : SequencerInv (at' .finalInit 1 0 []) ∧
    ((at' .finalInit 1 0 []).launched = true → (at' .finalInit 1 0 []).ph = .idle →
      (at' .finalInit 1 0 []).level = some .high) ∧
    ∃ t, step (at' .finalInit 1 0 []) = .next t ∧ t.launched = true ∧ t.ph = .idle :=
  ⟨⟨rfl, fun _ => ⟨_, _, rfl, rfl⟩, fun h => (by cases h), fun h => (by cases h), fun _ => rfl, fun _ => by decide,
    fun _ h => (by cases h), rfl, fun _ h => (by cases h)⟩, fun _ _ => rfl, _, rfl, rfl, rfl⟩

theorem witness_romWrite : ∃ t, step { start [.command 3] with rom := ⟨1, 2, 3, 4⟩ } = .next t ∧
    t.rom ≠ { start [.command 3] with rom := ⟨1, 2, 3, 4⟩ }.rom := ⟨_, rfl, by decide⟩

theorem witness_traceGrows : (∀ cut rest, (at' .postActive 1 0 []).host ≠ .rst cut :: rest) ∧
    ∃ t, step (at' .postActive 1 0 []) = .next t := ⟨fun _ _ h => (by cases h), _, rfl⟩

/-- The smallest and the largest repeat count. -/
theorem witness_transmits : ∀ r ∈ ([0, 255] : List RepeatCount),
    Live (start [.command (assembleC64 0x80000001 r 2)]) ∧
    (start [.command (assembleC64 0x80000001 r 2)]).ph = .idle ∧
    (start [.command (assembleC64 0x80000001 r 2)]).cfg.trailZero = .law ∧
    (start [.command (assembleC64 0x80000001 r 2)]).host = .command (assembleC64 0x80000001 r 2) :: [] :=
  fun _ _ => ⟨live_start _, rfl, rfl, rfl⟩

/-- A host with no later move, and one that presents nothing, waits, and commands again. -/
theorem witness_undisturbed :
    ∀ rest ∈ [[], [HostMove.pass, .wait 5, .command 1]],
      Live (start (.command (assembleC64 0x80000001 0 2) :: rest)) ∧
      (start (.command (assembleC64 0x80000001 0 2) :: rest)).ph = .idle ∧
      (start (.command (assembleC64 0x80000001 0 2) :: rest)).cfg.trailZero = .law ∧
      Undisturbed (1 + microOpCount 0 false) (start (.command (assembleC64 0x80000001 0 2) :: rest)) = true :=
  fun rest h => ⟨live_start _, rfl, rfl, by revert h; revert rest; decide⟩

/-- The first and the last frame and bit of a transmit with r = 2. -/
theorem witness_indices : ∀ f ∈ [0, 1], ∀ j ∈ [0, 31], f < 2 ∧ j < 32 := by decide

theorem witness_wait :
    (Live (start [.wait 5]) ∧ (start [.wait 5]).ph.isReserved = false ∧ (start [.wait 5]).host = .wait 5 :: [] ∧
      (start [.wait 5]).ph = .idle) ∧
    (Live (at' .preSep 1 0 [.wait 5]) ∧ (at' .preSep 1 0 [.wait 5]).ph.isReserved = false ∧
      (at' .preSep 1 0 [.wait 5]).ph ≠ .idle) :=
  ⟨⟨live_start _, rfl, rfl, rfl⟩, live_at .., rfl, by decide⟩

theorem witness_interference : Live (at' .preSep 1 0 [.interfere]) ∧
    noFlt (at' .preSep 1 0 [.interfere]).trace = true ∧
    (at' .preSep 1 0 [.interfere]).host = .interfere :: [] := ⟨live_at .., rfl, rfl⟩

/-- Two calls, one late and one early by the whole error, and one of no length. -/
theorem witness_delayExact : DelayExact k0 [⟨0, .dly 10⟩, ⟨10, .dly 0⟩, ⟨10, .dly 5⟩] [11, 0, 4] := by
  simp [DelayExact, delaysOf, closeTo, k0]

theorem witness_realTime : (∃ t, exec (.emit true .long) (start []) = .next t) ∧
    (Live (at' .preLong 1 0 [.pass]) ∧ ∃ t, step (at' .preLong 1 0 [.pass]) = .next t) :=
  ⟨⟨_, emit_completes _ _ _ rfl⟩, live_at .., _, rfl⟩

/-- The largest operands, and the smallest out of range. -/
theorem witness_assemble : (4294967295 < 2 ^ 32 ∧ 255 < 2 ^ 8) ∧
    (2 ^ 32 ≤ 4294967296 ∨ 2 ^ 8 ≤ 255) ∧ (2 ^ 32 ≤ 0 ∨ 2 ^ 8 ≤ 256) := by decide

/-- An encoder that steps, and one before its first reset that stands. -/
theorem witness_encoders : [start [], start [.command 1]][1]? = some (start [.command 1]) ∧
    (∃ t, step (start [.command 1]) = .next t) ∧ step (State.powerOn k0 []) = .fault .notReset :=
  ⟨rfl, ⟨_, rfl⟩, rfl⟩

/-- No call answered, and all but the last: five chunks of EMIT 1, LONG. -/
theorem witness_handshake : (∀ k ∈ [0, 5], Live (at' .preLong 1 0 [.hold k, .ack]) ∧
      issue (at' .preLong 1 0 [.hold k, .ack]) = (Mop.word 7).issue ∧
      (Mop.word 7).issue.pulse = some (.low, .long) ∧
      k * (at' .preLong 1 0 [.hold k, .ack]).cfg.chunk
        ≤ emissionTime (at' .preLong 1 0 [.hold k, .ack]).cfg (at' .preLong 1 0 [.hold k, .ack]).rom .long) ∧
    ((waiting [.pass]).cfg.wellFormed = true ∧ (waiting [.pass]).launched = true ∧
      (waiting [.pass]).fault = none ∧ (waiting [.pass]).mop ≠ none ∧ (waiting [.pass]).req ≠ none) :=
  ⟨fun k h => ⟨live_at .., rfl, by decide, by revert h; revert k; decide⟩, by decide⟩

theorem witness_endsRun : TraceInv (start [.wait 3, .rst 0, .command 1]) ∧
    (start [.wait 3, .rst 0, .command 1]).level = some .high ∧
    endsRun (start [.wait 3, .rst 0, .command 1]) = true :=
  ⟨traceInv_start _, rfl, by decide⟩

/-- After reset, and in an idle block that interference has reached, whose run still ends. -/
theorem witness_waveform : TraceInv (start []) ∧ (changeTimes (start []).trace (start []).oeLog).head? = some 0 ∧
    see (fun t => (t.oe, endsRun t)) (step (start [.interfere])) = some (false, true) :=
  ⟨traceInv_start _, by decide, by decide⟩

end Sys2Proof.Machine.Tests
end

section
/-! SUPPORT. The configuration and the ROM under a step, and the refusal of an ill-formed configuration
(00_scope R6; 10_state R24; 20_memory R51). -/

namespace Sys2Proof.Machine

/-! ### An ill-formed configuration -/

/-- A state with an ill-formed configuration does not go on (log 22). -/
theorem configured_illFormed {s : State} (h : s.cfg.wellFormed = false) (k : State → Result) :
    configured s k = .refused .illFormedConfig := by
  simp [configured, h]

theorem launch_illFormed {k : Config} (h : k.wellFormed = false) (moves : List HostMove) :
    launch k moves = .refused .illFormedConfig := by
  simp [launch, h]

theorem step_illFormed {s : State} (h : s.cfg.wellFormed = false) :
    step s = .refused .illFormedConfig := by
  rw [step, arbitrate, configured_illFormed h]

theorem exec_illFormed {s : State} (h : s.cfg.wellFormed = false) (i : Instr) :
    exec i s = .refused .illFormedConfig := by
  cases i with
  | construct => rw [exec, execConstruct, configured_illFormed h]
  | init => rw [exec, execInit, configured_illFormed h]
  | transmit code rep => rw [exec, execTransmit, configured_illFormed h]
  | emit level cls => rw [exec, execEmit, configured_illFormed h]
  | lineInit => rw [exec, execLineInit, configured_illFormed h]

/-! ### What the updates after a micro-operation change -/

/-- Everything a phase's updates may do to the state (41_serializer R121): only PH, REP, BIT, FAULT, `done` and
the trace change, and what is recorded is stamped with the current TIME. -/
def AdvanceEffect (s t : State) : Prop :=
  ∃ (p : Phase) (r : Option RepeatCount) (b : Option BitIndex) (f : Option FaultReason) (dn : Bool)
    (es : List Stamped),
    t = { s with ph := p, rep := r, bit := b, fault := f, done := dn, trace := s.trace ++ es } ∧
    ∀ e ∈ es, e.time = s.time

/-- Updates that move PH, REP and BIT alone record nothing. -/
theorem advanceEffect_registers (s : State) (p : Phase) (r : Option RepeatCount) (b : Option BitIndex) :
    AdvanceEffect s { s with ph := p, rep := r, bit := b } :=
  ⟨p, r, b, s.fault, s.done, [], by simp, by simp⟩

/-- A register that is read before an update may hold no value: then a fault is all that happens. -/
theorem withReg_advanceEffect {α : Type} (x : ReadResult α) {s : State} {k : α → State}
    (hk : ∀ v, AdvanceEffect s (k v)) : AdvanceEffect s (withReg x s k) := by
  cases x with
  | value v => exact hk v
  | unwritten r =>
    exact ⟨s.ph, s.rep, s.bit, some (.unwritten r), false, [⟨s.time, .flt (.unwritten r)⟩], rfl, by simp⟩

theorem advance_effect (s : State) : AdvanceEffect s (advance s) := by
  unfold advance
  cases s.ph with
  | preSep => exact withReg_advanceEffect _ fun _ => advanceEffect_registers ..
  | dataSecond =>
    refine withReg_advanceEffect _ fun b => ?_
    split <;> exact advanceEffect_registers ..
  | trailZero => exact withReg_advanceEffect _ fun _ => advanceEffect_registers ..
  | finalInit => exact ⟨.idle, s.rep, s.bit, s.fault, true, [⟨s.time, .done s.cmd⟩], rfl, by simp⟩
  | _ => exact advanceEffect_registers ..

/-! ### What keeps the configuration and the ROM -/

/-- `t` holds the configuration and the ROM of `s`. -/
def SameBuild (s t : State) : Prop := t.cfg = s.cfg ∧ t.rom = s.rom

theorem SameBuild.trans {s u t : State} (hu : SameBuild s u) (ht : SameBuild u t) : SameBuild s t :=
  ⟨ht.1.trans hu.1, ht.2.trans hu.2⟩

theorem DelayEffect.sameBuild {s t : State} (h : DelayEffect s t) : SameBuild s t := by
  obtain ⟨d, τ, es, q, rfl, -⟩ := h
  exact ⟨rfl, rfl⟩

theorem AdvanceEffect.sameBuild {s t : State} (h : AdvanceEffect s t) : SameBuild s t := by
  obtain ⟨p, r, b, f, dn, es, rfl, -⟩ := h
  exact ⟨rfl, rfl⟩

/-- The driver only reads the ROM (20_memory R51). -/
theorem MicroRun.sameBuild {x : Issue} {s u : State} (h : MicroRun x s u) : SameBuild s u := by
  cases h with
  | line hx hu => subst hu; exact ⟨rfl, rfl⟩
  | start e c hx hu => exact hu.sameBuild
  | resume hq hu => exact hu.sameBuild

theorem RunCase.sameBuild {x : Issue} {s t : State} (h : RunCase x s t) : SameBuild s t := by
  cases h with
  | nothing hx ht => subst ht; exact (advance_effect { s with mop := none }).sameBuild
  | faulted r hr ht => subst ht; exact ⟨rfl, rfl⟩
  | completed u hu hq ht =>
    subst ht; exact hu.sameBuild.trans (advance_effect { u with mop := none }).sameBuild
  | waits u hx hu hq ht => subst ht; exact hu.sameBuild

/-- Interference reaches PIN.OE alone (60_exceptions R183). -/
theorem interfere_sameBuild (s : State) : SameBuild s (interfere s) := by
  unfold interfere
  split <;> exact ⟨rfl, rfl⟩

/-- CONSTRUCT has one word (30_encoding R75). -/
theorem eq_of_decodeCommand_construct {w : CommandWord} (h : decodeCommand w = .instr .construct) :
    w = 3 := by
  unfold decodeCommand at h
  split_ifs at h with hRsv hInit hZero hTransmit hConstruct hZero
  · cases h
  · cases h
  · obtain ⟨hCode, hRepeat⟩ := fieldOperands_zero w hZero
    have hw := assemble_fields w (not_not.1 hRsv)
    rw [hCode, hRepeat, hConstruct] at hw
    exact hw.symm.trans (by decide)

/-- A step keeps the configuration and the ROM, or it took `rst` or the word of CONSTRUCT and keeps the
configuration. -/
theorem StepCase.sameBuild_or {s t : State} (hk : s.cfg.wellFormed = true) (h : StepCase s t) :
    SameBuild s t ∨
    (t.cfg = s.cfg ∧ ((∃ cut rest, s.host = .rst cut :: rest) ∨ ∃ rest, s.host = .command 3 :: rest)) := by
  cases h with
  | reset cut rest hm ht => subst ht; exact .inr ⟨rfl, .inl ⟨cut, rest, hm⟩⟩
  | interfere rest hm ht => subst ht; exact .inl (interfere_sameBuild { s with host := rest })
  | skip m rest hm hn hd ht => subst ht; exact .inl ⟨rfl, rfl⟩
  | raised r rest hl hf hm hr ht => subst ht; exact .inl ⟨rfl, rfl⟩
  | command w i rest hm hl hf hp hb hd ht =>
    rcases exec_decodeCommand (s := { s with host := rest, done := false }) hd hf hp ht with
      ⟨-, rfl⟩ | ⟨c, r, -, rfl⟩ | ⟨rfl, rfl⟩
    · exact .inl ⟨rfl, rfl⟩
    · exact .inl ⟨rfl, rfl⟩
    · obtain rfl := eq_of_decodeCommand_construct hd
      exact .inr ⟨rfl, .inr ⟨rest, hm⟩⟩
  | waited n rest hm hl hf hp hb ht => subst ht; exact .inl ⟨rfl, rfl⟩
  | boundary acks rest hl hf hb hp hm ht =>
    cases acks with
    | none => exact .inl (sequencerStep_cases (s := { s with host := rest, done := false }) hk hf ht).sameBuild
    | some k => exact .inl (heldStep_cases (s := { s with host := rest, done := false }) hk hf ht).sameBuild
  | waiting rest hl hf hb hq hm ht => subst ht; exact .inl ⟨rfl, rfl⟩
  | inside acks rest hl hf hb hm ht =>
    exact .inl (insideStep_cases (s := { s with host := rest, done := false }) hk hf hb ht).sameBuild

/-- Settles O46, by the cases of a step: only those of `rst` and of CONSTRUCT build a ROM. -/
theorem onlyConstructAndResetWriteTheRom : Obligations.OnlyConstructAndResetWriteTheRom := by
  intro s t h
  obtain ⟨hk, hc⟩ := step_cases h
  rcases hc.sameBuild_or hk with ⟨hcfg, hrom⟩ | ⟨hcfg, hmove⟩
  · exact ⟨hcfg, fun hne => absurd hrom hne⟩
  · exact ⟨hcfg, fun _ => hmove⟩

/-- Settles O9: `launch`, every step and every arm of exec ask for a well-formed configuration first. -/
theorem illFormedConfigurationIsRefused : Obligations.IllFormedConfigurationIsRefused :=
  ⟨fun _ moves h => launch_illFormed h moves, fun _ i h => ⟨step_illFormed h, exec_illFormed h i⟩⟩

end Sys2Proof.Machine
end

section
/-! SUPPORT. The sequencer's invariant (10_state R26, R38; 30_encoding R81; 41_serializer R121; 40_driver R91,
R96, R102): after reset, and under every step. -/

namespace Sys2Proof.Machine

/-! ### Reading a register -/

/-- A register that holds a value gives it. -/
theorem withReg_readReg {α : Type} {x : Option α} {v : α} (h : x = some v) (n : RegName) (s : State)
    (k : α → State) : withReg (readReg n x) s k = k v := by
  rw [h]
  rfl

/-- A register with no value raises the fault with its name (10_state R38). -/
theorem withReg_readReg_none {α : Type} {x : Option α} (h : x = none) (n : RegName) (s : State)
    (k : α → State) : withReg (readReg n x) s k = raise (.unwritten n) s := by
  rw [h]
  rfl

/-! ### The rows of 41_serializer R121 that read a register -/

theorem advance_preSep {s : State} {r : RepeatCount} (hp : s.ph = .preSep) (hr : s.rep = some r) :
    advance s = { s with ph := branch (r ≠ 0) .leadIdle .postIdle } := by
  simp only [advance, hp, withReg_readReg hr]

theorem advance_dataSecond {s : State} {b : BitIndex} (hp : s.ph = .dataSecond) (hb : s.bit = some b) :
    advance s = if b ≠ 0 then { s with bit := some (b - 1), ph := .dataFirst }
      else { s with ph := .trailSep } := by
  simp only [advance, hp, withReg_readReg hb]

theorem advance_trailZero {s : State} {r : RepeatCount} (hp : s.ph = .trailZero) (hr : s.rep = some r) :
    advance s = { s with
      rep := some (repMinusOne r s), ph := branch (repMinusOne r s ≠ 0) .leadIdle .postIdle } := by
  simp only [advance, hp, withReg_readReg hr]

/-- Without a value in REP the frame loop's tests end in the fault (10_state R38). -/
theorem advance_rep_none {s : State} (hp : s.ph = .preSep ∨ s.ph = .trailZero) (hr : s.rep = none) :
    advance s = raise (.unwritten .rep) s := by
  rcases hp with hp | hp <;> simp only [advance, hp, withReg_readReg_none hr]

/-! ### What the invariant asks of the registers -/

/-- The part of the sequencer's invariant that speaks of PH, CODE, REP, BIT and the accepted command. -/
structure RegistersInv (s : State) : Prop where
  phase : s.ph.isReserved = false
  written : s.ph.inTransmit = true → ∃ c r, s.code = some c ∧ s.rep = some r
  frame : s.ph.inFrame = true → s.rep ≠ some 0
  bit : s.ph.readsBit = true → ∃ b, s.bit = some b
  name : s.ph.inTransmit = true → s.cmd = .transmit
  noConstruct : s.ph ≠ .idle → s.cmd ≠ .construct

/-- The registers that `RegistersInv` and the phase's micro-operation depend on. -/
def seqRegisters (s : State) :
    Phase × Option CodeWord × Option RepeatCount × Option BitIndex × Command × Config :=
  (s.ph, s.code, s.rep, s.bit, s.cmd, s.cfg)

theorem RegistersInv.congr {s t : State} (h : RegistersInv s) (e : seqRegisters t = seqRegisters s) :
    RegistersInv t := by
  simp only [seqRegisters, Prod.mk.injEq] at e
  obtain ⟨hph, hcode, hrep, hbit, hcmd, -⟩ := e
  constructor
  · rw [hph]; exact h.phase
  · rw [hph, hcode, hrep]; exact h.written
  · rw [hph, hrep]; exact h.frame
  · rw [hph, hbit]; exact h.bit
  · rw [hph, hcmd]; exact h.name
  · rw [hph, hcmd]; exact h.noConstruct

/-- The micro-operation of a phase is a function of the registers (41_serializer R121). -/
theorem issue_congr {s t : State} (e : seqRegisters t = seqRegisters s) : issue t = issue s := by
  simp only [seqRegisters, Prod.mk.injEq] at e
  obtain ⟨hph, hcode, -, hbit, -, hcfg⟩ := e
  simp only [issue, codeBit, hph, hcode, hbit, hcfg]

theorem SequencerInv.registersInv {s : State} (h : SequencerInv s) : RegistersInv s :=
  ⟨h.phase, h.written, h.frame, h.bit, h.name, h.noConstruct⟩

/-- At a step boundary the invariant speaks of the registers alone. -/
theorem RegistersInv.sequencerInv {s : State} (h : RegistersInv s) (hm : s.mop = none) (hq : s.req = none) :
    SequencerInv s :=
  { phase := h.phase, written := h.written, frame := h.frame, bit := h.bit, name := h.name
    noConstruct := h.noConstruct
    issued := by simp [hm]
    waits := by simp [hm, hq]
    owed := by simp [hq] }

/-- What the invariant asks of IDLE: nothing. -/
theorem registersInv_idle {s : State} (h : s.ph = .idle) : RegistersInv s := by
  constructor <;> simp [h, Phase.isReserved, Phase.inTransmit, Phase.inFrame, Phase.readsBit]

/-- The moves of a transmit: CODE and the command's name stay, REP keeps a value, which is not 0 where a frame
follows, and BIT has one where it is read. -/
theorem RegistersInv.move {s : State} (h : RegistersInv s) (hs : s.ph.inTransmit = true) {q : Phase}
    (hq : q.isReserved = false) {r : Option RepeatCount} (hr : r ≠ none) (hf : q.inFrame = true → r ≠ some 0)
    {b : Option BitIndex} (hb : q.readsBit = true → ∃ v, b = some v) :
    RegistersInv { s with ph := q, rep := r, bit := b } where
  phase := hq
  written _ := by
    obtain ⟨c, -, hc, -⟩ := h.written hs
    obtain ⟨v, hv⟩ := Option.ne_none_iff_exists'.1 hr
    exact ⟨c, v, hc, hv⟩
  frame := hf
  bit := hb
  name _ := h.name hs
  noConstruct _ := by simp [h.name hs]

/-- The straight rows of 41_serializer R121, which change PH alone, to a phase that asks for no more. -/
theorem RegistersInv.straight {s : State} (h : RegistersInv s) {p q : Phase} (hp : s.ph = p)
    (hpq : p.inTransmit = true ∧ q.isReserved = false ∧ (q.inFrame = true → p.inFrame = true) ∧
      (q.readsBit = true → p.readsBit = true)) : RegistersInv { s with ph := q } := by
  subst hp
  obtain ⟨ht, hq, hf, hb⟩ := hpq
  obtain ⟨c, r, -, hr⟩ := h.written ht
  exact h.move ht hq (by simp [hr]) (fun hq => h.frame (hf hq)) (fun hq => h.bit (hb hq))

/-- The tests of the frame loop: it is entered with a REP that is not 0 (41_serializer R126, R131). -/
theorem RegistersInv.loopTest {s : State} (h : RegistersInv s) (hs : s.ph.inTransmit = true) (r : RepeatCount) :
    RegistersInv { s with rep := some r, ph := branch (r ≠ 0) .leadIdle .postIdle } := by
  by_cases hr : r = 0
  · subst hr
    exact h.move (q := .postIdle) hs rfl (Option.some_ne_none 0) nofun nofun
  · have hq : branch (r ≠ 0) .leadIdle .postIdle = .leadIdle := by simpa [branch] using hr
    rw [hq]
    exact h.move hs rfl (Option.some_ne_none r) (fun _ => by simpa using hr) nofun

/-- A bit of the frame is sent next: BIT gets its index (41_serializer R127, R129). -/
theorem RegistersInv.nextBit {s : State} (h : RegistersInv s) (hs : s.ph.inFrame = true)
    (ht : s.ph.inTransmit = true) (b : BitIndex) : RegistersInv { s with bit := some b, ph := .dataFirst } := by
  obtain ⟨c, r, -, hr⟩ := h.written ht
  exact h.move ht rfl (by simp [hr]) (fun _ => h.frame hs) (fun _ => ⟨b, rfl⟩)

/-- The updates after a micro-operation keep what the invariant asks of the registers (41_serializer R121). -/
theorem registersInv_advance {s : State} (h : RegistersInv s) : RegistersInv (advance s) := by
  cases hp : s.ph with
  | idle | reservedE | reservedF =>
    simp only [advance, hp]
    exact h
  | preInit | preLong | preTick | leadIdle | dataFirst | trailSep | postIdle | postActive =>
    simp only [advance, hp]
    exact h.straight hp (by decide)
  | preSep =>
    obtain ⟨-, r, -, hr⟩ := h.written (by rw [hp]; rfl)
    rw [advance_preSep hp hr]
    exact (h.loopTest (by rw [hp]; rfl) r).congr (by simp [seqRegisters, hr])
  | leadActive =>
    simp only [advance, hp]
    exact h.nextBit (by rw [hp]; rfl) (by rw [hp]; rfl) 31
  | dataSecond =>
    obtain ⟨b, hb⟩ := h.bit (by rw [hp]; rfl)
    rw [advance_dataSecond hp hb]
    split
    · exact h.nextBit (by rw [hp]; rfl) (by rw [hp]; rfl) (b - 1)
    · exact h.straight hp (by decide)
  | trailZero =>
    obtain ⟨-, r, -, hr⟩ := h.written (by rw [hp]; rfl)
    rw [advance_trailZero hp hr]
    exact h.loopTest (by rw [hp]; rfl) (repMinusOne r s)
  | finalInit =>
    simp only [advance, hp]
    exact registersInv_idle rfl

/-! ### What a micro-operation leaves of it -/

/-- The driver reaches none of the sequencer's registers (40_driver R94, R100). -/
theorem DelayEffect.registers_eq {s t : State} (h : DelayEffect s t) : seqRegisters t = seqRegisters s := by
  obtain ⟨d, τ, es, q, rfl, -⟩ := h
  rfl

theorem MicroRun.registers_eq {x : Issue} {s u : State} (h : MicroRun x s u) :
    seqRegisters u = seqRegisters s := by
  cases h with
  | line hx hu => subst hu; rfl
  | start e c hx hu => exact hu.registers_eq
  | resume hq hu => exact hu.registers_eq

/-- A delay leaves open the call that DLY asks for, or none (40_driver R96, R102). -/
theorem DelayEffect.owed {s t : State} (h : DelayEffect s t) {n : Nat} (hn : t.req = some n) :
    ∃ d : Time, t.dly = some d ∧ n = nextArg t.cfg.chunk d.toNat := by
  obtain ⟨d, τ, es, q, rfl, -, -, -, hq⟩ := h
  exact ⟨d, rfl, hq n hn⟩

theorem MicroRun.owed {x : Issue} {s u : State} (h : SequencerInv s) (hu : MicroRun x s u) {n : Nat}
    (hn : u.req = some n) : ∃ d : Time, u.dly = some d ∧ n = nextArg u.cfg.chunk d.toNat := by
  cases hu with
  | line hx hu => subst hu; exact h.owed n hn
  | start e c hx hu => exact hu.owed hn
  | resume hq hu => exact hu.owed hn

/-- A micro-operation as the sequencer handed it over. -/
theorem Issue.eq_issue_of_mop {x : Issue} {m : Mop} (h : x.mop = some m) : x = m.issue := by
  cases x <;> cases h <;> rfl

theorem Issue.mop_isSome_of_pulse {x : Issue} (h : x.pulse ≠ none) : x.mop.isSome = true := by
  cases x with
  | word w => rfl
  | literalTrailZero => rfl
  | nothing | unwritten r | badPhase p => exact absurd rfl h

/-- The driver runs what the phase issues, a micro-operation in progress too (40_driver R91). -/
theorem SequencerInv.current_eq {s : State} (h : SequencerInv s) : current s = issue s := by
  cases hm : s.mop with
  | none => exact current_of_none hm
  | some m => rw [current_of_some hm, (h.issued m hm).1]

/-- A block that waits in a delay call runs an emission. -/
theorem SequencerInv.pulse_of_req {s : State} (h : SequencerInv s) (hq : s.req ≠ none) :
    (issue s).pulse ≠ none := by
  have hm : s.mop.isSome = true := by rw [h.waits]; exact Option.isSome_iff_ne_none.2 hq
  obtain ⟨m, hm⟩ := Option.isSome_iff_exists.1 hm
  obtain ⟨hi, hx⟩ := h.issued m hm
  rwa [hi]

theorem SequencerInv.req_none_of_pulse {s : State} (h : SequencerInv s) (hx : (issue s).pulse = none) :
    s.req = none :=
  not_not.1 fun hq => h.pulse_of_req hq hx

/-! ### The invariant under a step -/

/-- The fields that the sequencer's invariant depends on. -/
def sequencerFields (s : State) :=
  (seqRegisters s, s.mop, s.req, s.dly)

theorem SequencerInv.congr {s t : State} (h : SequencerInv s) (e : sequencerFields t = sequencerFields s) :
    SequencerInv t := by
  simp only [sequencerFields, Prod.mk.injEq] at e
  obtain ⟨hr, hm, hq, hd⟩ := e
  have hi := issue_congr hr
  have hk : t.cfg = s.cfg := by
    simp only [seqRegisters, Prod.mk.injEq] at hr
    obtain ⟨-, -, -, -, -, hcfg⟩ := hr
    exact hcfg
  have ht := h.registersInv.congr hr
  exact
    { phase := ht.phase, written := ht.written, frame := ht.frame, bit := ht.bit, name := ht.name
      noConstruct := ht.noConstruct
      issued := by rw [hm, hi]; exact h.issued
      waits := by rw [hm, hq]; exact h.waits
      owed := by rw [hq, hd, hk]; exact h.owed }

/-- The updates follow a micro-operation that left no delay call open. -/
theorem RegistersInv.sequencerInv_advance {s : State} (h : RegistersInv s) (hq : s.req = none) :
    SequencerInv (advance { s with mop := none }) := by
  have hr : RegistersInv (advance { s with mop := none }) := registersInv_advance (h.congr rfl)
  obtain ⟨p, r, b, f, dn, es, ht, -⟩ := advance_effect { s with mop := none }
  exact hr.sequencerInv (by rw [ht]) (by rw [ht]; exact hq)

/-- An emission that waits in a delay call stays issued (40_driver R91, R102). -/
theorem SequencerInv.waiting {s u : State} (h : SequencerInv s) (hu : MicroRun (issue s) s u)
    (hx : (issue s).pulse ≠ none) (hq : u.req ≠ none) : SequencerInv { u with mop := (issue s).mop } := by
  have hr := h.registersInv.congr hu.registers_eq
  exact
    { phase := hr.phase, written := hr.written, frame := hr.frame, bit := hr.bit, name := hr.name
      noConstruct := hr.noConstruct
      issued := fun m hm => by
        have hi := Issue.eq_issue_of_mop hm
        exact ⟨(issue_congr hu.registers_eq).trans hi, hi ▸ hx⟩
      waits := (Issue.mop_isSome_of_pulse hx).trans (Option.isSome_iff_ne_none.2 hq).symm
      owed := fun n hn => hu.owed h hn }

theorem RunCase.sequencerInv {s t : State} (h : SequencerInv s) (hr : RunCase (issue s) s t) :
    SequencerInv t := by
  cases hr with
  | nothing hx ht =>
    subst ht
    exact h.registersInv.sequencerInv_advance (h.req_none_of_pulse (by rw [hx]; rfl))
  | faulted r hr ht => subst ht; exact h.congr rfl
  | completed u hu hq ht =>
    subst ht
    refine (h.registersInv.congr hu.registers_eq).sequencerInv_advance ?_
    rcases hq with hq | ⟨hx, rfl⟩
    · exact hq
    · exact h.req_none_of_pulse (by rw [hx]; decide)
  | waits u hx hu hq ht =>
    subst ht
    exact h.waiting hu (hx.elim id h.pulse_of_req) hq

/-- An accepted command leaves the phase it starts in, with the registers that phase reads (42_commands R152,
R153, R156). -/
theorem sequencerInv_command {w : CommandWord} {i : Instr} {s t : State} (hd : decodeCommand w = .instr i)
    (hf : s.fault = none) (hp : s.ph = .idle) (hb : s.mop = none) (hq : s.req = none)
    (h : exec i s = .next t) : SequencerInv t := by
  rcases exec_decodeCommand hd hf hp h with ⟨-, rfl⟩ | ⟨c, r, -, rfl⟩ | ⟨-, rfl⟩
  · have hr : RegistersInv { s with ph := .finalInit, cmd := .init } := by
      constructor <;> simp [Phase.isReserved, Phase.inTransmit, Phase.inFrame, Phase.readsBit]
    exact hr.sequencerInv hb hq
  · refine RegistersInv.sequencerInv ?_ hb hq
    constructor <;> cases s.guard <;> simp [Phase.isReserved, Phase.inFrame, Phase.readsBit]
  · exact (registersInv_idle rfl).sequencerInv hb hq

theorem interfere_sequencerFields (s : State) : sequencerFields (interfere s) = sequencerFields s := by
  unfold interfere
  split <;> rfl

theorem sequencerInv_afterReset (k : Config) (moves : List HostMove) :
    SequencerInv (State.afterReset k moves) :=
  (registersInv_idle rfl).sequencerInv rfl rfl

theorem StepCase.sequencerInv {s t : State} (hk : s.cfg.wellFormed = true) (h : SequencerInv s)
    (hc : StepCase s t) : SequencerInv t := by
  have taken : ∀ rest, SequencerInv { s with host := rest, done := false } := fun rest => h.congr rfl
  cases hc with
  | reset cut rest hm ht => subst ht; exact (sequencerInv_afterReset s.cfg rest).congr rfl
  | interfere rest hm ht => subst ht; exact h.congr (interfere_sequencerFields _)
  | skip m rest hm hn hd ht => subst ht; exact h.congr rfl
  | raised r rest hl hf hm hr ht => subst ht; exact h.congr rfl
  | command w i rest hm hl hf hp hb hd ht =>
    have hq : s.req = none := by have := h.waits; rw [hb] at this; simpa using this.symm
    exact sequencerInv_command (s := { s with host := rest, done := false }) hd hf hp hb hq ht
  | waited n rest hm hl hf hp hb ht => subst ht; exact h.congr rfl
  | boundary acks rest hl hf hb hp hm ht =>
    refine RunCase.sequencerInv (taken rest) ?_
    cases acks with
    | none => exact sequencerStep_cases hk hf ht
    | some k => exact heldStep_cases hk hf ht
  | waiting rest hl hf hb hq hm ht => subst ht; exact h.congr rfl
  | inside acks rest hl hf hb hm ht =>
    refine RunCase.sequencerInv (taken rest) ?_
    rw [← (taken rest).current_eq]
    exact insideStep_cases hk hf hb ht

/-- Settles O40, by the cases of a step: the updates of a phase keep what the next one reads, and what waits is
the phase's emission in the call that DLY asks for. -/
theorem stepKeepsTheSequencerInvariant : Obligations.StepKeepsTheSequencerInvariant := by
  intro s t h hs
  obtain ⟨hk, hc⟩ := step_cases hs
  exact hc.sequencerInv hk h

/-- Settles O41: after reset the block is idle and the driver free. -/
theorem resetMeetsTheSequencerInvariant : Obligations.ResetMeetsTheSequencerInvariant :=
  sequencerInv_afterReset Config.standard []

end Sys2Proof.Machine
end

section
/-! SUPPORT. The invariant of the ROM, the trace and the pin (10_state R24, R35, R36; 20_memory R56, R57;
40_driver R97; 60_exceptions R170): after reset, and under every step. -/

namespace Sys2Proof.Machine

/-! ### The events of a trace -/

theorem mem_delaysOf {n : Nat} {tr : List Stamped} : n ∈ delaysOf tr ↔ ∃ e ∈ tr, e.event = .dly n := by
  induction tr with
  | nil => simp [delaysOf]
  | cons a tr ih => obtain ⟨t, e⟩ := a; cases e <;> simp [delaysOf, ih, eq_comm]

theorem noFlt_eq_true {tr : List Stamped} : noFlt tr = true ↔ ∀ e ∈ tr, ∀ r, e.event ≠ .flt r := by
  induction tr with
  | nil => simp [noFlt]
  | cons a tr ih => obtain ⟨t, e⟩ := a; cases e <;> simp [noFlt, ih]

theorem setsOf_eq_nil {tr : List Stamped} : setsOf tr = [] ↔ ∀ e ∈ tr, ∀ l, e.event ≠ .set l := by
  induction tr with
  | nil => simp [setsOf]
  | cons a tr ih => obtain ⟨t, e⟩ := a; cases e <;> simp [setsOf, ih]

/-! ### What keeps the invariant -/

/-- The fields that the invariant depends on, the ROM and the configuration apart. -/
def historyFields (s : State) :
    List Stamped × Nat × Option FaultReason × Option Level × Bool × Bool × List (Nat × Bool) :=
  (s.trace, s.time, s.fault, s.level, s.launched, s.oe, s.oeLog)

theorem TraceInv.congr {s t : State} (h : TraceInv s) (hb : SameBuild s t)
    (e : historyFields t = historyFields s) : TraceInv t := by
  obtain ⟨hcfg, hrom⟩ := hb
  simp only [historyFields, Prod.mk.injEq] at e
  obtain ⟨htrace, htime, hfault, hlevel, hlaunched, hoe, hlog⟩ := e
  constructor
  · rw [hrom, hcfg]; exact h.rom
  · rw [htrace]; exact h.order
  · rw [htrace, htime]; exact h.past
  · rw [htrace, hcfg]; exact h.chunks
  · rw [htrace, hfault]; exact h.sound
  · rw [htrace, hlevel, hlaunched]; exact h.pin
  · rw [hlog]; exact h.oeOrder
  · rw [hlog, htime]; exact h.oePast
  · rw [hlog, hlaunched, hoe]; exact h.oe

/-- Events that a block may record while its TIME goes from that of `s` to `τ`: in order, in between, and with no
delay call above CHUNK. -/
structure Recordable (s : State) (τ : Nat) (es : List Stamped) : Prop where
  later : s.time ≤ τ
  between : ∀ e ∈ es, s.time ≤ e.time ∧ e.time ≤ τ
  order : List.Pairwise (fun a b => a.time ≤ b.time) es
  chunks : ∀ n ∈ delaysOf es, n ≤ s.cfg.chunk

/-- Recording events keeps the invariant where a fault among them is one that FAULT holds, and the pin's level is
the one they leave. -/
theorem TraceInv.append {s : State} (h : TraceInv s) {τ : Nat} {es : List Stamped} (hr : Recordable s τ es)
    {f : Option FaultReason} (hf : f = none → s.fault = none ∧ noFlt es = true) {l : Option Level}
    (hl : s.launched = true → ((setsOf (s.trace ++ es)).getLast?).map Prod.snd = l) :
    TraceInv { s with trace := s.trace ++ es, time := τ, fault := f, level := l } where
  rom := h.rom
  order := List.pairwise_append.2
    ⟨h.order, hr.order, fun a ha b hb => (h.past a ha).trans (hr.between b hb).1⟩
  past e he := (List.mem_append.1 he).elim (fun he => (h.past e he).trans hr.later) fun he => (hr.between e he).2
  chunks n hn := by
    simp only [delaysOf_append, List.mem_append] at hn
    exact hn.elim (h.chunks n) (hr.chunks n)
  sound hn := by
    obtain ⟨hs, he⟩ := hf hn
    simp only [noFlt_append, h.sound hs, he, Bool.and_self]
  pin := hl
  oeOrder := h.oeOrder
  oePast p hp := (h.oePast p hp).trans hr.later
  oe := h.oe

/-- Events that write no level leave the pin's. -/
theorem TraceInv.pin_append {s : State} (h : TraceInv s) {es : List Stamped} (hes : setsOf es = [])
    (hl : s.launched = true) : ((setsOf (s.trace ++ es)).getLast?).map Prod.snd = s.level := by
  rw [setsOf_append, hes, List.append_nil]
  exact h.pin hl

/-- PIN.OE gets a value, which its history keeps (10_state R35; 20_memory R57). -/
theorem TraceInv.setOe {s : State} (h : TraceInv s) (b : Bool) :
    TraceInv { s with oe := b, oeLog := s.oeLog ++ [(s.time, b)] } where
  rom := h.rom
  order := h.order
  past := h.past
  chunks := h.chunks
  sound := h.sound
  pin := h.pin
  oeOrder := List.pairwise_append.2 ⟨h.oeOrder, List.pairwise_singleton _ _, fun p hp q hq => by
    obtain rfl := List.mem_singleton.1 hq
    exact h.oePast p hp⟩
  oePast p hp := (List.mem_append.1 hp).elim (h.oePast p) fun hp => by
    obtain rfl := List.mem_singleton.1 hp
    exact Nat.le_refl _
  oe _ := by simp

/-- A fault is raised and recorded (60_exceptions R170). -/
theorem TraceInv.raise {s : State} (h : TraceInv s) (r : FaultReason) : TraceInv (raise r s) := by
  have hr : Recordable s s.time [⟨s.time, .flt r⟩] := ⟨Nat.le_refl _, by simp, by simp, by simp [delaysOf]⟩
  exact (h.append (f := some r) hr nofun (h.pin_append rfl)).congr ⟨rfl, rfl⟩ rfl

/-- A command completes (42_commands R151). -/
theorem TraceInv.complete {s : State} (h : TraceInv s) (c : Command) : TraceInv (complete c s) := by
  have hr : Recordable s s.time [⟨s.time, .done c⟩] := ⟨Nat.le_refl _, by simp, by simp, by simp [delaysOf]⟩
  exact (h.append hr (fun hf => ⟨hf, rfl⟩) (h.pin_append rfl)).congr ⟨rfl, rfl⟩ rfl

/-- Time passes (42_commands R158). -/
theorem TraceInv.elapse {s : State} (h : TraceInv s) (n : Nat) : TraceInv (elapse n s) := by
  have hr : Recordable s (s.time + n) [] := ⟨Nat.le_add_right _ _, by simp, by simp, by simp [delaysOf]⟩
  refine (h.append hr (fun hf => ⟨hf, rfl⟩) (h.pin_append rfl)).congr ⟨rfl, rfl⟩ ?_
  simp [historyFields, Machine.elapse]

/-- A level is written to the pin (10_state R36). -/
theorem TraceInv.pinWrite {s : State} (h : TraceInv s) (e : Level) : TraceInv (pinWrite e s) := by
  have hr : Recordable s s.time [⟨s.time, .set e⟩] := ⟨Nat.le_refl _, by simp, by simp, by simp [delaysOf]⟩
  exact (h.append hr (fun hf => ⟨hf, rfl⟩) fun _ => by simp [setsOf_append, setsOf]).congr ⟨rfl, rfl⟩ rfl

/-- The pin is configured and driven HIGH (40_driver R100). -/
theorem TraceInv.lineInit {s : State} (h : TraceInv s) : TraceInv (lineInitActions s) := by
  have ho := h.setOe true
  have hr : Recordable { s with oe := true, oeLog := s.oeLog ++ [(s.time, true)] } s.time
      (lineInitEvents s.time) :=
    ⟨Nat.le_refl _, by simp [lineInitEvents], by simp [lineInitEvents], by simp [lineInitEvents, delaysOf]⟩
  rw [lineInitActions_eq]
  refine (ho.append hr (fun hf => ⟨hf, rfl⟩) fun _ => ?_).congr ⟨rfl, rfl⟩ rfl
  simp [lineInitEvents, setsOf_append, setsOf]

/-- CONSTRUCT's actions are those of LINE_INIT, and the ROM is the configuration's before and after
(42_commands R152). -/
theorem TraceInv.construct {s : State} (h : TraceInv s) : TraceInv (constructActions s) := by
  refine h.lineInit.congr ⟨rfl, ?_⟩ ?_
  · rw [constructActions_eq, lineInitActions_eq]
    exact h.rom.symm
  · rw [constructActions_eq, lineInitActions_eq]
    rfl

/-- The events of a delay are calls of at most CHUNK (40_driver R97). -/
theorem TraceInv.delay {s t : State} (h : TraceInv s) (hd : DelayEffect s t) : TraceInv t := by
  obtain ⟨d, τ, es, q, rfl, hτ, hes, ho, -⟩ := hd
  have hr : Recordable s τ es := by
    refine ⟨hτ, fun e he => ⟨(hes e he).1, (hes e he).2.1⟩, ho, fun n hn => ?_⟩
    obtain ⟨e, he, hn⟩ := mem_delaysOf.1 hn
    obtain ⟨-, -, m, hm, hle⟩ := hes e he
    obtain rfl : m = n := by rw [hm] at hn; cases hn; rfl
    exact hle
  have event : ∀ e ∈ es, ∃ n, e.event = .dly n := fun e he => by
    obtain ⟨-, -, n, hn, -⟩ := hes e he
    exact ⟨n, hn⟩
  have hflt : noFlt es = true := noFlt_eq_true.2 fun e he r hr => by
    obtain ⟨n, hn⟩ := event e he
    simp [hn] at hr
  have hset : setsOf es = [] := setsOf_eq_nil.2 fun e he l hl => by
    obtain ⟨n, hn⟩ := event e he
    simp [hn] at hl
  exact (h.append hr (fun hf => ⟨hf, hflt⟩) (h.pin_append hset)).congr ⟨rfl, rfl⟩ rfl

theorem traceInv_afterReset (k : Config) (moves : List HostMove) : TraceInv (State.afterReset k moves) := by
  constructor <;> simp [State.afterReset, delaysOf, noFlt, setsOf]

/-! ### The invariant under a step -/

/-- A register that is read before an update may hold no value: then a fault is all that happens. -/
theorem TraceInv.withReg {s : State} (h : TraceInv s) {α : Type} {k : α → State} (hk : ∀ v, TraceInv (k v)) :
    ∀ x : ReadResult α, TraceInv (withReg x s k)
  | .value v => hk v
  | .unwritten n => h.raise (.unwritten n)

/-- The updates after a micro-operation record nothing, the fault of a register with no value, or the Done of
FINAL_INIT (41_serializer R121, R134). -/
theorem TraceInv.advance {s : State} (h : TraceInv s) : TraceInv (advance s) := by
  unfold Machine.advance
  cases s.ph with
  | preSep | trailZero =>
    refine h.withReg (fun _ => ?_) _
    exact h.congr ⟨rfl, rfl⟩ rfl
  | dataSecond =>
    refine h.withReg (fun b => ?_) _
    split <;> exact h.congr ⟨rfl, rfl⟩ rfl
  | finalInit => exact (h.complete s.cmd).congr ⟨rfl, rfl⟩ rfl
  | _ => exact h.congr ⟨rfl, rfl⟩ rfl

theorem MicroRun.traceInv {x : Issue} {s u : State} (h : TraceInv s) (hu : MicroRun x s u) : TraceInv u := by
  cases hu with
  | line hx hu => subst hu; exact h.lineInit
  | start e c hx hu => exact (h.pinWrite e).delay hu
  | resume hq hu => exact h.delay hu

theorem RunCase.traceInv {x : Issue} {s t : State} (h : TraceInv s) (hr : RunCase x s t) : TraceInv t := by
  cases hr with
  | nothing hx ht => subst ht; exact TraceInv.advance (h.congr ⟨rfl, rfl⟩ rfl)
  | faulted r hr ht => subst ht; exact h.raise r
  | completed u hu hq ht => subst ht; exact TraceInv.advance ((hu.traceInv h).congr ⟨rfl, rfl⟩ rfl)
  | waits u hx hu hq ht => subst ht; exact (hu.traceInv h).congr ⟨rfl, rfl⟩ rfl

/-- INIT and TRANSMIT record nothing at their acceptance (42_commands R153, R156). -/
theorem traceInv_command {w : CommandWord} {i : Instr} {s t : State} (h : TraceInv s)
    (hd : decodeCommand w = .instr i) (hf : s.fault = none) (hp : s.ph = .idle) (ht : exec i s = .next t) :
    TraceInv t := by
  rcases exec_decodeCommand hd hf hp ht with ⟨-, rfl⟩ | ⟨c, r, -, rfl⟩ | ⟨-, rfl⟩
  · exact h.congr ⟨rfl, rfl⟩ rfl
  · exact h.congr ⟨rfl, rfl⟩ rfl
  · have hc : TraceInv { constructActions s with cmd := .construct } := h.construct.congr ⟨rfl, rfl⟩ rfl
    exact hc.complete .construct

/-- PIN.OE is cleared in a launched block, and nothing happens before the first reset (60_exceptions R183). -/
theorem TraceInv.interfere {s : State} (h : TraceInv s) : TraceInv (interfere s) := by
  unfold Machine.interfere
  split
  · exact (h.setOe false).congr ⟨rfl, rfl⟩ rfl
  · exact h

theorem StepCase.traceInv {s t : State} (hk : s.cfg.wellFormed = true) (h : TraceInv s) (hc : StepCase s t) :
    TraceInv t := by
  have taken : ∀ rest d, TraceInv { s with host := rest, done := d } := fun rest d => h.congr ⟨rfl, rfl⟩ rfl
  cases hc with
  | reset cut rest hm ht => subst ht; exact (traceInv_afterReset s.cfg rest).congr ⟨rfl, rfl⟩ rfl
  | interfere rest hm ht => subst ht; exact (taken rest s.done).interfere
  | skip m rest hm hn hd ht => subst ht; exact taken rest s.done
  | raised r rest hl hf hm hr ht => subst ht; exact (taken rest false).raise r
  | command w i rest hm hl hf hp hb hd ht => exact traceInv_command (taken rest false) hd hf hp ht
  | waited n rest hm hl hf hp hb ht => subst ht; exact (taken rest false).elapse n
  | boundary acks rest hl hf hb hp hm ht =>
    refine RunCase.traceInv (x := issue { s with host := rest, done := false }) (taken rest false) ?_
    cases acks with
    | none => exact sequencerStep_cases hk hf ht
    | some k => exact heldStep_cases hk hf ht
  | waiting rest hl hf hb hq hm ht => subst ht; exact taken rest false
  | inside acks rest hl hf hb hm ht =>
    refine RunCase.traceInv (x := current { s with host := rest, done := false }) (taken rest false) ?_
    exact insideStep_cases hk hf hb ht

/-- Settles O43, by the cases of a step: each of them records events in order at the end of the trace, with FAULT,
PIN.LEVEL and PIN.OE as they say. -/
theorem stepKeepsTheTraceInvariant : Obligations.StepKeepsTheTraceInvariant := by
  intro s t h hs
  obtain ⟨hk, hc⟩ := step_cases hs
  exact hc.traceInv hk h

/-- Settles O44: the state after reset of any configuration meets the invariant. -/
theorem resetMeetsTheTraceInvariant : Obligations.ResetMeetsTheTraceInvariant :=
  traceInv_afterReset Config.standard []

end Sys2Proof.Machine
end

section
/-! SUPPORT. The built ROM and the values after reset (10_state R22 to R24, R39), and the reading of a register
with no value (10_state R38; 60_exceptions R170, R171). -/

namespace Sys2Proof.Machine

/-! ### The built ROM -/

/-- The multipliers of a well-formed configuration (00_scope R6). -/
theorem multipliers_of_wellFormed {k : Config} (h : k.wellFormed = true) :
    0 < k.baseUnit ∧ k.mZero = 0 ∧ k.mTick < k.mSep ∧ k.mSep < k.mLong ∧ k.mLong * k.baseUnit < 2 ^ 32 := by
  simp only [Config.wellFormed, Config.baseUnitOk, Config.multipliersOk, Config.romFits, Bool.and_eq_true,
    decide_eq_true_eq] at h
  obtain ⟨⟨⟨⟨⟨hBase, hZero, hTick, hSep⟩, hFits⟩, -⟩, -⟩, -⟩ := h
  exact ⟨hBase, hZero, hTick, hSep, hFits⟩

/-- Every class has an entry of its multiplier (10_state R23). -/
theorem build_read (k : Config) (c : DurClass) :
    (Rom.build k).read c = BitVec.ofNat 32 (k.multiplier c * k.baseUnit) := by
  cases c <;> rfl

/-- LONG is the largest class (00_scope R6). -/
theorem multiplier_le_mLong {k : Config} (h : k.wellFormed = true) (c : DurClass) :
    k.multiplier c ≤ k.mLong := by
  obtain ⟨-, hZero, hTick, hSep, -⟩ := multipliers_of_wellFormed h
  cases c <;> simp only [Config.multiplier] <;> omega

/-- No entry overflows (10_state R24). -/
theorem build_read_toNat {k : Config} (h : k.wellFormed = true) (c : DurClass) :
    ((Rom.build k).read c).toNat = k.multiplier c * k.baseUnit := by
  obtain ⟨-, -, -, -, hFits⟩ := multipliers_of_wellFormed h
  rw [build_read, BitVec.toNat_ofNat]
  exact Nat.mod_eq_of_lt ((Nat.mul_le_mul_right _ (multiplier_le_mLong h c)).trans_lt hFits)

/-- Entries are ordered as their multipliers. -/
theorem build_read_lt {k : Config} (h : k.wellFormed = true) {c d : DurClass}
    (hcd : k.multiplier c < k.multiplier d) : ((Rom.build k).read c).toNat < ((Rom.build k).read d).toNat := by
  rw [build_read_toNat h, build_read_toNat h]
  exact Nat.mul_lt_mul_of_pos_right hcd (multipliers_of_wellFormed h).1

/-- Settles O8: LONG's product fits, and it is the largest. -/
theorem builtRomHoldsTheExactProducts : Obligations.BuiltRomHoldsTheExactProducts := by
  intro k h
  obtain ⟨-, hZero, hTick, hSep, -⟩ := multipliers_of_wellFormed h
  refine ⟨?_, build_read_toNat h, build_read_lt (c := .tick) (d := .sep) h hTick,
    build_read_lt (c := .sep) (d := .long) h hSep⟩
  simp [Rom.build, hZero]

/-- Settles O11: the state after reset, evaluated in the default configuration. -/
theorem resetStateHoldsTheSpecValues : Obligations.ResetStateHoldsTheSpecValues :=
  ⟨rfl, rfl, rfl, rfl, rfl, rfl, rfl, rfl, rfl, rfl, rfl, rfl⟩

/-! ### A register with no value -/

/-- A step with no move left. -/
theorem step_of_no_move {s : State} (hk : s.cfg.wellFormed = true) (hh : s.host = []) : step s = quietStep s := by
  rw [step, arbitrate, configured_eq hk]
  simp only [hh]

/-- A launched block without a fault goes on when no move is left. -/
theorem quietStep_of_noFault {s : State} (hl : s.launched = true) (hf : s.fault = none) :
    quietStep s = whenLive s waitInside sequencerStep := by
  simp only [quietStep, hl, hf, if_true]

/-- A step of a live block in which nothing is presented is the sequencer's (41_serializer R120). -/
theorem step_of_live_quiet {s : State} (h : Live s) (hh : s.host = []) (hp : s.ph.isReserved = false) :
    step s = sequencerStep { s with done := false } := by
  rw [step_of_no_move h.configured hh, quietStep_of_noFault h.launched h.noFault]
  exact whenLive_eq h.launched h.noFault h.free hp _ _

/-- Inside a micro-operation an `ack` answers the open call (40_driver R102). -/
theorem step_of_ack_inside {s : State} {rest : List HostMove} (hk : s.cfg.wellFormed = true)
    (hl : s.launched = true) (hf : s.fault = none) (hm : s.mop ≠ none) (hh : s.host = .ack :: rest) :
    step s = insideStep none { s with host := rest, done := false } := by
  rw [step, arbitrate, configured_eq hk, hh]
  simp only [whenLive, hl, faultOut, hf, Option.isSome_iff_ne_none.2 hm, Bool.not_true, Option.isSome_none,
    Bool.or_self, Bool.false_eq_true, if_false, if_true]

/-- A data phase that reads a register with no value runs no micro-operation. -/
theorem sequencerStep_of_unwritten {s : State} {r : RegName} (h : issue s = .unwritten r) :
    sequencerStep s = .next (raise (.unwritten r) s) := by
  rw [sequencerStep, h]
  rfl

/-- The data phases read CODE[BIT] (41_serializer R128, R129). -/
theorem issue_of_codeBit_unwritten {s : State} {r : RegName} (hp : s.ph = .dataFirst ∨ s.ph = .dataSecond)
    (h : codeBit s = .unwritten r) : issue s = .unwritten r := by
  rcases hp with hp | hp <;> simp only [issue, hp, h, dataHalf]

theorem codeBit_code_none {s : State} (h : s.code = none) : codeBit s = .unwritten .code := by
  simp only [codeBit, h, readReg]

/-- CODE is read before BIT (log 4). -/
theorem codeBit_bit_none {s : State} (hc : s.code ≠ none) (hb : s.bit = none) :
    codeBit s = .unwritten .bit := by
  obtain ⟨c, hc⟩ := Option.ne_none_iff_exists'.1 hc
  simp only [codeBit, hc, hb, readReg]

/-- The step of a data phase that reads a register with no value. -/
theorem step_of_codeBit_unwritten {s : State} {r : RegName} (h : Live s) (hh : s.host = [])
    (hp : s.ph = .dataFirst ∨ s.ph = .dataSecond) (hr : codeBit s = .unwritten r) :
    step s = .next (raise (.unwritten r) s) := by
  have hres : s.ph.isReserved = false := by rcases hp with hp | hp <;> rw [hp] <;> rfl
  rw [step_of_live_quiet h hh hres]
  exact sequencerStep_of_unwritten (s := { s with done := false }) (issue_of_codeBit_unwritten hp hr)

/-- An emission that the sequencer issues runs to its end where every delay call is answered (40_driver R94). -/
theorem runIssue_of_pulse {x : Issue} {e : Level} {c : DurClass} {s : State} (hk : s.cfg.wellFormed = true)
    (hx : x.pulse = some (e, c)) : runIssue x s = .next (emission e c s) := by
  cases x with
  | nothing | unwritten r | badPhase p => cases hx
  | literalTrailZero => cases hx; rfl
  | word w =>
    cases hd : decodeMicro w with
    | illegal err => simp [Issue.pulse, hd, Decoded.toOption] at hx
    | instr i =>
      simp only [Issue.pulse, hd, Decoded.toOption, Option.bind_some] at hx
      cases i with
      | construct | init | transmit code rep | lineInit => cases hx
      | emit level cls =>
        cases hx
        simp only [runIssue, runWord, hd, exec, execEmit]
        exact configured_eq hk _

/-- The updates follow an emission that the phase issues (41_serializer R120). -/
theorem sequencerStep_of_pulse {s : State} {e : Level} {c : DurClass} (hk : s.cfg.wellFormed = true)
    (hf : s.fault = none) (hx : (issue s).pulse = some (e, c)) :
    sequencerStep s = .next (advance { emission e c s with mop := none }) := by
  have hu : faultOut (emission e c s) = false := by
    rw [emission_eq e c s (chunk_pos hk)]
    simp [faultOut, hf]
  rw [sequencerStep, runIssue_of_pulse hk hx]
  simp [thenAdvance, hu]

/-- The phases that test REP issue an emission (41_serializer R126, R131). -/
theorem issue_pulse_of_testsRep {s : State} (hp : s.ph = .preSep ∨ s.ph = .trailZero) :
    ∃ e c, (issue s).pulse = some (e, c) := by
  rcases hp with hp | hp
  · exact ⟨.low, .sep, by simp only [issue, hp]; rfl⟩
  · cases ht : s.cfg.trailZero with
    | law => exact ⟨.high, .zero, by simp only [issue, hp, ht]; rfl⟩
    | literal4c => exact ⟨.low, .zero, by simp only [issue, hp, ht]; rfl⟩

/-- A phase that tests REP, where REP holds no value: the emission, then the fault (log 4). -/
theorem sequencerStep_of_rep_none {s : State} (hk : s.cfg.wellFormed = true) (hf : s.fault = none)
    (hp : s.ph = .preSep ∨ s.ph = .trailZero) (hr : s.rep = none) :
    ∃ u, sequencerStep s = .next (raise (.unwritten .rep) u) ∧ u.ph = s.ph ∧ u.rep = none := by
  obtain ⟨e, c, hx⟩ := issue_pulse_of_testsRep hp
  have hu := emission_eq e c s (chunk_pos hk)
  refine ⟨{ emission e c s with mop := none }, ?_, by rw [hu], by rw [hu]; exact hr⟩
  rw [sequencerStep_of_pulse hk hf hx, advance_rep_none]
  · rw [hu]; exact hp
  · rw [hu]; exact hr

/-- The step of such a phase. -/
theorem step_of_rep_none {s : State} (h : Live s) (hh : s.host = []) (hp : s.ph = .preSep ∨ s.ph = .trailZero)
    (hr : s.rep = none) : ∃ u, step s = .next (raise (.unwritten .rep) u) ∧ u.ph = s.ph ∧ u.rep = none := by
  have hres : s.ph.isReserved = false := by rcases hp with hp | hp <;> rw [hp] <;> rfl
  rw [step_of_live_quiet h hh hres]
  exact sequencerStep_of_rep_none (s := { s with done := false }) h.configured h.noFault hp hr

/-- Settles O36, by the registers in the order in which the phases read them; the delay call reads DLY. -/
theorem readingARegisterWithNoValueFaults : Obligations.ReadingARegisterWithNoValueFaults := by
  refine ⟨fun s h hh => ⟨fun hp hc => ?_, fun hp hc hb => ?_, fun hp hr => ?_⟩,
    fun s rest hk hl hf hm hq hd hh => ?_⟩
  · exact step_of_codeBit_unwritten h hh hp (codeBit_code_none hc)
  · exact step_of_codeBit_unwritten h hh hp (codeBit_bit_none hc hb)
  · obtain ⟨u, hu, hph, hrep⟩ := step_of_rep_none h hh hp hr
    exact ⟨_, hu, rfl, hph, hrep, by simp⟩
  · rw [step_of_ack_inside hk hl hf hm hh, insideStep, if_pos (Option.isSome_iff_ne_none.2 hq), resumeStep,
      withReg_readReg_none hd]
    rfl

end Sys2Proof.Machine
end

section
/-! SUPPORT. The trace and TIME under a step (20_memory R56, R58, R59), and the real duration of delay calls
(40_driver R102, R103). -/

namespace Sys2Proof.Machine

/-! ### A trace that grows at its end -/

/-- The trace of `t` begins with that of `s`, TIME has not gone back, and no launch has ended. -/
def Grows (s t : State) : Prop :=
  (∃ es, t.trace = s.trace ++ es) ∧ s.time ≤ t.time ∧ t.ended = s.ended

/-- Two growing moves in a row. -/
theorem Grows.trans {s u t : State} (hu : Grows s u) (ht : Grows u t) : Grows s t := by
  obtain ⟨⟨es, htr⟩, hτ, hend⟩ := hu
  obtain ⟨⟨es', htr'⟩, hτ', hend'⟩ := ht
  exact ⟨⟨es ++ es', by rw [htr', htr, List.append_assoc]⟩, hτ.trans hτ', hend'.trans hend⟩

/-- Whatever leaves the trace, TIME and the ended launches grows. -/
theorem Grows.same {s t : State} (htr : t.trace = s.trace) (hτ : t.time = s.time) (hend : t.ended = s.ended) :
    Grows s t :=
  ⟨⟨[], by rw [htr, List.append_nil]⟩, hτ.ge, hend⟩

theorem record_grows (e : Event) (s : State) : Grows s (record e s) := ⟨⟨_, rfl⟩, Nat.le_refl _, rfl⟩

theorem lineInitActions_grows (s : State) : Grows s (lineInitActions s) := by
  rw [lineInitActions_eq]
  exact ⟨⟨_, rfl⟩, Nat.le_refl _, rfl⟩

theorem constructActions_grows (s : State) : Grows s (constructActions s) := by
  rw [constructActions_eq]
  exact ⟨⟨_, rfl⟩, Nat.le_refl _, rfl⟩

theorem DelayEffect.grows {s t : State} (h : DelayEffect s t) : Grows s t := by
  obtain ⟨d, τ, es, q, rfl, hτ, -⟩ := h
  exact ⟨⟨es, rfl⟩, hτ, rfl⟩

theorem AdvanceEffect.grows {s t : State} (h : AdvanceEffect s t) : Grows s t := by
  obtain ⟨p, r, b, f, dn, es, rfl, -⟩ := h
  exact ⟨⟨es, rfl⟩, Nat.le_refl _, rfl⟩

theorem MicroRun.grows {x : Issue} {s u : State} (h : MicroRun x s u) : Grows s u := by
  cases h with
  | line hx hu => subst hu; exact lineInitActions_grows s
  | start e c hx hu => exact Grows.trans (record_grows (.set e) s) hu.grows
  | resume hq hu => exact hu.grows

theorem RunCase.grows {x : Issue} {s t : State} (h : RunCase x s t) : Grows s t := by
  cases h with
  | nothing hx ht => subst ht; exact (advance_effect { s with mop := none }).grows
  | faulted r hr ht => subst ht; exact record_grows (.flt r) s
  | completed u hu hq ht => subst ht; exact hu.grows.trans (advance_effect { u with mop := none }).grows
  | waits u hx hu hq ht => subst ht; exact hu.grows

/-- Interference records no event (log 13). -/
theorem interfere_grows (s : State) : Grows s (interfere s) := by
  unfold interfere
  split <;> exact .same rfl rfl rfl

/-- Only CONSTRUCT records anything at its acceptance (42_commands R152, R153, R156). -/
theorem command_grows {w : CommandWord} {i : Instr} {s t : State} (hd : decodeCommand w = .instr i)
    (hf : s.fault = none) (hp : s.ph = .idle) (ht : exec i s = .next t) : Grows s t := by
  rcases exec_decodeCommand hd hf hp ht with ⟨-, rfl⟩ | ⟨c, r, -, rfl⟩ | ⟨-, rfl⟩
  · exact .same rfl rfl rfl
  · exact .same rfl rfl rfl
  · exact (constructActions_grows s).trans (record_grows (.done .construct) _)

/-- Every case of a step but that of `rst` lets the trace grow. -/
theorem StepCase.grows {s t : State} (hk : s.cfg.wellFormed = true) (h : StepCase s t)
    (hr : ∀ cut rest, s.host ≠ .rst cut :: rest) : Grows s t := by
  cases h with
  | reset cut rest hm ht => exact absurd hm (hr cut rest)
  | interfere rest hm ht => subst ht; exact interfere_grows { s with host := rest }
  | skip m rest hm hn hd ht => subst ht; exact .same rfl rfl rfl
  | raised r rest hl hf hm hr ht => subst ht; exact record_grows (.flt r) s
  | command w i rest hm hl hf hp hb hd ht =>
    exact command_grows (s := { s with host := rest, done := false }) hd hf hp ht
  | waited n rest hm hl hf hp hb ht => subst ht; exact ⟨⟨[], by simp⟩, Nat.le_add_right _ _, rfl⟩
  | boundary acks rest hl hf hb hp hm ht =>
    cases acks with
    | none => exact (sequencerStep_cases (s := { s with host := rest, done := false }) hk hf ht).grows
    | some k => exact (heldStep_cases (s := { s with host := rest, done := false }) hk hf ht).grows
  | waiting rest hl hf hb hq hm ht => subst ht; exact .same rfl rfl rfl
  | inside acks rest hl hf hb hm ht =>
    exact (insideStep_cases (s := { s with host := rest, done := false }) hk hf hb ht).grows

/-- Settles O47, by the cases of a step: each but that of `rst` appends events and lets time pass or stand. -/
theorem traceOnlyGrowsAtItsEnd : Obligations.TraceOnlyGrowsAtItsEnd := by
  intro s t hr h
  obtain ⟨hk, hc⟩ := step_cases h
  exact hc.grows hk hr

/-! ### TIME advances by delay calls -/

/-- From `s` to `t` the trace grows, and TIME advances by the delay arguments it grows by (20_memory R58). -/
def TimedByDelays (s t : State) : Prop :=
  ∃ es, t.trace = s.trace ++ es ∧ t.time = s.time + (delaysOf es).sum

/-- Two moves in a row whose delay calls account for TIME. -/
theorem TimedByDelays.trans {s u t : State} (hu : TimedByDelays s u) (ht : TimedByDelays u t) :
    TimedByDelays s t := by
  obtain ⟨es, htr, hτ⟩ := hu
  obtain ⟨es', htr', hτ'⟩ := ht
  refine ⟨es ++ es', by rw [htr', htr, List.append_assoc], ?_⟩
  rw [hτ', hτ, delaysOf_append, List.sum_append, Nat.add_assoc]

/-- Whatever leaves the trace and TIME. -/
theorem TimedByDelays.same {s t : State} (htr : t.trace = s.trace) (hτ : t.time = s.time) : TimedByDelays s t :=
  ⟨[], by rw [htr, List.append_nil], by simpa [delaysOf] using hτ⟩

theorem raise_timedByDelays (r : FaultReason) (s : State) : TimedByDelays s (raise r s) :=
  ⟨[⟨s.time, .flt r⟩], rfl, rfl⟩

theorem complete_timedByDelays (c : Command) (s : State) : TimedByDelays s (complete c s) :=
  ⟨[⟨s.time, .done c⟩], rfl, rfl⟩

/-- A line initialisation takes no time (40_driver R100). -/
theorem lineInitActions_timedByDelays (s : State) : TimedByDelays s (lineInitActions s) := by
  rw [lineInitActions_eq]
  exact ⟨lineInitEvents s.time, rfl, rfl⟩

/-- The arguments of an emission's delay calls are 40_driver R97's. -/
theorem delaysOf_emissionEvents (k : Config) (rom : Rom) (e : Level) (c : DurClass) (t : Nat) :
    delaysOf (emissionEvents k rom e c t) = chunkArgs k.chunk (emissionTime k rom c) :=
  delaysOf_delayEvents _ t

/-- An emission takes the sum of its delay calls (40_driver R97, R99). -/
theorem emission_timedByDelays (e : Level) (c : DurClass) {s : State} (hk : s.cfg.wellFormed = true) :
    TimedByDelays s (emission e c s) := by
  rw [emission_eq e c s (chunk_pos hk)]
  exact ⟨emissionEvents s.cfg s.rom e c s.time, rfl, by rw [delaysOf_emissionEvents, chunkArgs_sum]⟩

/-- A register that is read before an update may hold no value: then a fault is all that happens. -/
theorem withReg_timedByDelays {α : Type} {s : State} {k : α → State} (hk : ∀ v, TimedByDelays s (k v)) :
    ∀ x : ReadResult α, TimedByDelays s (withReg x s k)
  | .value v => hk v
  | .unwritten n => raise_timedByDelays (.unwritten n) s

/-- The updates after a micro-operation call no delay (41_serializer R121). -/
theorem advance_timedByDelays (s : State) : TimedByDelays s (advance s) := by
  unfold advance
  cases s.ph with
  | preSep | trailZero =>
    refine withReg_timedByDelays (fun _ => ?_) _
    exact .same rfl rfl
  | dataSecond =>
    refine withReg_timedByDelays (fun b => ?_) _
    split <;> exact .same rfl rfl
  | finalInit => exact complete_timedByDelays s.cmd { s with ph := .idle }
  | _ => exact .same rfl rfl

/-- A micro-operation that runs to its end takes the sum of its delay calls. -/
theorem runIssue_timedByDelays {x : Issue} {s u : State} (hk : s.cfg.wellFormed = true)
    (h : runIssue x s = .next u) : TimedByDelays s u := by
  cases x with
  | nothing => cases h; exact .same rfl rfl
  | word w =>
    simp only [runIssue, runWord] at h
    cases hd : decodeMicro w with
    | illegal e => rw [hd] at h; cases h; exact raise_timedByDelays _ s
    | instr i =>
      rw [hd] at h
      rcases exec_decodeMicro hd h with ⟨b, c, -, rfl⟩ | ⟨-, rfl⟩
      · exact emission_timedByDelays _ _ hk
      · exact lineInitActions_timedByDelays s
  | literalTrailZero => cases h; exact emission_timedByDelays _ _ hk
  | unwritten n => cases h; exact raise_timedByDelays _ s
  | badPhase p => cases h; exact raise_timedByDelays _ s

/-- What the updates can follow. -/
theorem thenAdvance_next {x : Result} {t : State} (h : thenAdvance x = .next t) :
    ∃ u, x = .next u ∧ (t = u ∨ t = advance { u with mop := none }) := by
  cases x with
  | next u =>
    simp only [thenAdvance, Host.Outcome.next.injEq] at h
    refine ⟨u, rfl, ?_⟩
    split at h
    · exact .inl h.symm
    · exact .inr h.symm
  | fault r => cases h
  | refused r => cases h

theorem sequencerStep_timedByDelays {s t : State} (hk : s.cfg.wellFormed = true)
    (h : sequencerStep s = .next t) : TimedByDelays s t := by
  obtain ⟨u, hu, rfl | rfl⟩ := thenAdvance_next h
  · exact runIssue_timedByDelays hk hu
  · exact (runIssue_timedByDelays hk hu).trans (advance_timedByDelays { u with mop := none })

/-- A step in which nothing is presented, with a move for it or with none left. -/
theorem Live.step_of_nothing_presented {s : State} (h : Live s)
    (hh : s.host = [] ∨ ∃ rest, s.host = .pass :: rest) :
    step s = whenLive { s with host := s.host.tail } waitInside sequencerStep := by
  rcases hh with hh | ⟨rest, hh⟩
  · rw [step_of_no_move h.configured hh, quietStep_of_noFault h.launched h.noFault, hh, List.tail_nil, ← hh]
  · rw [step, arbitrate, configured_eq h.configured, hh]
    rfl

/-- From a step boundary a step in which nothing is presented takes the sum of its delay calls. -/
theorem Live.step_timedByDelays {s t : State} (h : Live s) (hh : s.host = [] ∨ ∃ rest, s.host = .pass :: rest)
    (ht : step s = .next t) : TimedByDelays s t := by
  rw [h.step_of_nothing_presented hh] at ht
  rcases whenLive_next ht with ⟨hdead, -⟩ | ⟨-, -, hm, -⟩ | ⟨-, -, -, -, rfl⟩ | ⟨-, -, -, -, ht⟩
  · simp [h.launched, h.noFault] at hdead
  · exact absurd h.free hm
  · exact raise_timedByDelays (.badPhase s.ph) s
  · exact sequencerStep_timedByDelays (s := { s with host := s.host.tail, done := false }) h.configured ht

/-! ### Real durations -/

/-- A delay call of argument 0 takes no real time, and any other is off by at most DELAY_ERR (40_driver R103). -/
theorem closeTo_bounds {err n d : Nat} (h : closeTo err n d = true) :
    (n = 0 ∧ d = 0) ∨ (n ≠ 0 ∧ n ≤ d + err ∧ d ≤ n + err) := by
  unfold closeTo at h
  split at h
  · exact .inl ⟨‹_›, by simpa using h⟩
  · exact .inr ⟨‹_›, by simpa using h⟩

/-- The errors of a list of delay calls add up. -/
theorem sum_stray {err : Nat} {args real : List Nat}
    (h : List.Forall₂ (fun n d => closeTo err n d = true) args real) :
    args.sum ≤ real.sum + (args.filter (· ≠ 0)).length * err ∧
    real.sum ≤ args.sum + (args.filter (· ≠ 0)).length * err := by
  induction h with
  | nil => simp
  | @cons n d args real hnd _ ih =>
    rcases closeTo_bounds hnd with ⟨rfl, rfl⟩ | ⟨hn, hle, hge⟩
    · simpa using ih
    · simp only [List.sum_cons, List.filter_cons, hn, ne_eq, not_false_eq_true, decide_true, if_true,
        List.length_cons, Nat.succ_mul]
      simp only [ne_eq] at ih
      omega

/-- Settles O56: TIME advances by the delay calls' arguments, and their errors add up. -/
theorem realTimeStraysByAtMostTheErrorPerCall : Obligations.RealTimeStraysByAtMostTheErrorPerCall := by
  intro s t h
  have timed : TimedByDelays s t := by
    rcases h with ⟨b, cls, h⟩ | ⟨hlive, hh, h⟩
    · simp only [exec, execEmit] at h
      obtain ⟨hk, ht⟩ := configured_next h
      cases ht
      exact emission_timedByDelays (phys b) cls hk
    · exact hlive.step_timedByDelays hh h
  obtain ⟨es, htr, hτ⟩ := timed
  refine ⟨es, htr, hτ, fun real hreal => ?_⟩
  obtain ⟨hle, hge⟩ := sum_stray hreal
  omega

end Sys2Proof.Machine
end

section
/-! SUPPORT. The waveform of a trace and its normalized form (20_memory R57, R59; 70_reset_and_hazards R195). -/

namespace Sys2Proof.Machine

/-! ### The line -/

/-- An emission marks the line once, at its start (40_driver R94). -/
@[simp] theorem marksOf_emissionEvents (k : Config) (rom : Rom) (e : Level) (c : DurClass) (t : Nat) :
    marksOf (emissionEvents k rom e c t) = [(t, some e)] := by
  simp [emissionEvents, marksOf]

/-- From the last level write on, the line has its level where the pin is driven. -/
theorem lineOf_append_of_marksOf {tr es : List Stamped} {oe : List (Nat × Bool)} {t τ : Nat} {e : Level}
    (hflt : noFlt tr = true) (hes : marksOf es = [(t, some e)]) (ht : t ≤ τ) (hoe : oeOf oe τ = true) :
    lineOf (tr ++ es) oe τ = some e := by
  rw [lineOf, if_pos hoe, marksOf_append _ _ hflt, hes, lastAt_snoc, if_pos ht]
  rfl

/-- Settles O17: the emission's level write is the last, and a delay leaves PIN.OE's history. -/
theorem lineHoldsTheEmissionsLevel : Obligations.LineHoldsTheEmissionsLevel := by
  intro b cls s τ hk hflt hτ _ hoe
  refine ⟨emission (phys b) cls s, by rw [exec, execEmit, configured_eq hk], ?_⟩
  have hline : lineAt (emission (phys b) cls s) τ = some (phys b) := by
    rw [emission_eq _ _ _ (chunk_pos hk)]
    exact lineOf_append_of_marksOf hflt (marksOf_emissionEvents ..) hτ hoe
  rw [hline]
  cases b <;> rfl

/-- Two times that no stamp tells apart have the same last value. -/
theorem lastAt_congr {α : Type} {l : List (Nat × α)} {x y : Nat} (h : ∀ t ∈ l.map Prod.fst, t ≤ x ↔ t ≤ y) :
    lastAt x l = lastAt y l := by
  have : (l.filter fun p => p.1 ≤ x) = l.filter fun p => p.1 ≤ y :=
    List.filter_congr fun p hp => by simp [h p.1 (List.mem_map_of_mem hp)]
  rw [lastAt, lastAt, this]

/-- Between two change times the line stays as it is. -/
theorem lineOf_congr {tr : List Stamped} {oe : List (Nat × Bool)} {x y : Nat}
    (h : ∀ t ∈ changeTimes tr oe, t ≤ x ↔ t ≤ y) : lineOf tr oe x = lineOf tr oe y := by
  have hmarks : lastAt x (marksOf tr) = lastAt y (marksOf tr) :=
    lastAt_congr fun t ht => h t (mem_changeTimes.2 (.inl ht))
  have hoe : lastAt x oe = lastAt y oe := lastAt_congr fun t ht => h t (mem_changeTimes.2 (.inr ht))
  rw [lineOf, lineOf, oeOf, oeOf, hmarks, hoe]

/-- The line changes at no time to come. -/
theorem TraceInv.changeTimes_le {s : State} (h : TraceInv s) : ∀ t ∈ changeTimes s.trace s.oeLog, t ≤ s.time := by
  intro t ht
  rcases mem_changeTimes.1 ht with ht | ht
  · obtain ⟨e, he, rfl⟩ := exists_of_mem_marksOf ht
    exact h.past e he
  · obtain ⟨p, hp, rfl⟩ := List.mem_map.1 ht
    exact h.oePast p hp

theorem TraceInv.changeTimes_sorted {s : State} (h : TraceInv s) :
    List.Pairwise (· ≤ ·) (changeTimes s.trace s.oeLog) :=
  Machine.changeTimes_sorted _ (marksOf_sorted h.order)

/-- PIN.OE from now on. -/
theorem TraceInv.oeOf_of_time_le {s : State} (h : TraceInv s) (hl : s.launched = true) {τ : Nat}
    (hτ : s.time ≤ τ) : oeOf s.oeLog τ = s.oe := by
  rw [oeOf, lastAt_of_le fun p hp => (h.oePast p hp).trans hτ, h.oe hl]
  rfl

/-- The line from now on: the pin's level while it is driven, with no fault recorded. -/
theorem TraceInv.lineAt_of_time_le {s : State} (h : TraceInv s) (hl : s.launched = true) (hf : s.fault = none)
    {τ : Nat} (hτ : s.time ≤ τ) : lineAt s τ = if s.oe = true then s.level else none := by
  have hmarks : (lastAt τ (marksOf s.trace)).join = s.level := by
    rw [lastAt_of_le fun p hp => ?_, marksOf_eq_setsOf _ (h.sound hf), ← h.pin hl]
    · cases hs : (setsOf s.trace).getLast? <;> simp [hs]
    · obtain ⟨e, he, hep⟩ := exists_of_mem_marksOf (List.mem_map_of_mem hp)
      exact hep ▸ (h.past e he).trans hτ
  rw [lineAt, lineOf, h.oeOf_of_time_le hl hτ, hmarks]

/-! ### The segments of a normalized waveform -/

/-- The level that comes first where the segments `l` stand before `tail`. -/
def firstLevel (tail : Option Level) (l : List (Option Level × Nat)) : Option Level :=
  (l.head?.map Prod.fst).getD tail

/-- Everything that putting a segment before a waveform can give: nothing new for a segment of no length or of the
open-ended level alone, a longer first segment, or a new one. -/
theorem Wave.push_cases (e : Option Level) (n : Nat) (w : Wave) :
    (n = 0 ∧ w.push e n = w) ∨
    (w.segments = [] ∧ w.tail = e ∧ w.push e n = w) ∨
    (n ≠ 0 ∧ ∃ m rest, w.segments = (e, m) :: rest ∧ w.push e n = { w with segments := (e, n + m) :: rest }) ∨
    (n ≠ 0 ∧ e ≠ firstLevel w.tail w.segments ∧ w.push e n = { w with segments := (e, n) :: w.segments }) := by
  obtain ⟨segs, tl⟩ := w
  by_cases hn : n = 0
  · exact .inl ⟨hn, if_pos hn⟩
  cases segs with
  | nil =>
    by_cases he : tl = e
    · exact .inr (.inl ⟨rfl, he, by simp [Wave.push, he]⟩)
    · exact .inr (.inr (.inr ⟨hn, fun h => he h.symm, by simp [Wave.push, hn, he]⟩))
  | cons a rest =>
    obtain ⟨e', m⟩ := a
    by_cases he : e' = e
    · exact .inr (.inr (.inl ⟨hn, m, rest, by simp [he], by simp [Wave.push, hn, he]⟩))
    · exact .inr (.inr (.inr ⟨hn, fun h => he h.symm, by simp [Wave.push, hn, he]⟩))

/-- Where a segment is put before a waveform its level comes first. -/
theorem Wave.levelAt_push (e : Option Level) (n : Nat) (w : Wave) (k : Nat) :
    (w.push e n).levelAt k = if k < n then e else w.levelAt (k - n) := by
  rcases w.push_cases e n with ⟨rfl, hw⟩ | ⟨hs, rfl, hw⟩ | ⟨-, m, rest, hs, hw⟩ | ⟨-, -, hw⟩
  · simp [hw]
  · simp [hw, Wave.levelAt, hs, segmentLevel]
  · rw [hw]
    by_cases hk : k < n
    · simp [Wave.levelAt, segmentLevel, hk, Nat.lt_add_right m hk]
    · have hm : k - n < m ↔ k < n + m := by omega
      simp [Wave.levelAt, hs, segmentLevel, hk, hm, Nat.sub_sub]
  · rw [hw]
    rfl

@[simp] theorem Wave.tail_push (e : Option Level) (n : Nat) (w : Wave) : (w.push e n).tail = w.tail := by
  rcases w.push_cases e n with ⟨-, hw⟩ | ⟨-, -, hw⟩ | ⟨-, m, rest, -, hw⟩ | ⟨-, -, hw⟩ <;> rw [hw]

/-- What `maximal` asks of the first segment and of those after it. -/
theorem maximal_cons {tail e : Option Level} {n : Nat} {l : List (Option Level × Nat)} :
    maximal tail ((e, n) :: l) = true ↔ n ≠ 0 ∧ e ≠ firstLevel tail l ∧ maximal tail l = true := by
  cases l with
  | nil => simp [maximal, firstLevel]
  | cons a l => simp [maximal, firstLevel, and_assoc]

/-- Putting a segment before a waveform keeps its segments maximal. -/
theorem Wave.maximal_push (e : Option Level) (n : Nat) {w : Wave} (h : maximal w.tail w.segments = true) :
    maximal (w.push e n).tail (w.push e n).segments = true := by
  rcases w.push_cases e n with ⟨-, hw⟩ | ⟨-, -, hw⟩ | ⟨hn, m, rest, hs, hw⟩ | ⟨hn, he, hw⟩
  · rwa [hw]
  · rwa [hw]
  · rw [hs, maximal_cons] at h
    rw [hw]
    exact maximal_cons.2 ⟨by omega, h.2⟩
  · rw [hw]
    exact maximal_cons.2 ⟨hn, he, h⟩

/-- Every waveform made of marks is maximal. -/
theorem maximal_waveOf (l : List (Nat × Option Level)) : maximal (waveOf l).tail (waveOf l).segments = true := by
  induction l using waveOf.induct with
  | case1 => rfl
  | case2 => rfl
  | case3 t e t' e' rest ih => exact Wave.maximal_push e (t' - t) ih

/-- The open-ended last segment has the last mark's level. -/
theorem waveOf_tail (l : List (Nat × Option Level)) : (waveOf l).tail = ((l.getLast?).map Prod.snd).join := by
  induction l using waveOf.induct with
  | case1 => rfl
  | case2 => rfl
  | case3 t e t' e' rest ih => rw [waveOf, Wave.tail_push, ih, List.getLast?_cons_cons]

/-- The waveform of a level that changes only at times of a list in order gives it back. -/
theorem levelAt_waveOf {f : Nat → Option Level} (ts : List Nat) : ∀ (t0 n : Nat),
    List.Pairwise (· ≤ ·) (t0 :: ts) →
    (∀ x y, t0 ≤ x → t0 ≤ y → (∀ t ∈ ts, t ≤ x ↔ t ≤ y) → f x = f y) →
    (waveOf ((t0 :: ts).map fun t => (t, f t))).levelAt n = f (t0 + n) := by
  induction ts with
  | nil => exact fun t0 n _ hf => hf _ _ (Nat.le_refl _) (Nat.le_add_right _ _) (by simp)
  | cons t1 ts ih =>
    intro t0 n hs hf
    obtain ⟨h0, hs⟩ := List.pairwise_cons.1 hs
    have h01 : t0 ≤ t1 := h0 t1 List.mem_cons_self
    have later : ∀ x y, t1 ≤ x → t1 ≤ y → (∀ t ∈ ts, t ≤ x ↔ t ≤ y) → f x = f y := fun x y hx hy h =>
      hf x y (h01.trans hx) (h01.trans hy) (List.forall_mem_cons.2 ⟨iff_of_true hx hy, h⟩)
    have hwave : waveOf ((t0 :: t1 :: ts).map fun t => (t, f t))
        = (waveOf ((t1 :: ts).map fun t => (t, f t))).push (f t0) (t1 - t0) := rfl
    rw [hwave, Wave.levelAt_push, ih t1 _ hs later]
    split_ifs with hn
    · refine hf _ _ (Nat.le_refl _) (Nat.le_add_right _ _) fun t ht => ?_
      have : t1 ≤ t := (List.mem_cons.1 ht).elim (fun h => h.ge) ((List.pairwise_cons.1 hs).1 t)
      omega
    · congr 1
      omega

/-- In a trace in order the normalized waveform has the line's level at every time from its start on. -/
theorem levelAt_normalized {tr : List Stamped} {oe : List (Nat × Bool)} {t0 : Nat} (n : Nat)
    (hs : List.Pairwise (· ≤ ·) (changeTimes tr oe)) (h0 : (changeTimes tr oe).head? = some t0) :
    (normalized tr oe).levelAt n = lineOf tr oe (t0 + n) := by
  obtain ⟨ts, hts⟩ := List.head?_eq_some_iff.1 h0
  rw [hts] at hs
  rw [normalized, hts]
  refine levelAt_waveOf ts t0 n hs fun x y hx hy h => lineOf_congr ?_
  rw [hts]
  exact List.forall_mem_cons.2 ⟨iff_of_true hx hy, h⟩

/-- The open-ended last segment has the line's level after the last change. -/
theorem normalized_tail {tr : List Stamped} {oe : List (Nat × Bool)} {τ : Nat}
    (hs : List.Pairwise (· ≤ ·) (changeTimes tr oe)) (hτ : ∀ t ∈ changeTimes tr oe, t ≤ τ) :
    (normalized tr oe).tail = lineOf tr oe τ := by
  rw [normalized, waveOf_tail]
  rcases List.eq_nil_or_concat (changeTimes tr oe) with hc | ⟨ts, tl, hc⟩
  · have hoe : oe = [] := List.eq_nil_iff_forall_not_mem.2 fun p hp => by
      have := mem_changeTimes (tr := tr).2 (.inr (List.mem_map_of_mem (f := Prod.fst) hp))
      simp [hc] at this
    rw [hc, hoe]
    rfl
  · have hlast : ∀ t ∈ changeTimes tr oe, t ≤ tl := fun t ht => by
      rw [hc, List.concat_eq_append] at hs ht
      rcases List.mem_append.1 ht with ht | ht
      · exact (List.pairwise_append.1 hs).2.2 t ht tl (List.mem_singleton_self tl)
      · exact (List.mem_singleton.1 ht).le
    have : lineOf tr oe tl = lineOf tr oe τ :=
      lineOf_congr fun t ht => iff_of_true (hlast t ht) (hτ t ht)
    simp [hc, this]

/-! ### The end of a run -/

/-- What the end of a launch's run asks of the state (70_reset_and_hazards R195, R196). -/
theorem endsRun_iff {s : State} : endsRun s = true ↔
    s.launched = true ∧ s.ph = .idle ∧ s.fault = none ∧ noFurtherCommand s.host = true := by
  simp [endsRun, busy, faultOut]

/-- Settles O60: the last mark is the idle line's, and each segment of the waveform lies between two times at which
the line may change. -/
theorem observedRunEndsWithTheLineHigh : Obligations.ObservedRunEndsWithTheLineHigh := by
  refine ⟨fun s h hidle hend => ?_, fun s h => ⟨fun t0 n h0 => ?_, maximal_waveOf _⟩⟩
  · obtain ⟨hl, hp, hf, -⟩ := endsRun_iff.1 hend
    have tail : ∀ τ, s.time ≤ τ → lineAt s τ = (observation s).2.tail := fun τ hτ =>
      (normalized_tail h.changeTimes_sorted fun t ht => (h.changeTimes_le t ht).trans hτ).symm
    refine ⟨hp, hf, ?_, tail, fun rest hrest => endsRun_iff.2 ⟨hl, hp, hf, hrest⟩⟩
    rw [← tail _ (Nat.le_refl _), h.lineAt_of_time_le hl hf (Nat.le_refl _), hidle hl hp]
  · exact levelAt_normalized n h.changeTimes_sorted h0

end Sys2Proof.Machine
end

section
/-! SUPPORT. Decoding and encoding as one relation between words and instructions (30_encoding R72 to R79), the
codes of the phases (R80), and the words of the assembler (R84, R85). -/

namespace Sys2Proof.Machine

/-! ### The command word -/

/-- A word with RSV zero and the OP of TRANSMIT is a TRANSMIT of its fields (30_encoding R74). -/
theorem decodeCommand_of_transmitOp {w : CommandWord} (hRsv : fieldRsv w = 0) (hOp : fieldOp w = 2) :
    decodeCommand w = .instr (.transmit (fieldCode w) (fieldRepeat w)) := by
  simp [decodeCommand, hRsv, hOp]

theorem decodeCommand_transmitWord (c : CodeWord) (r : RepeatCount) :
    decodeCommand (assembleC64 c r 2) = .instr (.transmit c r) := by
  rw [decodeCommand_of_transmitOp (fieldRsv_assemble c r 2) (fieldOp_assemble c r 2), fieldCode_assemble,
    fieldRepeat_assemble]

/-- A word with RSV zero and no operand bit is assembled from its OP alone. -/
theorem eq_assemble_of_noOperands {w : CommandWord} (hRsv : fieldRsv w = 0) (hZero : fieldOperands w = 0) :
    assembleC64 0 0 (fieldOp w) = w := by
  obtain ⟨hCode, hRepeat⟩ := fieldOperands_zero w hZero
  have hw := assemble_fields w hRsv
  rwa [hCode, hRepeat] at hw

/-- Decoding a command word undoes encoding, and encoding undoes decoding (30_encoding R74). -/
theorem decodeCommand_eq_instr_iff {w : CommandWord} {i : Instr} :
    decodeCommand w = .instr i ↔ encode i = .c64 w := by
  constructor
  · intro h
    unfold decodeCommand at h
    split_ifs at h with hRsv hInit hZero hTransmit hConstruct hZero <;> cases h
    · exact congrArg PortWord.c64 (hInit ▸ eq_assemble_of_noOperands (not_not.1 hRsv) hZero)
    · exact congrArg PortWord.c64 (hTransmit ▸ assemble_fields w (not_not.1 hRsv))
    · exact congrArg PortWord.c64 (hConstruct ▸ eq_assemble_of_noOperands (not_not.1 hRsv) hZero)
  · intro h
    cases i with
    | construct | init => cases h; decide
    | transmit c r => cases h; exact decodeCommand_transmitWord c r
    | emit level cls | lineInit => cases h

/-! ### The micro-operation word -/

/-- A word with K = 0 is assembled from its fields L and C (30_encoding R76). -/
theorem emitWord_fields : ∀ w : MicroWord, w.getLsbD 3 = false →
    emitWord (w.getLsbD 2) (DurClass.ofBits (w.extractLsb' 0 2)) = w := by decide

/-- Decoding a micro-operation word undoes encoding, and encoding undoes decoding (30_encoding R76). -/
theorem decodeMicro_eq_instr_iff {w : MicroWord} {i : Instr} :
    decodeMicro w = .instr i ↔ encode i = .m4 w := by
  constructor
  · intro h
    unfold decodeMicro at h
    split_ifs at h with hEmit hLineInit <;> cases h
    · exact congrArg PortWord.m4 (emitWord_fields w hEmit)
    · subst hLineInit; rfl
  · intro h
    cases i with
    | construct | init | transmit code rep => cases h
    | emit level cls => cases h; exact decodeMicro_emitWord level cls
    | lineInit => cases h; exact decodeMicro_lineInitWord

/-- The reserved micro-operation words are 0x9 to 0xF (30_encoding R78). -/
theorem decodeMicro_eq_illegal_iff : ∀ w : MicroWord,
    decodeMicro w = .illegal .reservedMicroOp ↔ 9 ≤ w.toNat := by decide

/-! ### Both ports -/

/-- The words that are instructions are exactly the words of instructions, on either port. -/
theorem decode_eq_instr_iff {p : PortWord} {i : Instr} : decode p = .instr i ↔ encode i = p := by
  cases p with
  | c64 w => exact decodeCommand_eq_instr_iff
  | m4 w => exact decodeMicro_eq_instr_iff

/-- Settles O1: an instruction's word is an instruction's word. -/
theorem encodeThenDecodeGivesInstruction : Obligations.EncodeThenDecodeGivesInstruction :=
  fun _ _ => decode_eq_instr_iff.2 rfl

/-- Settles O2: a word that decodes is the word of what it decodes to. -/
theorem decodedWordIsItsInstructionsEncoding : Obligations.DecodedWordIsItsInstructionsEncoding :=
  fun _ _ => decode_eq_instr_iff.1

/-! ### Match and mask -/

/-- Under the mask of INIT and CONSTRUCT a word is itself. -/
theorem and_fullMask (w : CommandWord) : w &&& 0xFFFFFFFFFFFFFFFF = w := BitVec.and_allOnes

/-- The mask of TRANSMIT keeps RSV. -/
theorem fieldRsv_and_transmitMask (w : CommandWord) : fieldRsv (w &&& 0xFFFFFF) = fieldRsv w := by
  rw [fieldRsv, fieldRsv, BitVec.extractLsb'_and]
  exact BitVec.and_allOnes

/-- The mask of TRANSMIT keeps OP. -/
theorem fieldOp_and_transmitMask (w : CommandWord) : fieldOp (w &&& 0xFFFFFF) = fieldOp w := by
  rw [fieldOp, fieldOp, BitVec.extractLsb'_and]
  exact BitVec.and_allOnes

theorem decodeCommand_eq_init_iff {w : CommandWord} : decodeCommand w = .instr .init ↔ w = 1 := by
  rw [decodeCommand_eq_instr_iff, encode, PortWord.c64.injEq, show assembleC64 0 0 1 = 1 by decide, eq_comm]

theorem decodeCommand_eq_construct_iff {w : CommandWord} : decodeCommand w = .instr .construct ↔ w = 3 :=
  ⟨eq_of_decodeCommand_construct, fun h => by subst h; decide⟩

/-- TRANSMIT's row of 30_encoding R75. -/
theorem decodeCommand_eq_transmit_iff {w : CommandWord} :
    (∃ c r, decodeCommand w = .instr (.transmit c r)) ↔ w &&& 0xFFFFFF = 2 := by
  constructor
  · rintro ⟨c, r, h⟩
    obtain ⟨w', hw', hrow⟩ := Laws.TableRow.transmit c r
    obtain rfl : w' = w := PortWord.c64.inj (hw'.symm.trans (decodeCommand_eq_instr_iff.1 h))
    exact hrow
  · intro h
    have hRsv : fieldRsv w = 0 := by rw [← fieldRsv_and_transmitMask, h]; decide
    have hOp : fieldOp w = 2 := by rw [← fieldOp_and_transmitMask, h]; decide
    exact ⟨_, _, decodeCommand_of_transmitOp hRsv hOp⟩

/-- Settles O3: each command has its row, and what decodes to an instruction decodes to one of the three. -/
theorem commandsDecodeByMatchAndMask : Obligations.CommandsDecodeByMatchAndMask := by
  intro w
  rw [and_fullMask]
  refine ⟨decodeCommand_eq_init_iff, decodeCommand_eq_transmit_iff, decodeCommand_eq_construct_iff,
    fun hInit hTransmit hConstruct => ?_⟩
  cases hd : decodeCommand w with
  | illegal e => exact ⟨e, rfl⟩
  | instr i =>
    cases i with
    | init => exact absurd (decodeCommand_eq_init_iff.1 hd) hInit
    | transmit c r => exact absurd (decodeCommand_eq_transmit_iff.1 ⟨c, r, hd⟩) hTransmit
    | construct => exact absurd (decodeCommand_eq_construct_iff.1 hd) hConstruct
    | emit level cls | lineInit => cases decodeCommand_eq_instr_iff.1 hd

/-! ### The operand bits of TRANSMIT -/

theorem fieldCode_getLsbD (w : CommandWord) {i : Nat} (hi : i < 32) :
    (fieldCode w).getLsbD i = w.getLsbD (32 + i) := by
  simp [fieldCode, hi]

theorem fieldRepeat_getLsbD (w : CommandWord) {i : Nat} (hi : i < 8) :
    (fieldRepeat w).getLsbD i = w.getLsbD (24 + i) := by
  simp [fieldRepeat, hi]

/-- The operands of a TRANSMIT are the fields of its word (30_encoding R72). -/
theorem fields_of_decodeCommand_transmit {w : CommandWord} {c : CodeWord} {r : RepeatCount}
    (h : decodeCommand w = .instr (.transmit c r)) : fieldCode w = c ∧ fieldRepeat w = r := by
  obtain rfl : assembleC64 c r 2 = w := PortWord.c64.inj (decodeCommand_eq_instr_iff.1 h)
  exact ⟨fieldCode_assemble c r 2, fieldRepeat_assemble c r 2⟩

/-- Settles O4: the operands are the fields, bit by bit. -/
theorem transmitOperandBitsOfTheWord : Obligations.TransmitOperandBitsOfTheWord := by
  intro w c r h
  obtain ⟨rfl, rfl⟩ := fields_of_decodeCommand_transmit h
  exact ⟨fun _ => fieldCode_getLsbD w, fun _ => fieldRepeat_getLsbD w⟩

/-! ### Written-out words and phase codes -/

/-- Settles O5: each word, evaluated. -/
theorem specWordsDecode : Obligations.SpecWordsDecode := by
  unfold Obligations.SpecWordsDecode
  decide

theorem Phase.ofBits_toBits (p : Phase) : Phase.ofBits p.toBits = p := by cases p <;> rfl

theorem Phase.toBits_ofBits : ∀ v : BitVec 4, (Phase.ofBits v).toBits = v := by decide

/-- Settles O6: the two directions of the code table. -/
theorem phaseCodesAreAllFourBitValues : Obligations.PhaseCodesAreAllFourBitValues :=
  ⟨Phase.ofBits_toBits, Phase.toBits_ofBits⟩

/-! ### Assembled commands -/

theorem assembleTransmit_of_lt {code rep : Nat} (hc : code < 2 ^ 32) (hr : rep < 2 ^ 8) :
    assembleTransmit code rep =
      some [.command (assembleC64 (BitVec.ofNat 32 code) (BitVec.ofNat 8 rep) 2)] :=
  if_pos ⟨hc, hr⟩

/-- An operand out of range is an assembly error (30_encoding R84). -/
theorem assembleTransmit_of_le {code rep : Nat} (h : 2 ^ 32 ≤ code ∨ 2 ^ 8 ≤ rep) :
    assembleTransmit code rep = none :=
  if_neg fun ⟨hc, hr⟩ => h.elim hc.not_ge hr.not_ge

/-- Settles O57: in range and out of range, TRANSMIT's operands decide, and SEND only adds the wait. -/
theorem assembledTransmitIsTheWordOfItsOperands : Obligations.AssembledTransmitIsTheWordOfItsOperands := by
  refine fun code rep => ⟨fun hc hr => ?_, fun h => ?_, rfl⟩
  · have ha := assembleTransmit_of_lt hc hr
    exact ⟨_, ha, by rw [assemble, ha]; rfl, decodeCommand_transmitWord _ _⟩
  · have ha := assembleTransmit_of_le h
    exact ⟨ha, by rw [assemble, ha]; rfl⟩

end Sys2Proof.Machine
end

section
/-! SUPPORT. The words that the sequencer issues (30_encoding R79), the faults of the reserved encodings
(30_encoding R83), and the strobes of the pin port (30_encoding R70, R71). -/

namespace Sys2Proof.Machine

/-! ### The words that the phases issue -/

/-- A data half-pulse is an EMIT of class TICK, or nothing is issued (41_serializer R128, R129). -/
theorem dataHalf_eq_word {x : ReadResult Bool} {flip : Bool} {w : MicroWord} (h : dataHalf x flip = .word w) :
    ∃ b, w = emitWord b .tick := by
  cases x with
  | value b => exact ⟨b ^^ flip, (Issue.word.inj h).symm⟩
  | unwritten r => cases h

/-- Everything a phase can issue as a word (41_serializer R121). -/
theorem issue_eq_word {s : State} {w : MicroWord} (h : issue s = .word w) :
    w = lineInitWord ∨ w = emitWord true .long ∨ w = emitWord true .sep ∨ w = emitWord false .zero ∨
      ∃ b, w = emitWord b .tick := by
  cases hp : s.ph with
  | idle | reservedE | reservedF => simp [issue, hp] at h
  | preInit | finalInit | preLong | preSep | trailSep =>
    simp only [issue, hp, Issue.word.injEq] at h
    simp [← h]
  | preTick | leadIdle | leadActive | postIdle | postActive =>
    simp only [issue, hp, Issue.word.injEq] at h
    exact .inr (.inr (.inr (.inr ⟨_, h.symm⟩)))
  | dataFirst | dataSecond =>
    simp only [issue, hp] at h
    exact .inr (.inr (.inr (.inr (dataHalf_eq_word h))))
  | trailZero =>
    cases ht : s.cfg.trailZero with
    | law =>
      simp only [issue, hp, ht, Issue.word.injEq] at h
      simp [← h]
    | literal4c => simp [issue, hp, ht] at h

/-- The state after reset, moved to a phase. -/
def resetAt (p : Phase) : State := { State.reset with ph := p }

/-- Settles O35, by what the phases issue; each of the five EMITs is issued in some phase after reset. -/
theorem sequencerIssuesFiveEmitWords : Obligations.SequencerIssuesFiveEmitWords := by
  refine ⟨fun s w h => ?_, ?_, decodeMicro_emitWord false .long, decodeMicro_emitWord false .sep,
    decodeMicro_emitWord true .zero⟩
  · rcases issue_eq_word h with rfl | rfl | rfl | rfl | ⟨b, rfl⟩
    · decide
    · decide
    · decide
    · decide
    · cases b <;> decide
  · simp only [List.forall_mem_cons]
    exact ⟨⟨resetAt .preLong, rfl⟩, ⟨resetAt .preTick, rfl⟩, ⟨resetAt .preSep, rfl⟩,
      ⟨resetAt .leadActive, rfl⟩, ⟨resetAt .trailZero, rfl⟩, nofun⟩

/-! ### Reserved encodings -/

/-- RSV not zero, a reserved OP, or an operand bit in a command other than TRANSMIT is ILLEGAL
(30_encoding R74). -/
theorem decodeCommand_of_reserved {w : CommandWord}
    (h : fieldRsv w ≠ 0 ∨ (fieldOp w ≠ 1 ∧ fieldOp w ≠ 2 ∧ fieldOp w ≠ 3) ∨
      (fieldOp w ≠ 2 ∧ fieldOperands w ≠ 0)) : ∃ e, decodeCommand w = .illegal e := by
  by_cases hRsv : fieldRsv w = 0
  · rcases h with h | ⟨hInit, hTransmit, hConstruct⟩ | ⟨hTransmit, hOperands⟩
    · exact absurd hRsv h
    · exact ⟨.reservedOp, by
        rw [decodeCommand, if_neg (not_not.2 hRsv), if_neg hInit, if_neg hTransmit, if_neg hConstruct]⟩
    · unfold decodeCommand
      split_ifs <;> exact ⟨_, rfl⟩
  · exact ⟨.reservedField, if_pos hRsv⟩

/-- The step of a live idle block that is given a command (60_exceptions R174). -/
theorem Live.step_of_command {s : State} (h : Live s) (hp : s.ph = .idle) {w : CommandWord}
    {rest : List HostMove} (hh : s.host = .command w :: rest) :
    step s = acceptWord w { s with host := rest, done := false } := by
  rw [step, arbitrate, configured_eq h.configured, hh]
  have hlive := whenLive_eq (s := { s with host := rest }) h.launched h.noFault h.free (by rw [hp]; rfl)
    (keepMove (.command w)) (commandStep w)
  exact hlive.trans (if_neg (by simp [busy, hp]))

/-- A word that is ILLEGAL raises the fault with it (60_exceptions R171). -/
theorem acceptWord_of_illegal {w : CommandWord} {e : DecodeError} (h : decodeCommand w = .illegal e)
    (s : State) : acceptWord w s = .next (raise (.illegalCommand w) s) := by
  rw [acceptWord, h]

/-- A reserved word that reaches the driver raises the fault with it (30_encoding R78). -/
theorem runWord_of_illegal {w : MicroWord} {e : DecodeError} (h : decodeMicro w = .illegal e) (s : State) :
    runWord w s = .next (raise (.badMicroOp w) s) := by
  rw [runWord, h]

/-- Settles O39: neither decoder knows a reserved encoding. -/
theorem reservedEncodingsFault : Obligations.ReservedEncodingsFault := by
  refine ⟨fun s w rest hlive hp hh hres => ?_, fun s w hw => ?_⟩
  · obtain ⟨e, he⟩ := decodeCommand_of_reserved hres
    exact ⟨_, (hlive.step_of_command hp hh).trans (acceptWord_of_illegal he _), rfl, rfl⟩
  · exact ⟨_, runWord_of_illegal ((decodeMicro_eq_illegal_iff w).2 hw) s, rfl, rfl⟩

/-! ### The pin port -/

/-- `pin_level` is NOT L where the pin is driven at the level of L (30_encoding R71; 40_driver R90). -/
theorem toPin_phys (b : Bool) : Level.toPin (phys b) = !b := by cases b <;> rfl

/-- Delay calls do not strobe the pin. -/
theorem pinWe_delayEvents (l : List Nat) : ∀ t, (strobesOf (delayEvents t l)).filter Strobes.pinWe = [] := by
  induction l with
  | nil => intro t; rfl
  | cons n l ih => intro t; exact ih (t + n)

/-- The one level strobe of an emission is that of its level (40_driver R94). -/
theorem pinWe_emissionEvents (k : Config) (rom : Rom) (e : Level) (c : DurClass) (t : Nat) :
    (strobesOf (emissionEvents k rom e c t)).filter Strobes.pinWe = [(Event.set e).strobes] :=
  congrArg ((Event.set e).strobes :: ·) (pinWe_delayEvents _ t)

/-- Settles O20: EMIT writes its level once, and LINE_INIT configures the pin and writes HIGH. -/
theorem pinLevelIsTheInvertedLogicalLevel : Obligations.PinLevelIsTheInvertedLogicalLevel := by
  refine ⟨rfl, rfl, fun b cls s hk => ?_, fun s hk => ?_⟩
  · refine ⟨emission (phys b) cls s, emissionEvents s.cfg s.rom (phys b) cls s.time,
      by rw [exec, execEmit, configured_eq hk], by rw [emission_eq _ _ _ (chunk_pos hk)], ?_⟩
    rw [pinWe_emissionEvents, Event.strobes, toPin_phys]
  · exact ⟨lineInitActions s, lineInitEvents s.time, by rw [exec, execLineInit, configured_eq hk],
      by rw [lineInitActions_eq], rfl⟩

end Sys2Proof.Machine
end

section
/-! SUPPORT. The driver's micro-operations, run to their end (40_driver R90, R94, R96, R97, R99 to R101). -/

namespace Sys2Proof.Machine

/-! ### EMIT -/

/-- The driver runs an EMIT as an emission at the inverted level (40_driver R94). -/
theorem exec_emit {s : State} (hk : s.cfg.wellFormed = true) (b : Bool) (c : DurClass) :
    exec (.emit b c) s = .next (emission (phys b) c s) := by
  rw [exec, execEmit, configured_eq hk]

theorem exec_lineInit {s : State} (hk : s.cfg.wellFormed = true) :
    exec .lineInit s = .next (lineInitActions s) := by
  rw [exec, execLineInit, configured_eq hk]

/-- The inversion law, as a test of the logical level (40_driver R90). -/
theorem phys_eq_ite (b : Bool) : phys b = if b = true then .low else .high := by cases b <;> rfl

/-- The only level that an emission writes is its own (40_driver R94). -/
@[simp] theorem setsOf_emissionEvents (k : Config) (rom : Rom) (e : Level) (c : DurClass) (t : Nat) :
    setsOf (emissionEvents k rom e c t) = [(t, e)] := by
  simp [emissionEvents, setsOf]

/-- Settles O14: an EMIT is an emission, and an emission's whole effect is known. -/
theorem emitSetsTheLevelAndHoldsItForTheDelay : Obligations.EmitSetsTheLevelAndHoldsItForTheDelay := by
  intro b c s hk
  rw [exec_emit hk, emission_eq _ _ _ (chunk_pos hk), phys_eq_ite]
  rfl

/-- Settles O15: the level that an EMIT writes is the inverted one. -/
theorem everyEmitInvertsTheLevel : Obligations.EveryEmitInvertsTheLevel := by
  intro b c s hk
  rw [← phys_eq_ite]
  refine ⟨_, (exec_emit hk b c).trans (congrArg _ (emission_eq _ _ _ (chunk_pos hk))), rfl, ?_⟩
  rw [setsOf_append, setsOf_emissionEvents]

/-! ### The scaled delay -/

/-- The delay calls of a scaled delay are the closed form of 40_driver R97. -/
theorem delaysOf_scaledDelay (duration : Time) {s : State} (hc : 0 < s.cfg.chunk) :
    delaysOf (scaledDelay duration s).trace =
      delaysOf s.trace ++ chunkArgs s.cfg.chunk (duration.toNat >>> s.cfg.shift) := by
  have hloop := delayLoop_eq ((duration.toNat >>> s.cfg.shift) + 1) (duration.toNat >>> s.cfg.shift)
    (setDly (duration.toNat >>> s.cfg.shift) s) hc (Nat.lt_succ_of_le (Nat.div_le_self _ _)) rfl
  rw [scaledDelay, scaledDelayAcks, hloop]
  simp [delaysOf_append]

/-- No delay call is above CHUNK (40_driver R97). -/
theorem chunkArgs_le {chunk d : Nat} (hc : 0 < chunk) : ∀ n ∈ chunkArgs chunk d, n ≤ chunk := by
  intro n hn
  rcases List.mem_append.1 hn with hn | hn
  · exact (List.eq_of_mem_replicate hn).le
  · exact List.mem_singleton.1 hn ▸ (Nat.mod_lt d hc).le

/-- Settles O16: the number of full chunks is the quotient by CHUNK. -/
theorem scaledDelayIssuesFullChunksThenTheRemainder :
    Obligations.ScaledDelayIssuesFullChunksThenTheRemainder := by
  intro duration s hk
  have hc := chunk_pos hk
  exact ⟨(duration.toNat >>> s.cfg.shift) / s.cfg.chunk, (duration.toNat >>> s.cfg.shift) % s.cfg.chunk,
    Nat.div_add_mod' _ _, Nat.mod_lt _ hc, fun _ => (Nat.le_div_iff_mul_le hc).2,
    delaysOf_scaledDelay duration hc, chunkArgs_le hc, chunkArgs_sum _ _⟩

/-! ### LINE_INIT -/

/-- Settles O18: LINE_INIT is its three actions. -/
theorem lineInitConfiguresAndDrivesHigh : Obligations.LineInitConfiguresAndDrivesHigh := by
  intro s hk
  rw [exec_lineInit hk, lineInitActions_eq]
  rfl

/-- Several LINE_INITs in a row. -/
theorem execAll_lineInit_succ (n : Nat) {s : State} (hk : s.cfg.wellFormed = true) :
    execAll (List.replicate (n + 1) .lineInit) s =
      execAll (List.replicate n .lineInit) (lineInitActions s) := by
  simp only [List.replicate_succ, execAll, exec_lineInit hk]

/-! ### A line that is initialised again -/

/-- Times that are put into a list go before a last one that is not earlier. -/
theorem foldl_insertTime_snoc {t : Nat} (oe : List (Nat × Bool)) : ∀ l : List Nat, (∀ a ∈ l, a ≤ t) →
    (∀ p ∈ oe, p.1 ≤ t) → oe.foldl (fun l p => insertTime p.1 l) (l ++ [t]) =
      oe.foldl (fun l p => insertTime p.1 l) l ++ [t] := by
  induction oe with
  | nil => exact fun _ _ _ => rfl
  | cons p oe ih =>
    intro l hl ho
    obtain ⟨hp, ho⟩ := List.forall_mem_cons.1 ho
    rw [List.foldl_cons, List.foldl_cons, insertTime_snoc hl hp]
    exact ih _ (fun a ha => (mem_insertTime.1 ha).elim (fun h => h ▸ hp) (hl a)) ho

/-- A mark that is not earlier than any change of the line adds its time at the end. -/
theorem changeTimes_append_of_marksOf {tr es : List Stamped} {oe : List (Nat × Bool)} {t : Nat}
    {e : Option Level} (hflt : noFlt tr = true) (hes : marksOf es = [(t, e)])
    (h : ∀ a ∈ changeTimes tr oe, a ≤ t) : changeTimes (tr ++ es) oe = changeTimes tr oe ++ [t] := by
  rw [changeTimes, marksOf_append _ _ hflt, hes, List.map_append]
  exact foldl_insertTime_snoc oe _ (fun a ha => h a (mem_changeTimes.2 (.inl ha))) fun p hp =>
    h p.1 (mem_changeTimes.2 (.inr (List.mem_map_of_mem hp)))

/-- A last time with the level of the one before it adds no segment (20_memory R57). -/
theorem waveOf_map_snoc_same {f : Nat → Option Level} {ts : List Nat} {t : Nat}
    (h : (ts.getLast?).map f = some (f t)) :
    waveOf ((ts ++ [t]).map fun t => (t, f t)) = waveOf (ts.map fun t => (t, f t)) := by
  rw [List.map_append]
  refine waveOf_snoc_same _ _ _ ?_
  rw [List.getLast?_map, Option.map_map]
  exact h

/-- A value stamped last that was the last one already changes nothing at any time. -/
theorem lastAt_snoc_same {α : Type} {l : List (Nat × α)} {t : Nat} {x : α} (h : ∀ p ∈ l, p.1 ≤ t)
    (hx : (l.getLast?).map Prod.snd = some x) (τ : Nat) : lastAt τ (l ++ [(t, x)]) = lastAt τ l := by
  rw [lastAt_snoc]
  split
  · rw [← hx, lastAt_of_le fun p hp => (h p hp).trans ‹t ≤ τ›]
  · rfl

/-- A line initialisation marks the line HIGH (40_driver R100). -/
theorem marksOf_lineInitEvents (t : Nat) : marksOf (lineInitEvents t) = [(t, some .high)] := rfl

/-- The change times have a last one, and the line is now as it was then. -/
theorem TraceInv.lineOf_getLast {s : State} (h : TraceInv s) (hl : s.launched = true) :
    ((changeTimes s.trace s.oeLog).getLast?).map (lineOf s.trace s.oeLog) =
      some (lineOf s.trace s.oeLog s.time) := by
  obtain ⟨p, hp, -⟩ := Option.map_eq_some_iff.1 (h.oe hl)
  have hne : changeTimes s.trace s.oeLog ≠ [] := List.ne_nil_of_mem
    (mem_changeTimes.2 (.inr (List.mem_map_of_mem (List.mem_of_getLast? hp))))
  obtain ⟨x, hx⟩ := Option.ne_none_iff_exists'.1 (mt List.getLast?_eq_none_iff.1 hne)
  have htail := normalized_tail h.changeTimes_sorted h.changeTimes_le
  rw [normalized, waveOf_tail, List.getLast?_map, hx] at htail
  rw [hx]
  exact congrArg some htail

/-- The marks of the line say the same at every time once a HIGH pin is initialised again: a fault has ended them, or
the last one is HIGH already. -/
theorem TraceInv.lastAt_marksOf_lineInit {s : State} (h : TraceInv s) (hl : s.launched = true)
    (hp : s.level = some .high) (τ : Nat) :
    lastAt τ (marksOf (s.trace ++ lineInitEvents s.time)) = lastAt τ (marksOf s.trace) := by
  cases hflt : noFlt s.trace with
  | false => rw [marksOf_append_of_flt _ _ hflt]
  | true =>
    rw [marksOf_append _ _ hflt, marksOf_lineInitEvents]
    refine lastAt_snoc_same (fun p hm => ?_) ?_ τ
    · obtain ⟨e, he, hep⟩ := exists_of_mem_marksOf (List.mem_map_of_mem hm)
      exact hep ▸ h.past e he
    · obtain ⟨x, hx, hlevel⟩ := Option.map_eq_some_iff.1 ((h.pin hl).trans hp)
      simp [marksOf_eq_setsOf _ hflt, hx, hlevel]

/-- A driven HIGH line stays as it is at every time under a LINE_INIT (40_driver R101). -/
theorem TraceInv.lineOf_lineInit {s : State} (h : TraceInv s) (hl : s.launched = true) (ho : s.oe = true)
    (hp : s.level = some .high) :
    lineOf (s.trace ++ lineInitEvents s.time) (s.oeLog ++ [(s.time, true)]) = lineOf s.trace s.oeLog := by
  funext τ
  have hoe := lastAt_snoc_same h.oePast ((h.oe hl).trans (congrArg some ho)) τ
  rw [lineOf, lineOf, oeOf, oeOf, hoe, h.lastAt_marksOf_lineInit hl hp]

/-- The change times of a line initialisation are now, for PIN.OE and, where no fault has ended the marks, for the
level write. -/
theorem TraceInv.changeTimes_lineInit {s : State} (h : TraceInv s) :
    changeTimes (s.trace ++ lineInitEvents s.time) (s.oeLog ++ [(s.time, true)]) =
        changeTimes s.trace s.oeLog ++ [s.time] ∨
    changeTimes (s.trace ++ lineInitEvents s.time) (s.oeLog ++ [(s.time, true)]) =
        (changeTimes s.trace s.oeLog ++ [s.time]) ++ [s.time] := by
  rw [changeTimes_snoc_oe]
  cases hflt : noFlt s.trace with
  | false =>
    rw [changeTimes, marksOf_append_of_flt _ _ hflt]
    exact .inl (insertTime_of_le h.changeTimes_le)
  | true =>
    rw [changeTimes_append_of_marksOf hflt (marksOf_lineInitEvents s.time) h.changeTimes_le]
    refine .inr (insertTime_of_le fun a ha => ?_)
    exact (List.mem_append.1 ha).elim (h.changeTimes_le a) fun ha => (List.mem_singleton.1 ha).le

/-- From a driven HIGH line a LINE_INIT adds no segment (40_driver R101). -/
theorem TraceInv.normalized_lineInit {s : State} (h : TraceInv s) (hl : s.launched = true) (ho : s.oe = true)
    (hp : s.level = some .high) :
    normalized (lineInitActions s).trace (lineInitActions s).oeLog = normalized s.trace s.oeLog := by
  have once := waveOf_map_snoc_same (h.lineOf_getLast hl)
  rw [lineInitActions_eq, normalized, h.lineOf_lineInit hl ho hp]
  rcases h.changeTimes_lineInit with hc | hc <;> rw [hc]
  · exact once
  · exact (waveOf_map_snoc_same (by simp)).trans once

/-- Settles O19: by induction on the number of LINE_INITs. -/
theorem lineInitIsIdempotentOnTheLine : Obligations.LineInitIsIdempotentOnTheLine := by
  intro n
  induction n with
  | zero =>
    intro s hk
    refine ⟨lineInitActions s, execAll_lineInit_succ 0 hk, rfl, rfl, rfl, rfl, fun h hl ho hp => ?_⟩
    exact h.normalized_lineInit hl ho hp
  | succ n ih =>
    intro s hk
    obtain ⟨t, ht, hoe, hlevel, hguard, htime, hwave⟩ := ih (lineInitActions s) hk
    refine ⟨t, (execAll_lineInit_succ (n + 1) hk).trans ht, hoe, hlevel, hguard, htime, fun h hl ho hp => ?_⟩
    exact (hwave h.lineInit hl rfl rfl).trans (h.normalized_lineInit hl ho hp)

end Sys2Proof.Machine
end

section
/-! SUPPORT. The delay handshake (40_driver R102): an emission that waits in a delay call, and the one that goes on
from there. -/

namespace Sys2Proof.Machine

/-! ### An emission that waits -/

/-- A shifted ROM entry fits DLY (10_state R29). -/
theorem emissionTime_lt (k : Config) (rom : Rom) (c : DurClass) : emissionTime k rom c < 2 ^ 32 := by
  rw [emissionTime, Nat.shiftRight_eq_div_pow]
  exact Nat.lt_of_le_of_lt (Nat.div_le_self _ _) (rom.read c).isLt

/-- What an emission does whose first `acks` calls are full chunks that are answered, and whose next call is not:
it waits in that call (40_driver R94, R96, R102). -/
theorem emissionAcks_held {acks : Nat} (e : Level) (c : DurClass) {s : State} (hc : 0 < s.cfg.chunk)
    (ha : acks * s.cfg.chunk ≤ emissionTime s.cfg s.rom c) :
    emissionAcks acks e c s =
      { s with
        level := some e
        dly := some (BitVec.ofNat 32 (emissionTime s.cfg s.rom c - acks * s.cfg.chunk))
        time := s.time + acks * s.cfg.chunk
        trace := s.trace ++ ⟨s.time, .set e⟩ :: delayEvents s.time (List.replicate acks s.cfg.chunk
          ++ [nextArg s.cfg.chunk (emissionTime s.cfg s.rom c - acks * s.cfg.chunk)])
        req := some (nextArg s.cfg.chunk (emissionTime s.cfg s.rom c - acks * s.cfg.chunk)) } := by
  have hloop := delayLoop_held acks (emissionTime s.cfg s.rom c)
    (setDly (emissionTime s.cfg s.rom c) (pinWrite e s)) hc ha rfl
  refine hloop.trans ?_
  simp [setDly, pinWrite, record]

/-- Answers beyond the last call of a delay change nothing. -/
theorem delayLoop_eq_of_lt {a b d : Nat} {s : State} (hc : 0 < s.cfg.chunk) (ha : d / s.cfg.chunk < a)
    (hb : d / s.cfg.chunk < b) (hs : s.dly = some (BitVec.ofNat 32 d)) : delayLoop a d s = delayLoop b d s := by
  rw [delayLoop_eq a d s hc ha hs, delayLoop_eq b d s hc hb hs]

/-- An emission that waits and is then answered to its end is one that never waited (40_driver R102). -/
theorem resumeDelay_emissionAcks {acks : Nat} (e : Level) (c : DurClass) {s : State} (hc : 0 < s.cfg.chunk)
    (ha : acks * s.cfg.chunk ≤ emissionTime s.cfg s.rom c) :
    resumeDelay (emissionTime s.cfg s.rom c - acks * s.cfg.chunk + 1)
        (emissionTime s.cfg s.rom c - acks * s.cfg.chunk) (emissionAcks acks e c s) = emission e c s := by
  have hwaited := resumeDelay_delayLoop (emissionTime s.cfg s.rom c - acks * s.cfg.chunk + 1) acks
    (emissionTime s.cfg s.rom c) (setDly (emissionTime s.cfg s.rom c) (pinWrite e s)) hc ha
  refine hwaited.trans (delayLoop_eq_of_lt hc ?_ (Nat.lt_succ_of_le (Nat.div_le_self _ _)) rfl)
  have hrest := Nat.sub_mul_div (emissionTime s.cfg s.rom c) s.cfg.chunk acks
  have hle := Nat.div_le_self (emissionTime s.cfg s.rom c - s.cfg.chunk * acks) s.cfg.chunk
  rw [hrest, Nat.mul_comm] at hle
  simp only [setDly_cfg, pinWrite_cfg]
  omega

/-- A delay neither reads nor writes what is presented, the `done` pulse and the micro-operation in progress. -/
theorem delayLoop_with (moves : List HostMove) (dn : Bool) (m : Option Mop) (acks : Nat) : ∀ (d : Nat) (s : State),
    { delayLoop acks d s with host := moves, done := dn, mop := m } =
      delayLoop acks d { s with host := moves, done := dn, mop := m } := by
  induction acks with
  | zero => exact fun _ _ => rfl
  | succ acks ih =>
    intro d s
    simp only [delayLoop]
    split
    · exact ih _ _
    · rfl

theorem emissionAcks_with (moves : List HostMove) (dn : Bool) (m : Option Mop) (acks : Nat) (e : Level)
    (c : DurClass) (s : State) :
    { emissionAcks acks e c s with host := moves, done := dn, mop := m } =
      emissionAcks acks e c { s with host := moves, done := dn, mop := m } :=
  delayLoop_with moves dn m acks _ _

/-- Once the driver is free again, no trace is left of the micro-operation that was in progress. -/
theorem emission_freed (e : Level) (c : DurClass) {s : State} (m : Option Mop) (hc : 0 < s.cfg.chunk) :
    { emission e c { s with mop := m } with mop := none } = { emission e c s with mop := none } := by
  rw [emission_eq e c s hc, emission_eq e c { s with mop := m } hc]

/-! ### The steps of the handshake -/

/-- A reserved phase issues no emission (30_encoding R81). -/
theorem isReserved_of_pulse {s : State} (h : (issue s).pulse ≠ none) : s.ph.isReserved = false := by
  cases hp : s.ph with
  | reservedE | reservedF => simp [issue, hp, Issue.pulse] at h
  | _ => rfl

/-- A step of a live block whose platform withholds an answer. -/
theorem Live.step_of_hold {s : State} {k : Nat} {rest : List HostMove} (h : Live s)
    (hh : s.host = .hold k :: rest) (hp : s.ph.isReserved = false) :
    step s = heldStep k (issue s) { s with host := rest, done := false } := by
  rw [step, arbitrate, configured_eq h.configured, hh]
  exact whenLive_eq (s := { s with host := rest }) h.launched h.noFault h.free hp _ _

/-- An emission that meets a call that is not answered stays issued (40_driver R91, R102). -/
theorem heldStep_of_pulse {x : Issue} {k : Nat} {e : Level} {c : DurClass} {s : State}
    (hx : x.pulse = some (e, c)) (hq : (emissionAcks k e c s).req.isSome = true) :
    heldStep k x s = .next { emissionAcks k e c s with mop := x.mop } := by
  simp only [heldStep, hx, settle, hq, if_true]

/-- A step of a live block in which nothing is presented runs the phase's emission to its end. -/
theorem Live.step_of_pass_pulse {s : State} {rest : List HostMove} {e : Level} {c : DurClass} (h : Live s)
    (hh : s.host = .pass :: rest) (hx : (issue s).pulse = some (e, c)) :
    step s = .next (advance { emission e c { s with host := rest, done := false } with mop := none }) := by
  have hp : s.ph.isReserved = false := isReserved_of_pulse (by simp [hx])
  rw [h.step_of_nothing_presented (.inr ⟨rest, hh⟩), hh, List.tail_cons,
    whenLive_eq (s := { s with host := rest }) h.launched h.noFault h.free hp]
  exact sequencerStep_of_pulse (s := { s with host := rest, done := false }) h.configured h.noFault hx

/-- The platform answers the open call of a waiting emission and all that follow: the emission ends as one that never
waited, and the updates follow (40_driver R102). -/
theorem insideStep_emissionAcks {acks : Nat} (e : Level) (c : DurClass) {s : State} (hc : 0 < s.cfg.chunk)
    (ha : acks * s.cfg.chunk ≤ emissionTime s.cfg s.rom c) :
    insideStep none (emissionAcks acks e c s) = .next (advance { emission e c s with mop := none }) := by
  have hheld := emissionAcks_held e c hc ha
  have hd : (BitVec.ofNat 32 (emissionTime s.cfg s.rom c - acks * s.cfg.chunk)).toNat =
      emissionTime s.cfg s.rom c - acks * s.cfg.chunk :=
    Nat.mod_eq_of_lt (Nat.lt_of_le_of_lt (Nat.sub_le _ _) (emissionTime_lt s.cfg s.rom c))
  have hq : (emission e c s).req.isSome = false := by rw [emission_eq e c s hc]; rfl
  rw [insideStep, if_pos (by rw [hheld]; rfl), resumeStep, withReg_readReg (congrArg State.dly hheld), hd,
    Option.getD_none, resumeDelay_emissionAcks e c hc ha, settle, if_neg (by simp [hq])]

/-- The step of a live block whose platform answers `k` full chunks of the phase's emission and no more. -/
theorem Live.step_of_hold_pulse {s : State} {k : Nat} {rest : List HostMove} {e : Level} {c : DurClass}
    (h : Live s) (hh : s.host = .hold k :: rest) (hx : (issue s).pulse = some (e, c))
    (hk : k * s.cfg.chunk ≤ emissionTime s.cfg s.rom c) :
    step s = .next { emissionAcks k e c { s with host := rest, done := false } with mop := (issue s).mop } := by
  rw [h.step_of_hold hh (isReserved_of_pulse (by simp [hx]))]
  refine heldStep_of_pulse hx ?_
  rw [emissionAcks_held (s := { s with host := rest, done := false }) e c (chunk_pos h.configured) hk]
  rfl

/-- The step of a block that waits in its emission, when `dly_ack` comes. -/
theorem Live.step_of_ack_waiting {s : State} {k : Nat} {rest : List HostMove} {e : Level} {c : DurClass}
    (h : Live s) (hh : s.host = .ack :: rest) (hk : k * s.cfg.chunk ≤ emissionTime s.cfg s.rom c) (m : Mop) :
    step { emissionAcks k e c s with mop := some m } =
      .next (advance { emission e c { s with host := rest, done := false } with mop := none }) := by
  have hc := chunk_pos h.configured
  have hheld := emissionAcks_held e c hc hk
  have hend := insideStep_emissionAcks (s := { s with host := rest, done := false, mop := some m }) e c hc hk
  rw [emission_freed (s := { s with host := rest, done := false }) e c (some m) hc, ← emissionAcks_with] at hend
  refine (step_of_ack_inside ?_ ?_ ?_ (Option.some_ne_none m) ?_).trans hend <;> rw [hheld]
  · exact h.configured
  · exact h.launched
  · exact h.noFault
  · exact hh

/-- A waiting block to which nothing is presented only ends the `done` pulse (40_driver R102). -/
theorem whenLive_waitInside {s : State} (hl : s.launched = true) (hf : s.fault = none) (hm : s.mop ≠ none)
    (hq : s.req ≠ none) (j : State → Result) : whenLive s waitInside j = .next { s with done := false } := by
  simp [whenLive, waitInside, hl, faultOut, hf, Option.isSome_iff_ne_none.2 hm, Option.isSome_iff_ne_none.2 hq]

/-- Settles O59: the wait and its end, and what a step in which nothing is presented changes of it. -/
theorem delayCallWaitsForItsAcknowledge : Obligations.DelayCallWaitsForItsAcknowledge := by
  refine ⟨fun s k rest m e c h hh hi hx hk => ?_, fun s hk hl hf hm hq => ⟨fun hh => ?_, fun rest hh => ?_⟩⟩
  · have hpulse : (issue s).pulse = some (e, c) := by rw [hi, hx]
    have taken : ∀ moves d, Live { s with host := moves, done := d } := fun _ _ =>
      ⟨h.configured, h.launched, h.noFault, h.free, h.noRequest⟩
    have hwait := h.step_of_hold_pulse hh hpulse hk
    have hack := (taken (.ack :: rest) false).step_of_ack_waiting (e := e) rfl hk m
    have hpass := (taken (.pass :: rest) s.done).step_of_pass_pulse rfl hpulse
    have hheld := emissionAcks_held (s := { s with host := .ack :: rest, done := false }) e c
      (chunk_pos h.configured) hk
    rw [hi, Mop.issue_mop] at hwait
    refine ⟨_, hwait, ?_, rfl, ?_, ?_, ?_, ?_, hack.trans hpass.symm⟩ <;> rw [hheld]
  · rw [step_of_no_move hk hh, quietStep_of_noFault hl hf, whenLive_waitInside hl hf hm hq]
  · rw [step, arbitrate, configured_eq hk, hh]
    exact whenLive_waitInside (s := { s with host := rest }) hl hf hm hq sequencerStep

end Sys2Proof.Machine
end

section
/-! SUPPORT. The rows of the sequencer's table (41_serializer R121 to R134), run in one step each. -/

namespace Sys2Proof.Machine

/-! ### A micro-operation and the updates after it -/

/-- An emission reaches none of the sequencer's registers (40_driver R94). -/
theorem emission_registers (e : Level) (c : DurClass) (s : State) :
    seqRegisters (emission e c s) = seqRegisters s :=
  (emission_effect e c s).registers_eq

/-- The registers that a phase's updates read. -/
theorem phase_rep_bit_of_registers {s u : State} (h : seqRegisters u = seqRegisters s) :
    u.ph = s.ph ∧ u.rep = s.rep ∧ u.bit = s.bit := by
  simp only [seqRegisters, Prod.mk.injEq] at h
  obtain ⟨hph, -, hrep, hbit, -⟩ := h
  exact ⟨hph, hrep, hbit⟩

/-- The driver is as free after an emission as before it. -/
@[simp] theorem emission_mop (e : Level) (c : DurClass) (s : State) : (emission e c s).mop = s.mop := by
  obtain ⟨d, τ, es, q, hu, -⟩ := emission_effect e c s
  rw [hu]
  rfl

/-- An emission ends at its own level (40_driver R94). -/
theorem emission_level (e : Level) (c : DurClass) (s : State) : (emission e c s).level = some e := by
  obtain ⟨d, τ, es, q, hu, -⟩ := emission_effect e c s
  rw [hu]
  rfl

/-- The row of an emission: it runs, and the updates follow (41_serializer R120). -/
theorem Live.sequencerStep_pulse {s : State} {e : Level} {c : DurClass} (h : Live s)
    (hx : (issue s).pulse = some (e, c)) : sequencerStep s = .next (advance (emission e c s)) := by
  have hfree : { emission e c s with mop := none } = emission e c s := by
    rw [← (emission_mop e c s).trans h.free]
  rw [sequencerStep_of_pulse h.configured h.noFault hx, hfree]

/-- The row of a LINE_INIT. -/
theorem Live.sequencerStep_lineInit {s : State} (h : Live s) (hi : issue s = .word lineInitWord) :
    sequencerStep s = .next (advance (lineInitActions s)) := by
  have hfree : { lineInitActions s with mop := none } = lineInitActions s := by
    rw [lineInitActions_eq, ← h.free]
  have hfault : faultOut (lineInitActions s) = false := by
    rw [lineInitActions_eq]
    simp [faultOut, h.noFault]
  simp only [sequencerStep, hi, runIssue, runWord, decodeMicro_lineInitWord, exec_lineInit h.configured,
    thenAdvance, hfault, hfree, Bool.false_eq_true, if_false]

theorem pulse_emitWord (b : Bool) (c : DurClass) : (Issue.word (emitWord b c)).pulse = some (phys b, c) := by
  simp [Issue.pulse, Decoded.toOption, pulseOf]

/-- At a step boundary the instruction issued is that of the phase's word. -/
theorem Live.issuedInstr_of_word {s : State} {w : MicroWord} {i : Instr} (h : Live s) (hi : issue s = .word w)
    (hd : decodeMicro w = .instr i) : issuedInstr s = some i := by
  rw [issuedInstr, h.free, hi]
  simp [hd, Decoded.toOption]

/-- A reserved phase issues no word (30_encoding R81). -/
theorem isReserved_of_word {s : State} {w : MicroWord} (h : issue s = .word w) : s.ph.isReserved = false := by
  cases hp : s.ph with
  | reservedE | reservedF => simp [issue, hp] at h
  | _ => rfl

/-- The moves to come and the `done` pulse make a block no less live. -/
theorem Live.taken {s : State} (h : Live s) (moves : List HostMove) (d : Bool) :
    Live { s with host := moves, done := d } :=
  ⟨h.configured, h.launched, h.noFault, h.free, h.noRequest⟩

/-- The step of a phase that issues an EMIT, where nothing is presented: the EMIT, which leaves the registers, then
the updates. -/
theorem Live.step_of_emit {s : State} {b : Bool} {c : DurClass} (h : Live s) (hh : s.host = [])
    (hi : issue s = .word (emitWord b c)) :
    issuedInstr s = some (.emit b c) ∧
    ∃ u, exec (.emit b c) { s with done := false } = .next u ∧ step s = .next (advance u) ∧
      (u.ph = s.ph ∧ u.rep = s.rep ∧ u.bit = s.bit) ∧ u.level = some (phys b) := by
  have hx : (issue { s with done := false }).pulse = some (phys b, c) :=
    (congrArg Issue.pulse hi).trans (pulse_emitWord b c)
  refine ⟨h.issuedInstr_of_word hi (decodeMicro_emitWord b c), emission (phys b) c { s with done := false },
    exec_emit (s := { s with done := false }) h.configured b c, ?_,
    phase_rep_bit_of_registers (emission_registers (phys b) c { s with done := false }), emission_level ..⟩
  rw [step_of_live_quiet h hh (isReserved_of_word hi)]
  exact (h.taken s.host false).sequencerStep_pulse hx

/-- The step of a phase that issues LINE_INIT, where nothing is presented. -/
theorem Live.step_of_lineInit {s : State} (h : Live s) (hh : s.host = []) (hi : issue s = .word lineInitWord) :
    issuedInstr s = some .lineInit ∧
      exec .lineInit { s with done := false } = .next (lineInitActions { s with done := false }) ∧
      step s = .next (advance (lineInitActions { s with done := false })) := by
  refine ⟨h.issuedInstr_of_word hi decodeMicro_lineInitWord,
    exec_lineInit (s := { s with done := false }) h.configured, ?_⟩
  rw [step_of_live_quiet h hh (isReserved_of_word hi)]
  exact (h.taken s.host false).sequencerStep_lineInit hi

/-! ### The straight rows -/

/-- The rows that issue one EMIT and change PH alone: the phase, the EMIT's operands and the next phase
(41_serializer R123, R124, R126, R130, R132, R133). -/
def straightRows : List (Phase × Bool × DurClass × Phase) :=
  [(.preLong, true, .long, .preTick), (.preTick, false, .tick, .preSep),
    (.leadIdle, false, .tick, .leadActive), (.trailSep, true, .sep, .trailZero),
    (.postIdle, false, .tick, .postActive), (.postActive, true, .tick, .finalInit)]

/-- What a straight row says of the micro-operation and of the updates. -/
theorem issue_and_advance_of_straight {p q : Phase} {b : Bool} {c : DurClass} (h : (p, b, c, q) ∈ straightRows)
    {s : State} (hp : s.ph = p) :
    issue s = .word (emitWord b c) ∧ ∀ u : State, u.ph = p → advance u = { u with ph := q } := by
  simp only [straightRows, List.mem_cons, Prod.mk.injEq, List.not_mem_nil, or_false] at h
  obtain ⟨rfl, rfl, rfl, rfl⟩ | ⟨rfl, rfl, rfl, rfl⟩ | ⟨rfl, rfl, rfl, rfl⟩ | ⟨rfl, rfl, rfl, rfl⟩ |
    ⟨rfl, rfl, rfl, rfl⟩ | ⟨rfl, rfl, rfl, rfl⟩ := h
  all_goals exact ⟨by simp only [issue, hp], fun u hu => by simp only [advance, hu]⟩

/-- POST_ACTIVE's EMIT is of logical level 1 (41_serializer R133). -/
theorem straight_postActive {q : Phase} {b : Bool} {c : DurClass} (h : (.postActive, b, c, q) ∈ straightRows) :
    b = true := by
  simp only [straightRows, List.mem_cons, Prod.mk.injEq, List.not_mem_nil, reduceCtorEq, false_and, false_or,
    true_and, or_false] at h
  exact h.1

/-- Settles O27: the phase's EMIT runs, and PH is the only update; phys(1) is LOW. -/
theorem straightPhasesIssueTheirEmit : Obligations.StraightPhasesIssueTheirEmit := by
  intro s p q b c h hh hp hrow
  obtain ⟨hi, hadv⟩ := issue_and_advance_of_straight hrow hp
  obtain ⟨hissued, u, hexec, hstep, ⟨hph, -⟩, hlevel⟩ := h.step_of_emit hh hi
  refine ⟨hissued, u, hexec, ?_, fun hpost => ?_⟩
  · rw [hstep, hadv u (hph.trans hp)]
  · subst hpost
    rw [hlevel, straight_postActive hrow]
    rfl

/-! ### The line initialisations -/

/-- PRE_INIT's update (41_serializer R122). -/
theorem advance_preInit {s : State} (hp : s.ph = .preInit) : advance s = { s with ph := .preLong } := by
  simp only [advance, hp]

/-- Settles O28: PRE_INIT's row, and the two phases in which TRANSMIT's acceptance can leave an idle block. -/
theorem preInitRunsTheLazyInit : Obligations.PreInitRunsTheLazyInit := by
  refine ⟨fun s h hh hp => ?_, fun code rep s t hne ht hpre => ?_⟩
  · obtain ⟨hissued, hexec, hstep⟩ := h.step_of_lineInit hh (by simp only [issue, hp])
    refine ⟨hissued, _, hexec, ?_⟩
    rw [hstep]
    exact congrArg _ (advance_preInit hp)
  · simp only [exec, execTransmit] at ht
    obtain ⟨-, ht⟩ := configured_next ht
    rcases accept_next ht with ⟨-, rfl⟩ | ⟨-, -, rfl⟩ | ⟨-, -, ht⟩
    · exact absurd hpre hne
    · exact absurd hpre hne
    · cases ht
      cases hg : s.guard with
      | false => rfl
      | true => simp [hg] at hpre

/-- FINAL_INIT's update: the command in progress completes (41_serializer R134). -/
theorem advance_finalInit {s : State} (hp : s.ph = .finalInit) :
    advance s = complete s.cmd { s with ph := .idle } := by
  simp only [advance, hp]

/-- Settles O34: the line initialisation's whole effect, then the completion. -/
theorem finalInitForcesTheIdleLine : Obligations.FinalInitForcesTheIdleLine := by
  intro s h hh hp
  obtain ⟨hissued, -, hstep⟩ := h.step_of_lineInit hh (by simp only [issue, hp])
  refine ⟨hissued, ?_⟩
  rw [hstep, lineInitActions_eq, advance_finalInit (by exact hp)]
  simp [complete, record, lineInitEvents]

/-! ### The rows that read a register -/

theorem branch_decide (p : Prop) [Decidable p] (loop done : Phase) :
    branch (decide p) loop done = if p then loop else done := by
  simp only [branch, decide_eq_true_eq]

/-- Settles O29: REP is read after the micro-operation, which leaves it. -/
theorem preSepSkipsTheFramesAtRepeatZero : Obligations.PreSepSkipsTheFramesAtRepeatZero := by
  intro s r h hh hp hr
  obtain ⟨hissued, u, hexec, hstep, ⟨hph, hrep, -⟩, -⟩ :=
    h.step_of_emit (b := true) (c := .sep) hh (by simp only [issue, hp])
  rw [advance_preSep (hph.trans hp) (hrep.trans hr)] at hstep
  refine ⟨hissued, u, hexec, fun hne => ?_, fun hzero => ?_⟩
  · rwa [branch_decide, if_pos hne] at hstep
  · rwa [branch_decide, if_neg (not_not.2 hzero)] at hstep

/-- LEAD_ACTIVE's updates (41_serializer R127). -/
theorem advance_leadActive {s : State} (hp : s.ph = .leadActive) :
    advance s = { s with bit := some 31, ph := .dataFirst } := by
  simp only [advance, hp]

/-- DATA_FIRST's update (41_serializer R128). -/
theorem advance_dataFirst {s : State} (hp : s.ph = .dataFirst) : advance s = { s with ph := .dataSecond } := by
  simp only [advance, hp]

/-- Settles O30: the row of LEAD_ACTIVE. -/
theorem leadActiveStartsAtBit31 : Obligations.LeadActiveStartsAtBit31 := by
  intro s h hh hp
  obtain ⟨hissued, u, hexec, hstep, ⟨hph, -⟩, -⟩ :=
    h.step_of_emit (b := true) (c := .tick) hh (by simp only [issue, hp])
  exact ⟨hissued, u, hexec, by rw [hstep, advance_leadActive (hph.trans hp)]⟩

/-- CODE[BIT] where both registers hold values (41_serializer R128). -/
theorem codeBit_eq {s : State} {v : CodeWord} {n : BitIndex} (hc : s.code = some v) (hb : s.bit = some n) :
    codeBit s = .value (v.getLsbD n.toNat) := by
  simp only [codeBit, hc, hb, readReg]

/-- DATA_FIRST sends the bit (41_serializer R128). -/
theorem issue_dataFirst {s : State} {v : CodeWord} {n : BitIndex} (hp : s.ph = .dataFirst)
    (hc : s.code = some v) (hb : s.bit = some n) : issue s = .word (emitWord (v.getLsbD n.toNat) .tick) := by
  simp only [issue, hp, codeBit_eq hc hb, dataHalf, Bool.xor_false]

/-- DATA_SECOND sends its complement (41_serializer R129). -/
theorem issue_dataSecond {s : State} {v : CodeWord} {n : BitIndex} (hp : s.ph = .dataSecond)
    (hc : s.code = some v) (hb : s.bit = some n) : issue s = .word (emitWord (!v.getLsbD n.toNat) .tick) := by
  simp only [issue, hp, codeBit_eq hc hb, dataHalf, Bool.xor_true]

/-- Settles O31: BIT is the same before the half-pulse and after it. -/
theorem dataPhasesSendTheBitThenItsComplement : Obligations.DataPhasesSendTheBitThenItsComplement := by
  intro s v n h hh hc hb
  refine ⟨fun hp => ?_, fun hp => ?_⟩
  · obtain ⟨hissued, u, hexec, hstep, ⟨hph, -⟩, -⟩ := h.step_of_emit hh (issue_dataFirst hp hc hb)
    exact ⟨hissued, u, hexec, by rw [hstep, advance_dataFirst (hph.trans hp)]⟩
  · obtain ⟨hissued, u, hexec, hstep, ⟨hph, -, hbit⟩, -⟩ := h.step_of_emit hh (issue_dataSecond hp hc hb)
    rw [advance_dataSecond (hph.trans hp) (hbit.trans hb)] at hstep
    refine ⟨hissued, u, hexec, fun hne => ?_, fun hzero => ⟨?_, ?_⟩⟩
    · rwa [if_pos hne] at hstep
    · rw [hbit, hb, hzero]
    · rwa [if_neg (not_not.2 hzero)] at hstep

/-! ### The frame trail -/

/-- The level of the frame trail's ZERO emission under each reading (41_serializer R131). -/
def trailLevel (k : Config) : Level := if k.trailZero = .law then .high else .low

/-- TRAIL_ZERO's emission (41_serializer R131). -/
theorem pulse_trailZero {s : State} (hp : s.ph = .trailZero) :
    (issue s).pulse = some (trailLevel s.cfg, .zero) := by
  cases ht : s.cfg.trailZero with
  | law => simp only [issue, hp, ht, pulse_emitWord, trailLevel, if_true, phys]
  | literal4c => simp only [issue, hp, ht, trailLevel, Issue.pulse, reduceCtorEq, if_false]

/-- A ROM entry that is 0 gives an emission that takes no time (40_driver R99). -/
theorem emissionTime_of_zero {k : Config} {rom : Rom} (h : rom.zero = 0) : emissionTime k rom .zero = 0 := by
  simp [emissionTime, Rom.read, h]

/-- The emission of a class that takes no time: its level write and one delay call of 0 (40_driver R97). -/
theorem emissionEvents_of_zero {k : Config} {rom : Rom} (h : rom.zero = 0) (e : Level) (t : Nat) :
    emissionEvents k rom e .zero t = [⟨t, .set e⟩, ⟨t, .dly 0⟩] := by
  simp [emissionEvents, emissionTime_of_zero h, chunkArgs, delayEvents]

/-- The row of TRAIL_ZERO, for a REP that is not 0 and a ROM entry that is (41_serializer R131). -/
theorem Live.sequencerStep_trailZero {s : State} {r : RepeatCount} (h : Live s) (hp : s.ph = .trailZero)
    (hr : s.rep = some r) (hne : r ≠ 0) (hz : s.rom.zero = 0) :
    sequencerStep s = .next
      { s with
        level := some (trailLevel s.cfg)
        dly := some 0
        trace := s.trace ++ [⟨s.time, .set (trailLevel s.cfg)⟩, ⟨s.time, .dly 0⟩]
        rep := some (r - 1)
        ph := if r - 1 = 0 then .postIdle else .leadIdle } := by
  have hrun := emission_eq (trailLevel s.cfg) .zero s (chunk_pos h.configured)
  rw [emissionEvents_of_zero hz, emissionTime_of_zero hz, Nat.zero_mod, Nat.add_zero, ← h.noRequest] at hrun
  rw [h.sequencerStep_pulse (pulse_trailZero hp), hrun, advance_trailZero (by exact hp) (by exact hr),
    repMinusOne, if_neg hne, branch_decide, ite_not]
  rfl

/-- Settles O32: the row of TRAIL_ZERO under both readings. -/
theorem trailZeroClosesTheFrame : Obligations.TrailZeroClosesTheFrame := by
  intro s r h hh hp hr hne hz
  rw [step_of_live_quiet h hh (by rw [hp]; rfl)]
  exact (h.taken s.host false).sequencerStep_trailZero hp hr hne hz

/-! ### The two readings of the frame trail -/

/-- A run goes on from the state that its first step answers. -/
theorem runSteps_succ {n : Nat} {s u : State} (h : step s = .next u) : runSteps (n + 1) s = runSteps n u := by
  simp only [runSteps, Host.Core.run, Sys2Proof.core, h]

/-- The step after a frame trail: `EMIT 0, TICK`, whether a frame follows or the postamble (41_serializer R126,
R132). -/
theorem Live.step_afterTrail {s : State} {again : Bool} (h : Live s) (hh : s.host = [])
    (hp : s.ph = branch again .leadIdle .postIdle) :
    step s = .next { emission .high .tick { s with done := false } with
      ph := branch again .leadActive .postActive } := by
  have hrow : (branch again .leadIdle .postIdle, false, .tick, branch again .leadActive .postActive) ∈
      straightRows := by cases again <;> decide
  obtain ⟨hi, hadv⟩ := issue_and_advance_of_straight hrow hp
  obtain ⟨-, u, hexec, hstep, ⟨hph, -⟩, -⟩ := h.step_of_emit hh hi
  rw [exec_emit (s := { s with done := false }) h.configured] at hexec
  cases hexec
  rw [hstep, hadv _ (hph.trans hp)]
  rfl

/-- Two steps from TRAIL_ZERO: what the reading decides is the level of the first of the two emissions that start at
the same time. -/
theorem Live.two_steps_of_trailZero {s : State} {r : RepeatCount} (h : Live s) (hh : s.host = [])
    (hp : s.ph = .trailZero) (hr : s.rep = some r) (hne : r ≠ 0) (hz : s.rom.zero = 0) :
    ∃ t, runSteps 2 s = .next t ∧
      t.trace = s.trace ++ ([⟨s.time, .set (trailLevel s.cfg)⟩, ⟨s.time, .dly 0⟩]
        ++ emissionEvents s.cfg s.rom .high .tick s.time) ∧
      t.oeLog = s.oeLog ∧ t.time = s.time + emissionTime s.cfg s.rom .tick ∧
      t.ph = branch (r - 1 ≠ 0) .leadActive .postActive ∧ t.level = some .high := by
  obtain ⟨u, hfirst, hlive, hhost, hph, hbuild, htrace, hoe, htime⟩ : ∃ u, step s = .next u ∧ Live u ∧ u.host = [] ∧
      u.ph = branch (r - 1 ≠ 0) .leadIdle .postIdle ∧ SameBuild s u ∧
      u.trace = s.trace ++ [⟨s.time, .set (trailLevel s.cfg)⟩, ⟨s.time, .dly 0⟩] ∧ u.oeLog = s.oeLog ∧
      u.time = s.time :=
    ⟨_, trailZeroClosesTheFrame s r h hh hp hr hne hz,
      ⟨h.configured, h.launched, h.noFault, h.free, h.noRequest⟩, hh, by rw [branch_decide, ite_not], ⟨rfl, rfl⟩,
      rfl, rfl, rfl⟩
  obtain ⟨hcfg, hrom⟩ := hbuild
  refine ⟨_, (runSteps_succ hfirst).trans (runSteps_succ (hlive.step_afterTrail hhost hph)), ?_⟩
  rw [emission_eq .high .tick { u with done := false } (chunk_pos hlive.configured)]
  simp only [htrace, hoe, htime, hcfg, hrom, List.append_assoc, and_self]

/-- The normalized waveform is a function of the marks and of PIN.OE's history (20_memory R57). -/
theorem normalized_congr {tr tr' : List Stamped} (h : marksOf tr = marksOf tr') (oe : List (Nat × Bool)) :
    normalized tr oe = normalized tr' oe := by
  simp only [normalized, changeTimes, lineOf, h]

/-- A level that is written over at the time of its own write leaves no mark: of several writes at one time the last
counts (20_memory R57). -/
theorem normalized_overwritten (tr : List Stamped) {es es' : List Stamped} {t : Nat} {x y z : Option Level}
    (hes : marksOf es = [(t, x), (t, z)]) (hes' : marksOf es' = [(t, y), (t, z)]) (oe : List (Nat × Bool)) :
    normalized (tr ++ es) oe = normalized (tr ++ es') oe := by
  cases hflt : noFlt tr with
  | false => exact normalized_congr (by rw [marksOf_append_of_flt _ _ hflt, marksOf_append_of_flt _ _ hflt]) oe
  | true =>
    have hlast : ∀ τ w, lastAt τ (marksOf tr ++ [(t, w), (t, z)]) =
        if t ≤ τ then some z else lastAt τ (marksOf tr) := fun τ w => by
      rw [List.append_cons, lastAt_snoc, lastAt_snoc]
      split <;> rfl
    simp only [normalized, changeTimes, lineOf, marksOf_append _ _ hflt, hes, hes', hlast, List.map_append,
      List.map_cons]

/-- Settles O33: the trail's level is written over at the same TIME by the HIGH of the next emission. -/
theorem trailReadingsGiveTheSameWaveform : Obligations.TrailReadingsGiveTheSameWaveform := by
  intro s r h hh hp hr hne hz
  have hlive : ∀ x, Live { s with cfg := { s.cfg with trailZero := x } } := fun _ =>
    ⟨h.configured, h.launched, h.noFault, h.free, h.noRequest⟩
  obtain ⟨t, hrun, htrace, hoe, htime, hph, hlevel⟩ := (hlive .law).two_steps_of_trailZero hh hp hr hne hz
  obtain ⟨t', hrun', htrace', hoe', htime', hph', hlevel'⟩ :=
    (hlive .literal4c).two_steps_of_trailZero hh hp hr hne hz
  refine ⟨t, t', hrun, hrun', ?_, htime.trans htime'.symm, hph.trans hph'.symm, hlevel.trans hlevel'.symm⟩
  rw [htrace, htrace', hoe, hoe']
  refine normalized_overwritten s.trace (t := s.time) (z := some .high) (x := some .high) (y := some .low) ?_ ?_ _
  · exact congrArg (_ :: ·) (marksOf_emissionEvents ..)
  · exact congrArg (_ :: ·) (marksOf_emissionEvents ..)

end Sys2Proof.Machine
end

section
/-! SUPPORT. The list of a transmit's micro-operations: its length and its EMITs by their index (41_serializer R135
to R138). -/

namespace Sys2Proof.Machine

/-! ### Its parts -/

/-- The half-pulses of n code bits are two each (41_serializer R135). -/
@[simp] theorem length_dataBits (v : CodeWord) (n : Nat) : (dataBits v n).length = 2 * n := by
  induction n with
  | zero => rfl
  | succ n ih => simp only [dataBits, bitPair, List.cons_append, List.nil_append, List.length_cons, ih]; omega

/-- A frame is its lead of two, its data of 64 and its trail of two (41_serializer R136). -/
@[simp] theorem length_frame (v : CodeWord) : (frame v).length = 68 := by simp [frame]

@[simp] theorem length_frames (v : CodeWord) (r : Nat) : (frames v r).length = 68 * r := by
  induction r with
  | zero => rfl
  | succ r ih => simp only [frames, List.length_append, length_frame, ih]; omega

/-- A list that consists of EMITs. -/
def AllEmits (l : List Instr) : Prop := ∀ i ∈ l, i.isEmit = true

theorem AllEmits.append {a b : List Instr} (ha : AllEmits a) (hb : AllEmits b) : AllEmits (a ++ b) :=
  fun i hi => (List.mem_append.1 hi).elim (ha i) (hb i)

theorem allEmits_dataBits (v : CodeWord) (n : Nat) : AllEmits (dataBits v n) := by
  induction n with
  | zero => exact nofun
  | succ n ih => exact AllEmits.append (by simp [AllEmits, bitPair, Instr.isEmit]) ih

theorem allEmits_frame (v : CodeWord) : AllEmits (frame v) := by
  refine (AllEmits.append ?_ (allEmits_dataBits v 32)).append ?_ <;> simp [AllEmits, Instr.isEmit]

theorem allEmits_frames (v : CodeWord) (r : Nat) : AllEmits (frames v r) := by
  induction r with
  | zero => exact nofun
  | succ r ih => exact (allEmits_frame v).append ih

/-- The EMITs of a transmit: all but its LINE_INITs (41_serializer R136). -/
theorem emits_seq (v : CodeWord) (r : Nat) (g : Bool) :
    emits (seq v r g) = [.emit true .long, .emit false .tick, .emit true .sep] ++
      (frames v r ++ [.emit false .tick, .emit true .tick]) := by
  have hframes : (frames v r).filter Instr.isEmit = frames v r := List.filter_eq_self.2 (allEmits_frames v r)
  simp only [emits, seq, List.filter_append, hframes, List.append_assoc]
  cases g <;> rfl

theorem length_emits_seq (v : CodeWord) (r : Nat) (g : Bool) : (emits (seq v r g)).length = emitCount r := by
  rw [emits_seq]
  simp only [List.length_append, List.length_cons, List.length_nil, length_frames, emitCount]
  omega

theorem length_seq (v : CodeWord) (r : Nat) (g : Bool) : (seq v r g).length = microOpCount r g := by
  cases g <;>
    simp only [seq, List.length_append, List.length_cons, List.length_nil, length_frames, microOpCount, emitCount,
      if_true, Bool.false_eq_true, if_false] <;>
    omega

/-- Settles O52: the parts' lengths add up, and a transmit has one or two LINE_INITs beside its EMITs. -/
theorem sequenceHasTheStatedCounts : Obligations.SequenceHasTheStatedCounts := by
  intro v r g
  rw [length_emits_seq, length_seq, microOpCount, emitCount]
  refine ⟨by omega, rfl, rfl, ?_⟩
  simp only [List.mem_cons, Prod.mk.injEq, List.not_mem_nil, or_false]
  omega

/-! ### The EMITs by index -/

/-- The half-pulses of code bit n - 1 - j stand at 2 * j and after it: the highest bit first (41_serializer R137). -/
theorem getElem?_dataBits (v : CodeWord) {n j : Nat} (h : j < n) :
    (dataBits v n)[2 * j]? = some (.emit (v.getLsbD (n - 1 - j)) .tick) ∧
    (dataBits v n)[2 * j + 1]? = some (.emit (!v.getLsbD (n - 1 - j)) .tick) := by
  induction n generalizing j with
  | zero => exact absurd h (Nat.not_lt_zero j)
  | succ n ih =>
    cases j with
    | zero => exact ⟨rfl, rfl⟩
    | succ j =>
      have hj := ih (Nat.lt_of_succ_lt_succ h)
      rwa [show n - 1 - j = n + 1 - 1 - (j + 1) by omega] at hj

/-- The data of a frame stand after its lead of two. -/
theorem getElem?_frame_data (v : CodeWord) {k : Nat} (h : k < 64) : (frame v)[2 + k]? = (dataBits v 32)[k]? := by
  rw [frame, List.append_assoc, List.getElem?_append_right (by simp), List.getElem?_append_left (by simpa using h)]
  simp

/-- The trail of a frame stands after its lead and its data. -/
theorem getElem?_frame_trail (v : CodeWord) (k : Nat) :
    (frame v)[66 + k]? = [Instr.emit true .sep, .emit false .zero][k]? := by
  rw [frame, List.getElem?_append_right (by simp)]
  simp

/-- Frame f stands after f frames. -/
theorem getElem?_frames (v : CodeWord) {r f k : Nat} (hf : f < r) (hk : k < 68) :
    (frames v r)[68 * f + k]? = (frame v)[k]? := by
  induction r generalizing f with
  | zero => exact absurd hf (Nat.not_lt_zero f)
  | succ r ih =>
    cases f with
    | zero => rw [frames, Nat.mul_zero, Nat.zero_add, List.getElem?_append_left (by simpa using hk)]
    | succ f =>
      rw [frames, List.getElem?_append_right (by simp; omega), ← ih (Nat.lt_of_succ_lt_succ hf), length_frame]
      congr 1
      omega

/-- The EMITs of frame f stand after the preamble's three and f frames (41_serializer R137). -/
theorem getElem?_emits_frame (v : CodeWord) (g : Bool) {r f k : Nat} (hf : f < r) (hk : k < 68) :
    (emits (seq v r g))[3 + 68 * f + k]? = (frame v)[k]? := by
  have hlt : 68 * f + k < 68 * r := by omega
  rw [emits_seq, Nat.add_assoc, List.getElem?_append_right (by simp), List.getElem?_append_left (by simpa using hlt),
    ← getElem?_frames v hf hk]
  simp

/-- The postamble's EMITs stand after the preamble's three and all frames (41_serializer R137). -/
theorem getElem?_emits_postamble (v : CodeWord) (r : Nat) (g : Bool) (k : Nat) :
    (emits (seq v r g))[3 + 68 * r + k]? = [Instr.emit false .tick, .emit true .tick][k]? := by
  rw [emits_seq, Nat.add_assoc, List.getElem?_append_right (by simp), List.getElem?_append_right (by simp)]
  simp

/-- Settles O53: preamble, frame by frame, and postamble. -/
theorem emitsStandAtTheirStatedIndices : Obligations.EmitsStandAtTheirStatedIndices := by
  intro v r g
  refine ⟨by rw [emits_seq]; rfl, by rw [emits_seq]; rfl, by rw [emits_seq]; rfl, fun f hf => ?_,
    getElem?_emits_postamble v r g 0, ?_⟩
  · have inFrame : ∀ k, k < 68 → (emits (seq v r g))[3 + 68 * f + k]? = (frame v)[k]? := fun k =>
      getElem?_emits_frame v g hf
    refine ⟨inFrame 0 (by omega), inFrame 1 (by omega), fun j hj => ?_, ?_, ?_⟩
    · obtain ⟨hbit, hcompl⟩ := getElem?_dataBits v hj
      constructor
      · rw [Nat.add_assoc, inFrame _ (by omega), getElem?_frame_data v (by omega), hbit]
      · rw [Nat.add_assoc, inFrame _ (by omega), show 3 + 2 * j = 2 + (2 * j + 1) by omega,
          getElem?_frame_data v (by omega), hcompl]
    · exact (inFrame 66 (by omega)).trans (getElem?_frame_trail v 0)
    · exact (inFrame 67 (by omega)).trans (getElem?_frame_trail v 1)
  · rw [show 4 + 68 * r = 3 + 68 * r + 1 by omega]
    exact getElem?_emits_postamble v r g 1

end Sys2Proof.Machine
end

section
/-! SUPPORT. The micro-operations still to come in a phase, and what one row of the sequencer's table does to them
(41_serializer R121 to R135). -/

namespace Sys2Proof.Machine

/-! ### What is still to come -/

/-- The postamble (41_serializer R135). -/
def postamble : List Instr := [.emit false .tick, .emit true .tick, .lineInit]

/-- `r` frames and the postamble. -/
def framesThenEnd (v : CodeWord) (r : Nat) : List Instr := frames v r ++ postamble

/-- A frame's trail, `r` further frames and the postamble. -/
def trailThenEnd (v : CodeWord) (r : Nat) : List Instr :=
  .emit true .sep :: .emit false .zero :: framesThenEnd v r

/-- The micro-operations from a phase to the end of the command, with code `v`, where REP holds `r` and BIT `n`. -/
def todoFrom (v : CodeWord) (r n : Nat) : Phase → List Instr
  | .idle => []
  | .preInit => .lineInit :: .emit true .long :: .emit false .tick :: .emit true .sep :: framesThenEnd v r
  | .preLong => .emit true .long :: .emit false .tick :: .emit true .sep :: framesThenEnd v r
  | .preTick => .emit false .tick :: .emit true .sep :: framesThenEnd v r
  | .preSep => .emit true .sep :: framesThenEnd v r
  | .leadIdle => .emit false .tick :: .emit true .tick :: (dataBits v 32 ++ trailThenEnd v (r - 1))
  | .leadActive => .emit true .tick :: (dataBits v 32 ++ trailThenEnd v (r - 1))
  | .dataFirst => dataBits v (n + 1) ++ trailThenEnd v (r - 1)
  | .dataSecond => .emit (!v.getLsbD n) .tick :: (dataBits v n ++ trailThenEnd v (r - 1))
  | .trailSep => trailThenEnd v (r - 1)
  | .trailZero => .emit false .zero :: framesThenEnd v (r - 1)
  | .postIdle => postamble
  | .postActive => [.emit true .tick, .lineInit]
  | .finalInit => [.lineInit]
  | .reservedE => []
  | .reservedF => []

/-- The number that REP holds. -/
def repeatsOf (s : State) : Nat := (s.rep.getD 0).toNat

/-- The micro-operations still to come in a state. -/
def todo (s : State) : List Instr := todoFrom (s.code.getD 0) (repeatsOf s) (s.bit.getD 0).toNat s.ph

/-- One frame more. -/
theorem framesThenEnd_succ (v : CodeWord) (r : Nat) : framesThenEnd v (r + 1) =
    .emit false .tick :: .emit true .tick :: (dataBits v 32 ++ trailThenEnd v r) := by
  simp only [framesThenEnd, frames, frame, trailThenEnd, List.append_assoc, List.cons_append, List.nil_append]

/-- After a test of the frame loop come the frames that REP counts (41_serializer R125, R131). -/
theorem todoFrom_loopTest (v : CodeWord) (r : RepeatCount) (n : Nat) :
    todoFrom v r.toNat n (branch (r ≠ 0) .leadIdle .postIdle) = framesThenEnd v r.toNat := by
  rw [branch_decide]
  split
  · obtain ⟨m, hm⟩ := Nat.exists_eq_succ_of_ne_zero fun h => ‹r ≠ 0› (BitVec.eq_of_toNat_eq h)
    rw [hm, framesThenEnd_succ]
    rfl
  · rw [not_not.1 ‹¬r ≠ 0›]
    rfl

/-! ### What the registers end with -/

/-- How many frames' data phases a phase has before it, where REP holds `r`; in a frame REP counts it too
(10_state R26). -/
def Phase.framesLeft (r : Nat) : Phase → Nat
  | .preInit | .preLong | .preTick | .preSep | .leadIdle | .leadActive | .dataFirst | .dataSecond => r
  | .trailSep | .trailZero => r - 1
  | .idle | .postIdle | .postActive | .finalInit | .reservedE | .reservedF => 0

/-- Whether a phase comes after every test of the frame loop. -/
def Phase.pastFrames : Phase → Bool
  | .preInit | .preLong | .preTick | .preSep | .leadIdle | .leadActive | .dataFirst | .dataSecond => false
  | .trailSep | .trailZero => false
  | .idle | .postIdle | .postActive | .finalInit | .reservedE | .reservedF => true

/-- What REP holds when the command under way completes. -/
def endRep (s : State) : Option RepeatCount := if s.ph.pastFrames then s.rep else some 0

/-- What BIT holds when the command under way completes: 0 after a frame, else what it held (41_serializer R140). -/
def endBit (s : State) : Option BitIndex := if s.ph.framesLeft (repeatsOf s) = 0 then s.bit else some 0

/-- What DLY holds when the command under way completes: the remainder of the last emission, a TICK. -/
def endDly (s : State) : Option Time :=
  if s.ph = .finalInit then s.dly
  else some (BitVec.ofNat 32 (emissionTime s.cfg s.rom .tick % s.cfg.chunk))

/-- After a test of the frame loop REP counts down to 0, or is 0 already. -/
theorem endRep_loopTest (s : State) (r : RepeatCount) :
    endRep { s with rep := some r, ph := branch (r ≠ 0) .leadIdle .postIdle } = some 0 := by
  rw [endRep, branch_decide]
  by_cases hr : r = 0
  · rw [if_neg (not_not.2 hr), hr]
    rfl
  · rw [if_pos hr]
    rfl

/-- After a test of the frame loop every frame that REP counts is still to come. -/
theorem framesLeft_loopTest (r : RepeatCount) :
    (branch (r ≠ 0) .leadIdle .postIdle).framesLeft r.toNat = r.toNat := by
  rw [branch_decide]
  split
  · rfl
  · rw [not_not.1 ‹¬r ≠ 0›]
    rfl

/-! ### One row -/

/-- What a phase issues, as the instruction that stands for it in the sequence: under `LITERAL_4C` the frame trail's
emission has no word of its own (log 12). -/
inductive Issues (s : State) : Instr → Prop where
  | emit (b : Bool) (c : DurClass) (hi : issue s = .word (emitWord b c)) : Issues s (.emit b c)
  | lineInit (hi : issue s = .word lineInitWord) : Issues s .lineInit
  | literalTrailZero (hi : issue s = .literalTrailZero) : Issues s (.emit false .zero)

/-- A row of 41_serializer R121 within a command, from `s` to `u`: what it issues comes off the front of what is still
to come, and what the registers end with stays. -/
structure Row (i : Instr) (s u : State) : Prop where
  issues : Issues s i
  update : ∃ p r b, u = { s with ph := p, rep := r, bit := b }
  todo : todo s = i :: todo u
  rep : endRep u = endRep s
  bit : endBit u = endBit s
  busy : u.ph ≠ .idle
  last : u.ph = .finalInit → i = .emit true .tick

/-- A row that changes PH alone. -/
theorem row_of_phase {s : State} {i : Instr} {p q : Phase} (hp : s.ph = p) (hi : Issues s i)
    (hadv : advance s = { s with ph := q })
    (htodo : todoFrom (s.code.getD 0) (repeatsOf s) (s.bit.getD 0).toNat p =
      i :: todoFrom (s.code.getD 0) (repeatsOf s) (s.bit.getD 0).toNat q)
    (hpast : q.pastFrames = p.pastFrames) (hleft : ∀ r, q.framesLeft r = p.framesLeft r) (hbusy : q ≠ .idle)
    (hlast : q = .finalInit → i = .emit true .tick) : Row i s (advance s) := by
  rw [hadv]
  exact
    { issues := hi
      update := ⟨q, s.rep, s.bit, rfl⟩
      todo := by rw [todo, hp, htodo]; rfl
      rep := by simp only [endRep, hp, hpast]
      bit := by simp only [endBit, repeatsOf, hp, hleft]
      busy := hbusy
      last := hlast }

/-- What a straight row does to what is still to come. -/
theorem todoFrom_of_straight {p q : Phase} {b : Bool} {c : DurClass} (hrow : (p, b, c, q) ∈ straightRows) :
    (∀ v r n, todoFrom v r n p = .emit b c :: todoFrom v r n q) ∧ q.pastFrames = p.pastFrames ∧
    (∀ r, q.framesLeft r = p.framesLeft r) ∧ q ≠ .idle ∧ (q = .finalInit → b = true ∧ c = .tick) := by
  simp only [straightRows, List.mem_cons, Prod.mk.injEq, List.not_mem_nil, or_false] at hrow
  obtain ⟨rfl, rfl, rfl, rfl⟩ | ⟨rfl, rfl, rfl, rfl⟩ | ⟨rfl, rfl, rfl, rfl⟩ | ⟨rfl, rfl, rfl, rfl⟩ |
    ⟨rfl, rfl, rfl, rfl⟩ | ⟨rfl, rfl, rfl, rfl⟩ := hrow
  all_goals exact ⟨fun _ _ _ => rfl, rfl, fun _ => rfl, nofun, by decide⟩

theorem row_of_straight {s : State} {p q : Phase} {b : Bool} {c : DurClass} (hrow : (p, b, c, q) ∈ straightRows)
    (hp : s.ph = p) : Row (.emit b c) s (advance s) := by
  obtain ⟨hi, hadv⟩ := issue_and_advance_of_straight hrow hp
  obtain ⟨htodo, hpast, hleft, hbusy, hlast⟩ := todoFrom_of_straight hrow
  refine row_of_phase hp (.emit b c hi) (hadv s hp) (htodo _ _ _) hpast hleft hbusy fun hq => ?_
  obtain ⟨hb, hc⟩ := hlast hq
  rw [hb, hc]

/-- The rows of the frame loop's tests, of PRE_SEP and TRAIL_ZERO, where REP becomes `r`. -/
theorem row_of_loopTest {s : State} {i : Instr} {r : RepeatCount} (hi : Issues s i)
    (hadv : advance s = { s with rep := some r, ph := branch (r ≠ 0) .leadIdle .postIdle })
    (htodo : todo s = i :: framesThenEnd (s.code.getD 0) r.toNat) (hpast : s.ph.pastFrames = false)
    (hleft : s.ph.framesLeft (repeatsOf s) = r.toNat) : Row i s (advance s) := by
  have hph : branch (r ≠ 0) .leadIdle .postIdle = .leadIdle ∨ branch (r ≠ 0) .leadIdle .postIdle = .postIdle := by
    rw [branch_decide]
    split
    · exact .inl rfl
    · exact .inr rfl
  rw [hadv]
  exact
    { issues := hi
      update := ⟨_, _, s.bit, rfl⟩
      todo := by rw [htodo, ← todoFrom_loopTest]; rfl
      rep := by rw [endRep_loopTest, endRep, hpast]; rfl
      bit := by
        have hsame : Phase.framesLeft r.toNat (branch (r ≠ 0) .leadIdle .postIdle) = r.toNat := framesLeft_loopTest r
        rw [endBit, endBit, hleft]
        simp only [repeatsOf, Option.getD_some, hsame]
      busy := by rcases hph with hph | hph <;> simp only [hph, ne_eq, reduceCtorEq, not_false_eq_true]
      last := by rcases hph with hph | hph <;> simp only [hph, reduceCtorEq, false_implies] }

/-- What TRAIL_ZERO issues under either reading (41_serializer R131). -/
theorem issues_trailZero {s : State} (hp : s.ph = .trailZero) : Issues s (.emit false .zero) := by
  cases ht : s.cfg.trailZero with
  | law => exact .emit false .zero (by simp only [issue, hp, ht])
  | literal4c => exact .literalTrailZero (by simp only [issue, hp, ht])

/-- Within a frame every register a phase reads holds a value, and REP is not 0. -/
theorem RegistersInv.inFrame {s : State} (h : RegistersInv s) (hf : s.ph.inFrame = true)
    (ht : s.ph.inTransmit = true) : ∃ v r, s.code = some v ∧ s.rep = some r ∧ r.toNat ≠ 0 := by
  obtain ⟨v, r, hv, hr⟩ := h.written ht
  exact ⟨v, r, hv, hr, fun hzero => h.frame hf (hr.trans (congrArg some (BitVec.eq_of_toNat_eq hzero)))⟩

/-- The row of LEAD_ACTIVE (41_serializer R127). -/
theorem RegistersInv.row_leadActive {s : State} (h : RegistersInv s) (hp : s.ph = .leadActive) :
    Row (.emit true .tick) s (advance s) := by
  obtain ⟨-, r, -, hr, hne⟩ := h.inFrame (by rw [hp]; rfl) (by rw [hp]; rfl)
  rw [advance_leadActive hp]
  exact
    { issues := .emit _ _ (by simp only [issue, hp])
      update := ⟨_, s.rep, _, rfl⟩
      todo := by rw [todo, hp]; rfl
      rep := by simp only [endRep, hp, Phase.pastFrames, Bool.false_eq_true, if_false]
      bit := by simp only [endBit, repeatsOf, hp, hr, Phase.framesLeft, Option.getD_some, if_neg hne]
      busy := nofun
      last := nofun }

/-- The row of DATA_FIRST (41_serializer R128). -/
theorem RegistersInv.row_dataFirst {s : State} (h : RegistersInv s) (hp : s.ph = .dataFirst) :
    ∃ i, Row i s (advance s) := by
  obtain ⟨v, -, hv, -⟩ := h.inFrame (by rw [hp]; rfl) (by rw [hp]; rfl)
  obtain ⟨n, hn⟩ := h.bit (by rw [hp]; rfl)
  exact ⟨_, row_of_phase hp (.emit _ _ (issue_dataFirst hp hv hn)) (advance_dataFirst hp) (by rw [hv, hn]; rfl) rfl
    (fun _ => rfl) nofun nofun⟩

/-- The row of DATA_SECOND: the next bit, or the frame's trail after bit 0 (41_serializer R129). -/
theorem RegistersInv.row_dataSecond {s : State} (h : RegistersInv s) (hp : s.ph = .dataSecond) :
    ∃ i, Row i s (advance s) := by
  obtain ⟨v, r, hv, hr, hne⟩ := h.inFrame (by rw [hp]; rfl) (by rw [hp]; rfl)
  obtain ⟨n, hn⟩ := h.bit (by rw [hp]; rfl)
  have hi : Issues s (.emit (!v.getLsbD n.toNat) .tick) := .emit _ _ (issue_dataSecond hp hv hn)
  rw [advance_dataSecond hp hn]
  by_cases hzero : n = 0
  · rw [if_neg (not_not.2 hzero)]
    subst hzero
    exact ⟨_,
      { issues := hi
        update := ⟨_, s.rep, s.bit, rfl⟩
        todo := by simp only [todo, repeatsOf, hp, hv, hn, todoFrom, Option.getD_some]; rfl
        rep := by simp only [endRep, hp, Phase.pastFrames, Bool.false_eq_true, if_false]
        bit := by simp only [endBit, repeatsOf, hp, hr, hn, Phase.framesLeft, Option.getD_some, if_neg hne, ite_self]
        busy := nofun
        last := nofun }⟩
  · have hpred : (n - 1).toNat + 1 = n.toNat := by bv_omega
    rw [if_pos hzero]
    exact ⟨_,
      { issues := hi
        update := ⟨_, s.rep, _, rfl⟩
        todo := by simp only [todo, repeatsOf, hp, hv, hn, todoFrom, Option.getD_some, hpred]
        rep := by simp only [endRep, hp, Phase.pastFrames, Bool.false_eq_true, if_false]
        bit := by simp only [endBit, repeatsOf, hp, hr, Phase.framesLeft, Option.getD_some, if_neg hne]
        busy := nofun
        last := nofun }⟩

/-- The row of a phase within a command, unless it is the last (41_serializer R121). -/
theorem RegistersInv.row {s : State} (h : RegistersInv s) (hidle : s.ph ≠ .idle) (hfinal : s.ph ≠ .finalInit) :
    ∃ i, Row i s (advance s) := by
  cases hp : s.ph with
  | idle => exact absurd hp hidle
  | finalInit => exact absurd hp hfinal
  | reservedE | reservedF => exact absurd h.phase (by rw [hp]; decide)
  | preInit =>
    exact ⟨_, row_of_phase hp (.lineInit (by simp only [issue, hp])) (advance_preInit hp) rfl rfl (fun _ => rfl)
      nofun nofun⟩
  | preLong => exact ⟨_, row_of_straight (q := .preTick) (b := true) (c := .long) (by decide) hp⟩
  | preTick => exact ⟨_, row_of_straight (q := .preSep) (b := false) (c := .tick) (by decide) hp⟩
  | leadIdle => exact ⟨_, row_of_straight (q := .leadActive) (b := false) (c := .tick) (by decide) hp⟩
  | trailSep => exact ⟨_, row_of_straight (q := .trailZero) (b := true) (c := .sep) (by decide) hp⟩
  | postIdle => exact ⟨_, row_of_straight (q := .postActive) (b := false) (c := .tick) (by decide) hp⟩
  | postActive => exact ⟨_, row_of_straight (q := .finalInit) (b := true) (c := .tick) (by decide) hp⟩
  | preSep =>
    obtain ⟨-, r, -, hr⟩ := h.written (by rw [hp]; rfl)
    refine ⟨.emit true .sep, row_of_loopTest (r := r) (.emit _ _ (by simp only [issue, hp])) ?_ ?_ ?_ ?_⟩
    · rw [advance_preSep hp hr, ← hr]
    · simp only [todo, hp, hr, todoFrom, repeatsOf, Option.getD_some]
    · rw [hp]; rfl
    · simp only [hp, hr, Phase.framesLeft, repeatsOf, Option.getD_some]
  | trailZero =>
    obtain ⟨-, r, -, hr⟩ := h.written (by rw [hp]; rfl)
    have hne : r ≠ 0 := fun hzero => h.frame (by rw [hp]; rfl) (hr.trans (congrArg some hzero))
    have hpred : (r - 1).toNat = r.toNat - 1 := by bv_omega
    refine ⟨.emit false .zero, row_of_loopTest (r := r - 1) (issues_trailZero hp) ?_ ?_ ?_ ?_⟩
    · rw [advance_trailZero hp hr, repMinusOne, if_neg hne]
    · simp only [todo, hp, hr, todoFrom, repeatsOf, Option.getD_some, hpred]
    · rw [hp]; rfl
    · simp only [hp, hr, Phase.framesLeft, repeatsOf, Option.getD_some, hpred]
  | leadActive => exact ⟨_, h.row_leadActive hp⟩
  | dataFirst => exact h.row_dataFirst hp
  | dataSecond => exact h.row_dataSecond hp

end Sys2Proof.Machine
end

section
/-! SUPPORT. A command that runs undisturbed to its end, and whole transmits (41_serializer R135, R139, R140;
42_commands R151; 70_reset_and_hazards R194). -/

namespace Sys2Proof.Machine

/-! ### A micro-operation of the sequence -/

/-- How long a micro-operation lasts (40_driver R99, R100). -/
def microTime (k : Config) (rom : Rom) : Instr → Nat
  | .emit _ c => emissionTime k rom c
  | .lineInit => 0
  | .construct => 0
  | .init => 0
  | .transmit _ _ => 0

/-- How long a list of micro-operations lasts. -/
def sequenceTime (k : Config) (rom : Rom) (l : List Instr) : Nat := (l.map (microTime k rom)).sum

/-- The events of a micro-operation come first, and then those of the rest, which starts when it ends. -/
theorem microEvents_cons (k : Config) (rom : Rom) (i : Instr) (l : List Instr) (t : Nat) :
    microEvents k rom (i :: l) t = microEvents k rom [i] t ++ microEvents k rom l (t + microTime k rom i) := by
  cases i <;> simp [microEvents, microTime]

/-- What a micro-operation `i`, run to its end from `s`, leaves; its events are those of the sequence under `LAW`. -/
structure Ran (i : Instr) (s m : State) : Prop where
  registers : seqRegisters m = seqRegisters s
  build : SameBuild s m
  live : Live m
  time : m.time = s.time + microTime s.cfg s.rom i
  trace : s.cfg.trailZero = .law → m.trace = s.trace ++ microEvents s.cfg s.rom [i] s.time
  dly : ∀ b c, i = .emit b c → m.dly = some (BitVec.ofNat 32 (emissionTime s.cfg s.rom c % s.cfg.chunk))

/-- An emission, at the level of the sequence's EMIT under `LAW`. -/
theorem Live.ran_emission {s : State} (h : Live s) (e : Level) (b : Bool) (c : DurClass)
    (he : s.cfg.trailZero = .law → e = phys b) : Ran (.emit b c) s (emission e c s) := by
  rw [emission_eq e c s (chunk_pos h.configured)]
  exact
    { registers := rfl
      build := ⟨rfl, rfl⟩
      live := ⟨h.configured, h.launched, h.noFault, h.free, rfl⟩
      time := rfl
      trace := fun hlaw => by rw [he hlaw, microEvents, microEvents, List.append_nil]
      dly := fun _ _ hi => by cases hi; rfl }

theorem Live.ran_lineInit {s : State} (h : Live s) : Ran .lineInit s (lineInitActions s) := by
  rw [lineInitActions_eq]
  exact
    { registers := rfl
      build := ⟨rfl, rfl⟩
      live := ⟨h.configured, h.launched, h.noFault, h.free, h.noRequest⟩
      time := rfl
      trace := fun _ => rfl
      dly := nofun }

/-- Only the literal reading of the frame trail issues an emission without a word (41_serializer R131; log 12). -/
theorem trailZero_of_literalTrailZero {s : State} (h : issue s = .literalTrailZero) :
    s.cfg.trailZero = .literal4c := by
  cases hp : s.ph with
  | trailZero =>
    cases ht : s.cfg.trailZero with
    | law => simp [issue, hp, ht] at h
    | literal4c => rfl
  | dataFirst | dataSecond =>
    simp only [issue, hp] at h
    cases hb : codeBit s <;> simp [hb, dataHalf] at h
  | _ => simp [issue, hp] at h

/-- What the phase issues runs to its end, and the updates follow. -/
theorem Live.sequencerStep_issues {s : State} {i : Instr} (h : Live s) (hi : Issues s i) :
    ∃ m, sequencerStep s = .next (advance m) ∧ Ran i s m := by
  cases hi with
  | emit b c hi =>
    exact ⟨_, h.sequencerStep_pulse (by rw [hi, pulse_emitWord]), h.ran_emission (phys b) b c fun _ => rfl⟩
  | lineInit hi => exact ⟨_, h.sequencerStep_lineInit hi, h.ran_lineInit⟩
  | literalTrailZero hi =>
    refine ⟨_, h.sequencerStep_pulse (e := .low) (c := .zero) (by rw [hi]; rfl), h.ran_emission .low false .zero ?_⟩
    intro hlaw
    rw [trailZero_of_literalTrailZero hi] at hlaw
    cases hlaw

/-- Under `LAW` what a phase issues to the driver is its instruction of the sequence. -/
theorem Live.issuedInstr_of_issues {s : State} {i : Instr} (h : Live s) (hi : Issues s i)
    (hlaw : s.cfg.trailZero = .law) : issuedInstr s = some i := by
  cases hi with
  | emit b c hi => exact h.issuedInstr_of_word hi (decodeMicro_emitWord b c)
  | lineInit hi => exact h.issuedInstr_of_word hi decodeMicro_lineInitWord
  | literalTrailZero hi =>
    rw [trailZero_of_literalTrailZero hi] at hlaw
    cases hlaw

/-- Issuing depends on the registers alone. -/
theorem Issues.congr {s m : State} {i : Instr} (h : Issues m i) (e : seqRegisters m = seqRegisters s) :
    Issues s i := by
  have hi := issue_congr e
  cases h with
  | emit b c h => exact .emit b c (hi ▸ h)
  | lineInit h => exact .lineInit (hi ▸ h)
  | literalTrailZero h => exact .literalTrailZero (hi ▸ h)

/-! ### One step of a command -/

/-- One step of a command from `s` to `u`, by micro-operation `i`, not its last. -/
structure Progress (i : Instr) (s u : State) : Prop where
  live : Live u
  registers : RegistersInv u
  busy : u.ph ≠ .idle
  kept : u.code = s.code ∧ u.cmd = s.cmd ∧ SameBuild s u
  issued : s.cfg.trailZero = .law → issuedInstr s = some i
  todo : todo s = i :: todo u
  rep : endRep u = endRep s
  bit : endBit u = endBit s
  dly : endDly u = endDly s
  time : u.time = s.time + microTime s.cfg s.rom i
  trace : s.cfg.trailZero = .law → u.trace = s.trace ++ microEvents s.cfg s.rom [i] s.time

/-- What is still to come, and what the registers end with, depend on the registers alone. -/
theorem todo_congr {s m : State} (e : seqRegisters m = seqRegisters s) :
    todo m = todo s ∧ endRep m = endRep s ∧ endBit m = endBit s := by
  simp only [seqRegisters, Prod.mk.injEq] at e
  obtain ⟨hph, hcode, hrep, hbit, -⟩ := e
  refine ⟨?_, ?_, ?_⟩
  · rw [todo, todo, repeatsOf, repeatsOf, hph, hcode, hrep, hbit]
  · rw [endRep, endRep, hph, hrep]
  · rw [endBit, endBit, repeatsOf, repeatsOf, hph, hrep, hbit]

/-- A micro-operation and its row make a step of the command. -/
theorem Ran.progress {i : Instr} {s m : State} (hs : Live s) (hr : RegistersInv s) (hfinal : s.ph ≠ .finalInit)
    (hm : Ran i s m) (hrow : Row i m (advance m)) : Progress i s (advance m) := by
  obtain ⟨hcfg, hrom⟩ := hm.build
  obtain ⟨htodo, hrep, hbit⟩ := todo_congr hm.registers
  have hinv : RegistersInv (advance m) := registersInv_advance (hr.congr hm.registers)
  have hregs := hm.registers
  simp only [seqRegisters, Prod.mk.injEq] at hregs
  obtain ⟨-, hcode, -, -, hcmd, -⟩ := hregs
  obtain ⟨p, r, b, hadv⟩ := hrow.update
  refine
    { live := ?_
      registers := hinv
      busy := hrow.busy
      kept := ?_
      issued := hs.issuedInstr_of_issues (hrow.issues.congr hm.registers)
      todo := htodo.symm.trans hrow.todo
      rep := hrow.rep.trans hrep
      bit := hrow.bit.trans hbit
      dly := ?_
      time := ?_
      trace := ?_ }
  · rw [hadv]
    exact ⟨hm.live.configured, hm.live.launched, hm.live.noFault, hm.live.free, hm.live.noRequest⟩
  · rw [hadv]
    exact ⟨hcode, hcmd, hm.build⟩
  · have hlast := hrow.last
    rw [hadv] at hlast ⊢
    rw [endDly, endDly, if_neg hfinal]
    split
    · exact hm.dly _ _ (hlast ‹_›)
    · rw [← hcfg, ← hrom]
  · rw [hadv]
    exact hm.time
  · rw [hadv]
    exact hm.trace

/-- The step of the sequencer within a command: the micro-operation leaves the registers, and its row follows. -/
theorem Live.sequencerStep_progress {s : State} (h : Live s) (hr : RegistersInv s) (hidle : s.ph ≠ .idle)
    (hfinal : s.ph ≠ .finalInit) : ∃ i u, sequencerStep s = .next u ∧ Progress i s u := by
  obtain ⟨i, hrow⟩ := hr.row hidle hfinal
  obtain ⟨m, hstep, hm⟩ := h.sequencerStep_issues hrow.issues
  have hph : m.ph = s.ph := congrArg Prod.fst hm.registers
  obtain ⟨j, hrow'⟩ := (hr.congr hm.registers).row (hph ▸ hidle) (hph ▸ hfinal)
  obtain rfl : j = i := by
    have htodo := hrow'.todo.symm.trans ((todo_congr hm.registers).1.trans hrow.todo)
    exact (List.cons.inj htodo).1
  exact ⟨j, advance m, hstep, hm.progress h hr hfinal hrow'⟩

/-! ### The step under undisturbed moves -/

/-- A run goes on without disturbance, and its first step is not disturbed. -/
theorem undisturbed_succ {n : Nat} {s : State} (h : Undisturbed (n + 1) s = true) :
    (presentsCommand s = true → busy s = false) ∧ interferes s = false ∧ resets s = false ∧ holds s = false ∧
    ∀ u, step s = .next u → Undisturbed n u = true := by
  simp only [Undisturbed, HostSerializes, NoInterference, NoResetDuring, PlatformAnswers, throughout,
    Bool.and_eq_true, Bool.or_eq_true, Bool.not_eq_true'] at h
  obtain ⟨⟨hcommand, hser⟩, ⟨hint, hnoint⟩, ⟨hrst, hnorst⟩, hhold, hans⟩ := h
  refine ⟨fun hc => ?_, hint, hrst, hhold, fun u hu => ?_⟩
  · rcases hcommand with hn | hb
    · rw [hc] at hn; cases hn
    · exact hb
  · rw [hu] at hser hnoint hnorst hans
    simp only [Undisturbed, HostSerializes, NoInterference, NoResetDuring, PlatformAnswers, hser, hnoint, hnorst,
      hans, Bool.and_self]

/-- The step of a busy block that nothing disturbs is the sequencer's: a wait stays presented, and any other move
passes (41_serializer R120; 42_commands R158). -/
theorem Live.step_of_undisturbed {n : Nat} {s : State} (h : Live s) (hp : s.ph ≠ .idle)
    (hres : s.ph.isReserved = false) (hu : Undisturbed (n + 1) s = true) :
    ∃ moves, step s = sequencerStep { s with host := moves, done := false } := by
  obtain ⟨hcommand, hint, hrst, hhold, -⟩ := undisturbed_succ hu
  have hbusy : busy s = true := by simpa [busy] using hp
  have live : ∀ (moves : List HostMove) (k j : State → Result),
      whenLive { s with host := moves } k j = j { s with host := moves, done := false } := fun moves =>
    whenLive_eq (s := { s with host := moves }) h.launched h.noFault h.free hres
  cases hh : s.host with
  | nil => exact ⟨s.host, step_of_live_quiet h hh hres⟩
  | cons m rest =>
    cases m with
    | rst cut => simp [resets, hh] at hrst
    | interfere => simp [interferes, hh] at hint
    | hold k => simp [holds, hh] at hhold
    | command w => simp [presentsCommand, hh, hbusy] at hcommand
    | wait k =>
      refine ⟨.wait k :: rest, ?_⟩
      rw [step, arbitrate, configured_eq h.configured, hh]
      exact (live rest _ _).trans (if_pos hbusy)
    | pass | ack =>
      refine ⟨rest, ?_⟩
      rw [step, arbitrate, configured_eq h.configured, hh]
      exact live rest _ _

/-! ### The end of a command -/

/-- The state `t` in which the command that is under way in `s` completes. -/
structure Ends (s t : State) : Prop where
  idle : t.ph = .idle
  line : t.oe = true ∧ t.level = some .high ∧ t.guard = true
  noFault : t.fault = none
  code : t.code = s.code
  rep : t.rep = endRep s
  bit : t.bit = endBit s
  dly : t.dly = endDly s
  time : t.time = s.time + sequenceTime s.cfg s.rom (todo s)
  trace : s.cfg.trailZero = .law →
    t.trace = s.trace ++ microEvents s.cfg s.rom (todo s) s.time ++ [⟨t.time, .done s.cmd⟩]

/-- The last step of a command: FINAL_INIT (41_serializer R134). -/
theorem Live.sequencerStep_ends {s : State} (h : Live s) (hp : s.ph = .finalInit) :
    ∃ t, sequencerStep s = .next t ∧ Ends s t := by
  have htodo : todo s = [.lineInit] := by rw [todo, hp]; rfl
  refine ⟨_, h.sequencerStep_lineInit (by simp only [issue, hp]), ?_⟩
  rw [advance_finalInit (by exact hp), lineInitActions_eq]
  exact
    { idle := rfl
      line := ⟨rfl, rfl, rfl⟩
      noFault := h.noFault
      code := rfl
      rep := by rw [endRep, hp]; rfl
      bit := by rw [endBit, hp]; rfl
      dly := by rw [endDly, if_pos hp]; rfl
      time := by rw [htodo]; rfl
      trace := fun _ => by rw [htodo]; rfl }

/-- A step before the end. -/
theorem Progress.ends {i : Instr} {s u t : State} (h : Progress i s u) (ht : Ends u t) : Ends s t := by
  obtain ⟨hcode, hcmd, hcfg, hrom⟩ := h.kept
  exact
    { idle := ht.idle
      line := ht.line
      noFault := ht.noFault
      code := ht.code.trans hcode
      rep := ht.rep.trans h.rep
      bit := ht.bit.trans h.bit
      dly := ht.dly.trans h.dly
      time := by
        rw [ht.time, h.time, h.todo, hcfg, hrom, sequenceTime, sequenceTime, List.map_cons, List.sum_cons,
          Nat.add_assoc]
      trace := fun hlaw => by
        rw [ht.trace (hcfg ▸ hlaw), h.trace hlaw, h.todo, microEvents_cons _ _ i (Machine.todo u), h.time, hcfg, hrom,
          hcmd, List.append_assoc s.trace] }

/-- What a command ends with does not depend on the moves to come and the `done` pulse. -/
theorem Ends.of_taken {s t : State} {moves : List HostMove} {d : Bool}
    (h : Ends { s with host := moves, done := d } t) : Ends s t := { h with }

/-- Within a command there is something still to come. -/
theorem RegistersInv.todo_ne_nil {s : State} (h : RegistersInv s) (hidle : s.ph ≠ .idle) : todo s ≠ [] := by
  by_cases hfinal : s.ph = .finalInit
  · rw [todo, hfinal]
    exact List.cons_ne_nil _ _
  · obtain ⟨i, hrow⟩ := h.row hidle hfinal
    rw [hrow.todo]
    exact List.cons_ne_nil _ _

/-- The micro-operations that a run issues are those of its first step and of the rest. -/
theorem issuedOver_succ {n : Nat} {s u : State} (h : step s = .next u) :
    issuedOver (n + 1) s = (issuedInstr s).toList ++ issuedOver n u := by
  simp only [issuedOver, h]

/-- A command that nothing disturbs issues what is still to come, one micro-operation a step, and completes. -/
theorem Live.runs_to_its_end (n : Nat) : ∀ s : State, Live s → RegistersInv s → s.ph ≠ .idle →
    (todo s).length = n → Undisturbed n s = true →
    ∃ t, runSteps n s = .next t ∧ Ends s t ∧ (s.cfg.trailZero = .law → issuedOver n s = todo s) := by
  induction n with
  | zero => exact fun s _ hr hidle hn _ => absurd (List.eq_nil_of_length_eq_zero hn) (hr.todo_ne_nil hidle)
  | succ n ih =>
    intro s h hr hidle hn hu
    obtain ⟨moves, hstep⟩ := h.step_of_undisturbed hidle hr.phase hu
    obtain ⟨-, -, -, -, hrest⟩ := undisturbed_succ hu
    by_cases hfinal : s.ph = .finalInit
    · obtain ⟨t, hseq, hends⟩ := (h.taken moves false).sequencerStep_ends hfinal
      have htodo : todo s = [.lineInit] := by rw [todo, hfinal]; rfl
      obtain rfl : n = 0 := by rw [htodo] at hn; exact (Nat.succ.inj hn).symm
      have hissued := h.issuedInstr_of_word (by simp only [issue, hfinal]) decodeMicro_lineInitWord
      refine ⟨t, (runSteps_succ (hstep.trans hseq)).trans rfl, hends.of_taken, fun _ => ?_⟩
      rw [issuedOver_succ (hstep.trans hseq), hissued, htodo]
      rfl
    · obtain ⟨i, u, hseq, hprog⟩ := (h.taken moves false).sequencerStep_progress (hr.congr rfl) hidle hfinal
      have hsu := hstep.trans hseq
      have htodo : todo s = i :: todo u := hprog.todo
      have hlen : (todo u).length = n := by rw [htodo] at hn; exact Nat.succ.inj hn
      obtain ⟨t, hrun, hends, hissued⟩ := ih u hprog.live hprog.registers hprog.busy hlen (hrest u hsu)
      obtain ⟨-, -, hcfg, -⟩ := hprog.kept
      refine ⟨t, (runSteps_succ hsu).trans hrun, (hprog.ends hends).of_taken, fun hlaw => ?_⟩
      have hfirst : issuedInstr s = some i := hprog.issued hlaw
      rw [issuedOver_succ hsu, hissued ((congrArg Config.trailZero hcfg).trans hlaw), hfirst, htodo]
      rfl

/-! ### A transmit -/

/-- The state in which an idle block has accepted `TRANSMIT v, r` (42_commands R156). -/
def accepted (v : CodeWord) (r : RepeatCount) (rest : List HostMove) (s : State) : State :=
  { s with
    host := rest
    done := false
    code := some v
    rep := some r
    ph := if s.guard then .preLong else .preInit
    cmd := .transmit }

theorem Live.step_of_transmit {v : CodeWord} {r : RepeatCount} {s : State} {rest : List HostMove} (h : Live s)
    (hp : s.ph = .idle) (hh : s.host = .command (assembleC64 v r 2) :: rest) :
    step s = .next (accepted v r rest s) := by
  rw [h.step_of_command hp hh, acceptWord, decodeCommand_transmitWord]
  simp only [exec, execTransmit]
  rw [configured_eq (by exact h.configured), accept_idle (by exact h.noFault) (by exact hp)]
  rfl

/-- What an accepted TRANSMIT has still to come is its sequence (41_serializer R135). -/
theorem todo_accepted (v : CodeWord) (r : RepeatCount) (rest : List HostMove) (s : State) :
    todo (accepted v r rest s) = seq v r.toNat s.guard := by
  cases hg : s.guard <;> simp [todo, accepted, repeatsOf, hg, todoFrom, framesThenEnd, postamble, seq]

/-- The phases that follow an acceptance: REP is to be counted down, and BIT is read where there is a frame. -/
theorem ends_accepted {v : CodeWord} {r : RepeatCount} {rest : List HostMove} {s t : State}
    (h : Ends (accepted v r rest s) t) :
    t.rep = some 0 ∧ t.bit = (if r.toNat = 0 then s.bit else some 0) ∧
    t.dly = some (BitVec.ofNat 32 (emissionTime s.cfg s.rom .tick % s.cfg.chunk)) := by
  rw [h.rep, h.bit, h.dly, endRep, endBit, endDly]
  cases hg : s.guard <;> simp [accepted, hg, Phase.pastFrames, Phase.framesLeft, repeatsOf]

/-- A transmit that nothing disturbs issues its sequence and completes. -/
theorem Live.transmit_runs {v : CodeWord} {r : RepeatCount} {s : State} {rest : List HostMove} (h : Live s)
    (hp : s.ph = .idle) (hh : s.host = .command (assembleC64 v r 2) :: rest)
    (hu : Undisturbed (1 + microOpCount r.toNat s.guard) s = true) :
    ∃ t, runSteps (1 + microOpCount r.toNat s.guard) s = .next t ∧ Ends (accepted v r rest s) t ∧
      (s.cfg.trailZero = .law →
        issuedOver (1 + microOpCount r.toNat s.guard) s = seq v r.toNat s.guard) := by
  rw [Nat.add_comm] at hu ⊢
  have hstep := h.step_of_transmit hp hh
  obtain ⟨-, -, -, -, hrest⟩ := undisturbed_succ hu
  have hlive : Live (accepted v r rest s) := ⟨h.configured, h.launched, h.noFault, h.free, h.noRequest⟩
  have hbusy : (accepted v r rest s).ph ≠ .idle := by cases hg : s.guard <;> simp [accepted, hg]
  have hinv := stepKeepsTheSequencerInvariant s _ ((registersInv_idle hp).sequencerInv h.free h.noRequest) hstep
  have htodo := todo_accepted v r rest s
  obtain ⟨t, hrun, hends, hissued⟩ := hlive.runs_to_its_end (microOpCount r.toNat s.guard) _
    hinv.registersInv hbusy (by rw [htodo, length_seq]) (hrest _ hstep)
  refine ⟨t, (runSteps_succ hstep).trans hrun, hends, fun hlaw => ?_⟩
  have hidle : issuedInstr s = none := by rw [issuedInstr, h.free, issue, hp]
  rw [issuedOver_succ hstep, hidle, hissued hlaw, htodo]
  rfl

/-- Settles O48: what is still to come after the acceptance is the sequence. -/
theorem transmitIssuesExactlyTheSequence : Obligations.TransmitIssuesExactlyTheSequence := by
  intro v r s rest h hp hlaw hh hu
  rw [length_seq] at hu ⊢
  obtain ⟨t, hrun, hends, hissued⟩ := h.transmit_runs hp hh hu
  exact ⟨hissued hlaw, t, hrun, hends.idle⟩

/-- Settles O49: the registers of the completed transmit. -/
theorem transmitEndsWithTheIdleLine : Obligations.TransmitEndsWithTheIdleLine := by
  intro v r s rest h hp hh hu
  obtain ⟨t, hrun, hends, -⟩ := h.transmit_runs hp hh hu
  obtain ⟨hoe, hlevel, hguard⟩ := hends.line
  obtain ⟨hrep, hbit, hdly⟩ := ends_accepted hends
  exact ⟨t, hrun, hends.idle, hoe, hlevel, hguard, hends.code, hrep, hends.noFault,
    fun hr => hbit.trans (if_neg (by omega)), fun hr => hbit.trans (if_pos hr), hdly⟩

/-! ### Its duration -/

theorem sequenceTime_append (k : Config) (rom : Rom) (a b : List Instr) :
    sequenceTime k rom (a ++ b) = sequenceTime k rom a + sequenceTime k rom b := by
  simp [sequenceTime]

/-- Every half-pulse of the data is a TICK (41_serializer R128, R129). -/
theorem sequenceTime_dataBits (k : Config) (rom : Rom) (v : CodeWord) (n : Nat) :
    sequenceTime k rom (dataBits v n) = 2 * n * emissionTime k rom .tick := by
  induction n with
  | zero => simp [dataBits, sequenceTime]
  | succ n ih =>
    rw [dataBits, sequenceTime_append, ih]
    simp only [bitPair, sequenceTime, List.map_cons, List.map_nil, List.sum_cons, List.sum_nil, microTime]
    ring

/-- A frame has 66 TICKs, a SEP and a ZERO (41_serializer R139). -/
theorem sequenceTime_frame (k : Config) (rom : Rom) (v : CodeWord) :
    sequenceTime k rom (frame v) =
      66 * emissionTime k rom .tick + emissionTime k rom .sep + emissionTime k rom .zero := by
  rw [frame, sequenceTime_append, sequenceTime_append, sequenceTime_dataBits]
  simp only [sequenceTime, List.map_cons, List.map_nil, List.sum_cons, List.sum_nil, microTime]
  ring

theorem sequenceTime_frames (k : Config) (rom : Rom) (v : CodeWord) (r : Nat) :
    sequenceTime k rom (frames v r) =
      r * (66 * emissionTime k rom .tick + emissionTime k rom .sep + emissionTime k rom .zero) := by
  induction r with
  | zero => simp [frames, sequenceTime]
  | succ r ih =>
    rw [frames, sequenceTime_append, ih, sequenceTime_frame]
    ring

/-- A transmit's sequence lasts T(r) (41_serializer R139). -/
theorem sequenceTime_seq (k : Config) (rom : Rom) (v : CodeWord) (r : Nat) (g : Bool) :
    sequenceTime k rom (seq v r g) = transmitTime k rom r := by
  simp only [seq, sequenceTime_append, sequenceTime_frames, transmitTime]
  cases g <;>
    simp only [sequenceTime, List.map_cons, List.map_nil, List.sum_cons, List.sum_nil, microTime, if_true,
      Bool.false_eq_true, if_false] <;>
    ring

/-- T(r) in a configuration, from the durations of the four classes. -/
theorem transmitTime_eq {k : Config} {rom : Rom} {dZero dTick dSep dLong : Nat}
    (hzero : emissionTime k rom .zero = dZero) (htick : emissionTime k rom .tick = dTick)
    (hsep : emissionTime k rom .sep = dSep) (hlong : emissionTime k rom .long = dLong) (r : Nat) :
    transmitTime k rom r = dLong + dTick + dSep + 2 * dTick + (66 * dTick + dSep + dZero) * r := by
  rw [transmitTime, hzero, htick, hsep, hlong]
  ring

/-- Settles O50: the sum of the durations over the sequence, and the default configuration's. -/
theorem transmitTakesItsNominalDuration : Obligations.TransmitTakesItsNominalDuration := by
  refine ⟨fun v r s rest h hp hh hu => ?_, fun r => ⟨?_, ?_, ?_⟩⟩
  · obtain ⟨t, hrun, hends, -⟩ := h.transmit_runs hp hh hu
    refine ⟨t, hrun, hends.idle, ?_⟩
    rw [hends.time, todo_accepted, sequenceTime_seq]
    rfl
  · exact transmitTime_eq (dZero := 0) (dTick := 1140) (dSep := 5472) (dLong := 57000) rfl rfl rfl rfl r
  · exact transmitTime_eq (dZero := 0) (dTick := 142) (dSep := 684) (dLong := 7125) rfl rfl rfl rfl r
  · exact transmitTime_eq (dZero := 0) (dTick := 71) (dSep := 342) (dLong := 3562) rfl rfl rfl rfl r

/-- Settles O51: each step records its micro-operation's events, and the last the completion. -/
theorem transmitRecordsTheEventsOfItsSequence : Obligations.TransmitRecordsTheEventsOfItsSequence := by
  intro v r s rest h hp hlaw hh hu
  obtain ⟨t, hrun, hends, -⟩ := h.transmit_runs hp hh hu
  have htrace := hends.trace hlaw
  rw [todo_accepted] at htrace
  exact ⟨t, hrun, htrace⟩

end Sys2Proof.Machine
end

section
/-! SUPPORT. The commands at their acceptance and their completion (42_commands R150, R151, R153, R156, R158), the step
that runs a decoded word (41_serializer R120; 40_driver R91), and where `done` comes from. -/

namespace Sys2Proof.Machine

/-! ### Acceptance -/

/-- CONSTRUCT completes at its own acceptance (42_commands R151, R152). -/
theorem Live.exec_construct {s : State} (h : Live s) (hp : s.ph = .idle) :
    exec .construct s = .next (complete .construct { constructActions s with cmd := .construct }) := by
  rw [exec, execConstruct, configured_eq h.configured, accept_idle h.noFault hp]

theorem Live.exec_init {s : State} (h : Live s) (hp : s.ph = .idle) :
    exec .init s = .next { s with ph := .finalInit, cmd := .init } := by
  rw [exec, execInit, configured_eq h.configured, accept_idle h.noFault hp]

/-- Settles O21: what CONSTRUCT's actions do, and then its completion. -/
theorem constructBuildsTheRomAndTheIdleLine : Obligations.ConstructBuildsTheRomAndTheIdleLine := by
  intro s h hp
  rw [h.exec_construct hp, constructActions_eq]
  simp [complete, record, lineInitEvents]

/-- Settles O22: the acceptance, and then the step of FINAL_INIT from the accepted state. -/
theorem initRunsFinalInit : Obligations.InitRunsFinalInit := by
  intro s h hp
  refine ⟨h.exec_init hp, fun hh => ?_⟩
  have haccepted : Live { s with ph := .finalInit, cmd := .init } :=
    ⟨h.configured, h.launched, h.noFault, h.free, h.noRequest⟩
  exact (finalInitForcesTheIdleLine _ haccepted hh rfl).2

/-- Settles O23: an idle block accepts TRANSMIT, whose start depends on GUARD. -/
theorem transmitLoadsItsOperandsAndStarts : Obligations.TransmitLoadsItsOperandsAndStarts := by
  intro code rep s h hp
  rw [exec, execTransmit, configured_eq h.configured, accept_idle h.noFault hp]
  cases s.guard <;> rfl

/-- Each of the three commands asks for acceptance of its own word first (42_commands R150). -/
theorem exec_command {i : Instr} {w : CommandWord} (hw : encode i = .c64 w) (s : State) :
    ∃ k, exec i s = configured s fun s => accept w s k := by
  cases i with
  | construct | init | transmit code rep => cases hw; exact ⟨_, rfl⟩
  | emit level cls | lineInit => cases hw

/-- Settles O24: acceptance by a busy block raises the fault, and nothing of the command follows. -/
theorem commandsFaultWhileBusy : Obligations.CommandsFaultWhileBusy := by
  intro i w s hw h hp
  obtain ⟨k, hexec⟩ := exec_command hw s
  rw [hexec, configured_eq h.configured, accept_busy h.noFault hp]
  rfl

/-! ### The step that runs a decoded word -/

/-- A step of a launched block without a fault in which nothing is presented: no move is left, or it is `pass`. -/
theorem step_eq_whenLive {s : State} {rest : List HostMove} (hk : s.cfg.wellFormed = true)
    (hl : s.launched = true) (hf : s.fault = none) (hh : s.host = [] ∧ rest = [] ∨ s.host = .pass :: rest) :
    step s = whenLive { s with host := rest } waitInside sequencerStep := by
  rcases hh with ⟨hh, rfl⟩ | hh
  · rw [step_of_no_move hk hh, quietStep_of_noFault hl hf, ← hh]
  · rw [step, arbitrate, configured_eq hk, hh]

/-- The same at a step boundary: it is a step of the sequencer (41_serializer R120). -/
theorem Live.step_eq_sequencerStep {s : State} {rest : List HostMove} (h : Live s)
    (hp : s.ph.isReserved = false) (hh : s.host = [] ∧ rest = [] ∨ s.host = .pass :: rest) :
    step s = sequencerStep { s with host := rest, done := false } := by
  rw [step_eq_whenLive h.configured h.launched h.noFault hh]
  exact whenLive_eq (s := { s with host := rest }) h.launched h.noFault h.free hp _ _

/-- The driver runs what a word decodes to (40_driver R91). -/
theorem runIssue_of_word {w : MicroWord} {i : Instr} (hd : decodeMicro w = .instr i) (s : State) :
    runIssue (.word w) s = exec i s := by
  rw [runIssue, runWord, hd]

/-- A word that stands issued is run, where the driver waits in no delay call (40_driver R91). -/
theorem waitInside_of_mop {s : State} {m : Mop} (hm : s.mop = some m) (hq : s.req = none) :
    waitInside s = thenAdvance (runIssue m.issue s) := by
  simp only [waitInside, insideStep, hq, Option.isSome_none, Bool.false_eq_true, if_false, current_of_some hm]

/-- Inside a micro-operation a launched block without a fault goes on with it. -/
theorem whenLive_inside {s : State} (hl : s.launched = true) (hf : s.fault = none) (hm : s.mop ≠ none)
    (k j : State → Result) : whenLive s k j = k { s with done := false } := by
  simp [whenLive, hl, faultOut, hf, Option.isSome_iff_ne_none.2 hm]

/-- A live idle block executes the command that is presented (42_commands R150). -/
theorem Live.step_of_decoded_command {s : State} {w : CommandWord} {i : Instr} {rest : List HostMove} (h : Live s)
    (hp : s.ph = .idle) (hh : s.host = .command w :: rest) (hd : decodeCommand w = .instr i) :
    step s = exec i { s with host := rest, done := false } := by
  rw [h.step_of_command hp hh, acceptWord, hd]

/-- Settles O7: a command word at its acceptance, a word that stands issued, and the word that the phase issues. -/
theorem stepRunsTheDecodedInstruction : Obligations.StepRunsTheDecodedInstruction := by
  refine ⟨fun s w i rest h => h.step_of_decoded_command, fun s w i rest hk hl hf hq hm hh hd => ?_,
    fun s w i rest h hh hi hd => ?_⟩
  · rw [step_eq_whenLive hk hl hf hh,
      whenLive_inside (s := { s with host := rest }) hl hf (by simp [hm]),
      waitInside_of_mop (s := { s with host := rest, done := false }) hm hq]
    exact congrArg thenAdvance (runIssue_of_word hd _)
  · have hissue : issue { s with host := rest, done := false } = .word w := hi
    rw [h.step_eq_sequencerStep (isReserved_of_word hi) hh, sequencerStep, hissue, runIssue_of_word hd]

/-! ### Completion -/

/-- In IDLE the sequencer changes nothing (41_serializer R120). -/
theorem Live.sequencerStep_idle {s : State} (h : Live s) (hp : s.ph = .idle) : sequencerStep s = .next s := by
  have hfree : { s with mop := none } = s := by rw [← h.free]
  have hi : issue s = .nothing := by simp only [issue, hp]
  have hfault : faultOut s = false := by simp [faultOut, h.noFault]
  have hadv : advance s = s := by simp only [advance, hp]
  simp only [sequencerStep, hi, runIssue, thenAdvance, hfault, hfree, hadv, Bool.false_eq_true, if_false]

/-- Where nothing is presented to an idle block, the step ends the `done` pulse and changes nothing else
(42_commands R151). -/
theorem Live.step_of_idle {t : State} {moves : List HostMove} (h : Live t) (hp : t.ph = .idle)
    (hh : t.host = [] ∧ moves = [] ∨ t.host = .pass :: moves) :
    step t = .next { t with host := moves, done := false } := by
  rw [h.step_eq_sequencerStep (by rw [hp]; rfl) hh]
  exact (h.taken moves false).sequencerStep_idle hp

/-- A live idle block in which command `c` has just completed, with the moves `rest` to come. -/
structure JustCompleted (c : Command) (rest : List HostMove) (t : State) : Prop where
  live : Live t
  idle : t.ph = .idle
  host : t.host = rest
  recorded : t.trace.getLast? = some ⟨t.time, .done c⟩
  pulse : t.done = true

/-- What `complete` leaves of a live idle block. -/
theorem Live.justCompleted {s : State} (h : Live s) (hp : s.ph = .idle) (c : Command) :
    JustCompleted c s.host (complete c s) where
  live := ⟨h.configured, h.launched, h.noFault, h.free, h.noRequest⟩
  idle := hp
  host := rfl
  recorded := by simp
  pulse := rfl

/-- The outputs after a completion, and the end of the pulse in the next step in which nothing is presented. -/
theorem JustCompleted.pulses {c : Command} {rest : List HostMove} {t : State} (h : JustCompleted c rest t) :
    t.trace.getLast? = some ⟨t.time, .done c⟩ ∧ doneOut t = true ∧ busy t = false ∧
      (rest = [] → step t = .next { t with done := false }) ∧
      ∀ more, rest = .pass :: more → step t = .next { t with host := more, done := false } := by
  refine ⟨h.recorded, h.pulse, by simp [busy, h.idle], fun hrest => ?_, fun more hrest => ?_⟩
  · have hh : t.host = [] := h.host.trans hrest
    rw [h.live.step_of_idle h.idle (.inl ⟨hh, rfl⟩), ← hh]
  · exact h.live.step_of_idle h.idle (.inr (h.host.trans hrest))

/-- FINAL_INIT's step completes the command in progress (41_serializer R134). -/
theorem Live.sequencerStep_finalInit {s : State} (h : Live s) (hp : s.ph = .finalInit) :
    ∃ t, sequencerStep s = .next t ∧ JustCompleted s.cmd s.host t := by
  have hline := h.sequencerStep_lineInit (by simp only [issue, hp])
  rw [advance_finalInit (by exact hp)] at hline
  have hlive : Live { lineInitActions s with ph := .idle } :=
    ⟨h.configured, h.launched, h.noFault, h.free, h.noRequest⟩
  exact ⟨_, hline, hlive.justCompleted rfl s.cmd⟩

/-- CONSTRUCT's acceptance completes it (42_commands R151). -/
theorem Live.exec_construct_completes {s : State} (h : Live s) (hp : s.ph = .idle) :
    ∃ t, exec .construct s = .next t ∧ JustCompleted .construct s.host t := by
  have hlive : Live { constructActions s with cmd := .construct } :=
    ⟨h.configured, h.launched, h.noFault, h.free, h.noRequest⟩
  exact ⟨_, h.exec_construct hp, hlive.justCompleted rfl .construct⟩

/-- Settles O25: both steps leave a block in which the command has just completed. -/
theorem completionRecordsDoneAndPulses : Obligations.CompletionRecordsDoneAndPulses := by
  refine ⟨fun s rest h hp hh => ?_, fun s rest h hp hh => ?_⟩
  · obtain ⟨t, hstep, hdone⟩ := (h.taken rest false).sequencerStep_finalInit hp
    exact ⟨t, (h.step_eq_sequencerStep (by rw [hp]; rfl) hh).trans hstep, hdone.pulses⟩
  · obtain ⟨t, hexec, hdone⟩ := (h.taken rest false).exec_construct_completes hp
    exact ⟨t, (h.step_of_decoded_command hp hh (by decide)).trans hexec, hdone.pulses⟩

/-! ### The host's wait -/

/-- Settles O54: the wait's two branches, by `busy`. -/
theorem hostWaitLetsTheBlockFinishThenTimePass : Obligations.HostWaitLetsTheBlockFinishThenTimePass := by
  intro s n rest h hres hh
  have hstep : step s = waitStep n { s with host := rest, done := false } := by
    rw [step, arbitrate, configured_eq h.configured, hh]
    exact whenLive_eq (s := { s with host := rest }) h.launched h.noFault h.free hres _ _
  refine ⟨fun hp => ?_, fun hp => ?_⟩
  · rw [hstep, waitStep, if_neg (by simp [busy, hp])]
    rfl
  · rw [hstep, waitStep, if_pos (by simp [busy, hp]), ← hh]

/-! ### Where `done` comes from -/

/-- `done` is 1 in `t` only where the move from `s` to `t` recorded a Done as its last event, at the TIME of `t`, and
left the block idle (42_commands R151). -/
def PulsesOnlyWhenDone (s t : State) : Prop :=
  t.done = true → t.ph = .idle ∧ ∃ es c, t.trace = s.trace ++ es ++ [⟨t.time, .done c⟩]

/-- Whatever leaves `done` at 0. -/
theorem PulsesOnlyWhenDone.of_not_done {s t : State} (h : t.done = false) : PulsesOnlyWhenDone s t := fun ht => by
  rw [h] at ht
  cases ht

/-- A trace that grew before the completion. -/
theorem PulsesOnlyWhenDone.of_grows {s u t : State} (hu : Grows s u) (h : PulsesOnlyWhenDone u t) :
    PulsesOnlyWhenDone s t := fun ht => by
  obtain ⟨⟨es, hes⟩, -⟩ := hu
  obtain ⟨hp, es', c, htr⟩ := h ht
  exact ⟨hp, es ++ es', c, by rw [htr, hes, List.append_assoc s.trace]⟩

theorem complete_pulsesOnlyWhenDone (c : Command) {s : State} (hp : s.ph = .idle) :
    PulsesOnlyWhenDone s (complete c s) := fun _ => ⟨hp, [], c, by simp⟩

/-- A register that is read before an update may hold no value: then a fault is all that happens. -/
theorem withReg_done {α : Type} {s : State} {k : α → State} (hk : ∀ v, (k v).done = false) :
    ∀ x : ReadResult α, (withReg x s k).done = false
  | .value v => hk v
  | .unwritten _ => rfl

/-- Only FINAL_INIT's updates complete a command (41_serializer R121, R134). -/
theorem advance_pulsesOnlyWhenDone {s : State} (hd : s.done = false) : PulsesOnlyWhenDone s (advance s) := by
  cases hp : s.ph with
  | finalInit =>
    rw [advance_finalInit hp]
    exact complete_pulsesOnlyWhenDone s.cmd (s := { s with ph := .idle }) rfl
  | preSep | trailZero =>
    simp only [advance, hp]
    refine .of_not_done (withReg_done (fun _ => ?_) _)
    exact hd
  | dataSecond =>
    simp only [advance, hp]
    refine .of_not_done (withReg_done (fun b => ?_) _)
    split <;> exact hd
  | _ =>
    simp only [advance, hp]
    exact .of_not_done hd

theorem DelayEffect.done_eq {s t : State} (h : DelayEffect s t) : t.done = s.done := by
  obtain ⟨d, τ, es, q, rfl, -⟩ := h
  rfl

/-- The driver does not reach `done`. -/
theorem MicroRun.done_eq {x : Issue} {s u : State} (h : MicroRun x s u) : u.done = s.done := by
  cases h with
  | line hx hu => subst hu; rfl
  | start e c hx hu => exact hu.done_eq
  | resume hq hu => exact hu.done_eq

theorem RunCase.pulsesOnlyWhenDone {x : Issue} {s t : State} (hd : s.done = false) (h : RunCase x s t) :
    PulsesOnlyWhenDone s t := by
  cases h with
  | nothing hx ht => subst ht; exact advance_pulsesOnlyWhenDone (s := { s with mop := none }) hd
  | faulted r hr ht => subst ht; exact .of_not_done rfl
  | completed u hu hq ht =>
    subst ht
    exact .of_grows hu.grows (advance_pulsesOnlyWhenDone (s := { u with mop := none }) (hu.done_eq.trans hd))
  | waits u hx hu hq ht => subst ht; exact .of_not_done (hu.done_eq.trans hd)

/-- Of the commands only CONSTRUCT completes at its acceptance (42_commands R151). -/
theorem command_pulsesOnlyWhenDone {w : CommandWord} {i : Instr} {s t : State} (hdec : decodeCommand w = .instr i)
    (hd : s.done = false) (hf : s.fault = none) (hp : s.ph = .idle) (ht : exec i s = .next t) :
    PulsesOnlyWhenDone s t := by
  rcases exec_decodeCommand hdec hf hp ht with ⟨-, rfl⟩ | ⟨c, r, -, rfl⟩ | ⟨-, rfl⟩
  · exact .of_not_done hd
  · exact .of_not_done hd
  · exact .of_grows (constructActions_grows s) (complete_pulsesOnlyWhenDone .construct rfl)

/-- Every case of a step of a launched block without a fault. -/
theorem StepCase.pulsesOnlyWhenDone {s t : State} (hk : s.cfg.wellFormed = true) (hl : s.launched = true)
    (hf : s.fault = none) (h : StepCase s t) : PulsesOnlyWhenDone s t := by
  cases h with
  | reset cut rest hm ht => subst ht; exact .of_not_done rfl
  | interfere rest hm ht => subst ht; exact .of_not_done (by simp [Machine.interfere, hl])
  | skip m rest hm hn hd ht => simp [hl, hf] at hd
  | raised r rest _ _ hm hr ht => subst ht; exact .of_not_done rfl
  | command w i rest hm _ _ hp hb hd ht =>
    exact command_pulsesOnlyWhenDone (s := { s with host := rest, done := false }) hd rfl hf hp ht
  | waited n rest hm _ _ hp hb ht => subst ht; exact .of_not_done rfl
  | boundary acks rest _ _ hb hp hm ht =>
    refine RunCase.pulsesOnlyWhenDone (s := { s with host := rest, done := false }) (x := issue s) rfl ?_
    cases acks with
    | none => exact sequencerStep_cases (s := { s with host := rest, done := false }) hk hf ht
    | some k => exact heldStep_cases (s := { s with host := rest, done := false }) hk hf ht
  | waiting rest _ _ hb hq hm ht => subst ht; exact .of_not_done rfl
  | inside acks rest _ _ hb hm ht =>
    exact RunCase.pulsesOnlyWhenDone (s := { s with host := rest, done := false }) rfl
      (insideStep_cases (s := { s with host := rest, done := false }) hk hf hb ht)

/-- Settles O26, by the cases of a step: each ends the pulse of the step before, and `complete` alone starts one. -/
theorem doneIsPulsedOnlyAtACompletion : Obligations.DoneIsPulsedOnlyAtACompletion := by
  intro s t hl hf hs hdone
  obtain ⟨hk, hc⟩ := step_cases hs
  obtain ⟨hp, hrecorded⟩ := hc.pulsesOnlyWhenDone hk hl hf hdone
  exact ⟨by simp [busy, hp], hrecorded⟩

end Sys2Proof.Machine
end

section
/-! SUPPORT. Which faults a block can raise (60_exceptions R170, R171; 30_encoding R78, R81; 10_state R38), and the line
between commands (60_exceptions R182; 70_reset_and_hazards R197). -/

namespace Sys2Proof.Machine

/-! ### What the sequencer hands to the driver raises no fault -/

/-- In the invariant a phase issues nothing, or an instruction of the sequence (41_serializer R121). -/
theorem RegistersInv.nothing_or_issues {s : State} (h : RegistersInv s) :
    issue s = .nothing ∨ ∃ i, Issues s i := by
  by_cases hidle : s.ph = .idle
  · exact .inl (by simp only [issue, hidle])
  · by_cases hfinal : s.ph = .finalInit
    · exact .inr ⟨.lineInit, .lineInit (by simp only [issue, hfinal])⟩
    · obtain ⟨i, hrow⟩ := h.row hidle hfinal
      exact .inr ⟨i, hrow.issues⟩

/-- A phase finds a value in every register it reads before its micro-operation, and is no reserved one (10_state R38;
30_encoding R81). -/
theorem RegistersInv.issue_ne_fault {s : State} (h : RegistersInv s) :
    (∀ n, issue s ≠ .unwritten n) ∧ ∀ p, issue s ≠ .badPhase p := by
  rcases h.nothing_or_issues with hi | ⟨i, hi⟩
  · simp [hi]
  · cases hi with
    | emit b c hi | lineInit hi | literalTrailZero hi => simp [hi]

/-- No phase issues a reserved word (30_encoding R78, R79). -/
theorem decodeMicro_of_issue {s : State} {w : MicroWord} (h : issue s = .word w) : ∃ i, decodeMicro w = .instr i := by
  rcases issue_eq_word h with rfl | rfl | rfl | rfl | ⟨b, rfl⟩
  · exact ⟨_, decodeMicro_lineInitWord⟩
  all_goals exact ⟨_, decodeMicro_emitWord _ _⟩

/-- The updates after a micro-operation find a value in every register they read (41_serializer R121). -/
theorem RegistersInv.advance_fault {s : State} (h : RegistersInv s) : (advance s).fault = s.fault := by
  by_cases hidle : s.ph = .idle
  · simp only [advance, hidle]
  · by_cases hfinal : s.ph = .finalInit
    · rw [advance_finalInit hfinal]
      rfl
    · obtain ⟨i, hrow⟩ := h.row hidle hfinal
      obtain ⟨p, r, b, hu⟩ := hrow.update
      rw [hu]

theorem DelayEffect.fault_eq {s t : State} (h : DelayEffect s t) : t.fault = s.fault := by
  obtain ⟨d, τ, es, q, rfl, -⟩ := h
  rfl

/-- The driver raises no fault inside a micro-operation (60_exceptions R170). -/
theorem MicroRun.fault_eq {x : Issue} {s u : State} (h : MicroRun x s u) : u.fault = s.fault := by
  cases h with
  | line hx hu => subst hu; rfl
  | start e c hx hu => exact hu.fault_eq
  | resume hq hu => exact hu.fault_eq

/-- Neither the sequencer nor the driver raises a fault in the invariant. -/
theorem RunCase.fault_eq {s t : State} (h : SequencerInv s) (hr : RunCase (issue s) s t) : t.fault = s.fault := by
  have hregs := h.registersInv
  obtain ⟨hunwritten, hbadPhase⟩ := hregs.issue_ne_fault
  cases hr with
  | nothing hx ht =>
    subst ht
    exact RegistersInv.advance_fault (s := { s with mop := none }) (hregs.congr rfl)
  | faulted r hr ht =>
    rcases hr with ⟨n, hx, -⟩ | ⟨p, hx, -⟩ | ⟨w, e, hx, hd, -⟩ | ⟨hq, hd, -⟩
    · exact absurd hx (hunwritten n)
    · exact absurd hx (hbadPhase p)
    · obtain ⟨i, hi⟩ := decodeMicro_of_issue hx
      rw [hi] at hd
      cases hd
    · obtain ⟨n, hn⟩ := Option.ne_none_iff_exists'.1 hq
      obtain ⟨d, hdly, -⟩ := h.owed n hn
      rw [hd] at hdly
      cases hdly
  | completed u hu hq ht =>
    subst ht
    exact (RegistersInv.advance_fault (s := { u with mop := none }) (hregs.congr hu.registers_eq)).trans hu.fault_eq
  | waits u hx hu hq ht => subst ht; exact hu.fault_eq

/-! ### A step in the invariant -/

/-- Everything a step can do in the sequencer's invariant, as far as FAULT, PH and the pin's level go. -/
inductive InvStepCase (s t : State) : Prop where
  /-- `rst` starts a new launch (70_reset_and_hazards R190). -/
  | reset (rest : List HostMove) (ended : List (List Stamped))
      (ht : t = { State.afterReset s.cfg rest with ended := ended })
  /-- Interference, a wait that passes, a block that waits for `dly_ack` or takes no step: nothing changes here. -/
  | same (hf : t.fault = s.fault) (hp : t.ph = s.ph) (hv : t.level = s.level) (hl : t.launched = s.launched)
  /-- A command that breaks the host's duties raises its fault (60_exceptions R171). -/
  | raised (w : CommandWord) (r : FaultReason) (rest : List HostMove) (hl : s.launched = true)
      (hr : r = .reentrant w s.ph ∨ r = .illegalCommand w) (ht : t = raise r { s with host := rest, done := false })
  /-- An idle block accepts a command (42_commands R150). -/
  | command (w : CommandWord) (i : Instr) (rest : List HostMove) (hd : decodeCommand w = .instr i)
      (hf : s.fault = none) (hp : s.ph = .idle) (ht : exec i { s with host := rest, done := false } = .next t)
  /-- The sequencer and the driver go on with the phase's micro-operation (41_serializer R120; 40_driver R91). -/
  | run (rest : List HostMove) (hl : s.launched = true) (h0 : SequencerInv { s with host := rest, done := false })
      (hr : RunCase (issue s) { s with host := rest, done := false } t)

/-- Interference reaches neither FAULT, nor PH, nor the pin's level (60_exceptions R183). -/
theorem interfere_keeps (s : State) : (interfere s).fault = s.fault ∧ (interfere s).ph = s.ph ∧
    (interfere s).level = s.level ∧ (interfere s).launched = s.launched := by
  unfold interfere
  split <;> exact ⟨rfl, rfl, rfl, rfl⟩

/-- In the invariant no reserved phase is met, and the driver runs what the phase issues. -/
theorem StepCase.inInvariant {s t : State} (hk : s.cfg.wellFormed = true) (h : SequencerInv s) (hc : StepCase s t) :
    InvStepCase s t := by
  have taken : ∀ rest, SequencerInv { s with host := rest, done := false } := fun rest => h.congr rfl
  cases hc with
  | reset cut rest hm ht => exact .reset rest _ ht
  | interfere rest hm ht =>
    subst ht
    obtain ⟨hf, hp, hv, hl⟩ := interfere_keeps { s with host := rest }
    exact .same hf hp hv hl
  | skip m rest hm hn hd ht => subst ht; exact .same rfl rfl rfl rfl
  | raised r rest hl hf hm hr ht =>
    rcases hr with ⟨hres, -⟩ | ⟨w, -, hr⟩
    · rw [h.phase] at hres
      cases hres
    · exact .raised w r rest hl hr ht
  | command w i rest hm hl hf hp hb hd ht =>
    exact .command w i rest hd hf hp ht
  | waited n rest hm hl hf hp hb ht => subst ht; exact .same rfl rfl rfl rfl
  | boundary acks rest hl hf hb hp hm ht =>
    refine .run rest hl (taken rest) ?_
    cases acks with
    | none => exact sequencerStep_cases (s := { s with host := rest, done := false }) hk hf ht
    | some k => exact heldStep_cases (s := { s with host := rest, done := false }) hk hf ht
  | waiting rest hl hf hb hq hm ht => subst ht; exact .same rfl rfl rfl rfl
  | inside acks rest hl hf hb hm ht =>
    refine .run rest hl (taken rest) ?_
    have hr := insideStep_cases (s := { s with host := rest, done := false }) hk hf hb ht
    rwa [(taken rest).current_eq] at hr

/-! ### The faults of a step -/

/-- An accepted command raises no fault (42_commands R152, R153, R156). -/
theorem command_fault_eq {w : CommandWord} {i : Instr} {s t : State} (hd : decodeCommand w = .instr i)
    (hf : s.fault = none) (hp : s.ph = .idle) (ht : exec i s = .next t) : t.fault = s.fault := by
  rcases exec_decodeCommand hd hf hp ht with ⟨-, rfl⟩ | ⟨c, r, -, rfl⟩ | ⟨-, rfl⟩ <;> rfl

/-- What a step leaves in FAULT: what it held, nothing after `rst`, or a fault of the host's. -/
theorem InvStepCase.fault_cases {s t : State} (h : InvStepCase s t) :
    t.fault = s.fault ∨ t.fault = none ∨ ∃ r, t.fault = some r ∧ r.isHosts = true := by
  cases h with
  | reset rest ended ht => subst ht; exact .inr (.inl rfl)
  | same hf hp hv hl => exact .inl hf
  | raised w r rest hl hr ht =>
    subst ht
    rcases hr with rfl | rfl
    · exact .inr (.inr ⟨_, rfl, rfl⟩)
    · exact .inr (.inr ⟨_, rfl, rfl⟩)
  | command w i rest hd hf hp ht =>
    exact .inl (command_fault_eq (s := { s with host := rest, done := false }) hd hf hp ht)
  | run rest hl h0 hr => exact .inl (RunCase.fault_eq (s := { s with host := rest, done := false }) h0 hr)

/-- Settles O42, by the cases of a step: in the invariant only a command that the host presents raises a fault. -/
theorem onlyTheHostsFaultsAreRaised : Obligations.OnlyTheHostsFaultsAreRaised := by
  intro s t h hhosts hs r hr
  obtain ⟨hk, hc⟩ := step_cases hs
  rcases (hc.inInvariant hk h).fault_cases with hsame | hnone | ⟨r', hr', hhost⟩
  · exact hhosts r (hsame ▸ hr)
  · rw [hnone] at hr
    cases hr
  · rw [hr'] at hr
    cases hr
    exact hhost

/-! ### The line between commands -/

/-- The updates reach IDLE from FINAL_INIT alone (41_serializer R121, R134). -/
theorem RegistersInv.of_advance_idle {s : State} (h : RegistersInv s) (hp : (advance s).ph = .idle) :
    s.ph = .idle ∨ s.ph = .finalInit := by
  by_cases hidle : s.ph = .idle
  · exact .inl hidle
  · by_contra hresting
    obtain ⟨i, hrow⟩ := h.row hidle fun hfinal => hresting (.inr hfinal)
    exact hrow.busy hp

/-- The updates write no level. -/
theorem advance_level (s : State) : (advance s).level = s.level := by
  obtain ⟨p, r, b, f, dn, es, hu, -⟩ := advance_effect s
  rw [hu]

/-- IDLE and FINAL_INIT issue no emission. -/
theorem issue_pulse_of_idle_or_finalInit {s : State} (hp : s.ph = .idle ∨ s.ph = .finalInit) :
    (issue s).pulse = none := by
  rcases hp with hp | hp
  · simp only [issue, hp, Issue.pulse]
  · simp only [issue, hp]
    decide

/-- The micro-operation of FINAL_INIT is LINE_INIT, which drives the pin HIGH, and IDLE has none (40_driver R100). -/
theorem MicroRun.level_high {s u : State} (h : SequencerInv s) (hu : MicroRun (issue s) s u)
    (hp : s.ph = .idle ∨ s.ph = .finalInit) : u.level = some .high := by
  have hpulse := issue_pulse_of_idle_or_finalInit hp
  cases hu with
  | line hx hu => subst hu; rfl
  | start e c hx hu =>
    rw [hpulse] at hx
    cases hx
  | resume hq hu => exact absurd hpulse (h.pulse_of_req hq)

theorem MicroRun.ph_eq {x : Issue} {s u : State} (h : MicroRun x s u) : u.ph = s.ph :=
  (phase_rep_bit_of_registers h.registers_eq).1

/-- A step of the sequencer and the driver that ends in IDLE ends with the pin HIGH. -/
theorem RunCase.level_high {s t : State} (h : SequencerInv s) (hr : RunCase (issue s) s t)
    (hs : s.ph = .idle → s.level = some .high) (hp : t.ph = .idle) : t.level = some .high := by
  have hregs := h.registersInv
  cases hr with
  | nothing hx ht =>
    subst ht
    rw [advance_level]
    have hresting : s.ph = .idle ∨ s.ph = .finalInit :=
      RegistersInv.of_advance_idle (s := { s with mop := none }) (hregs.congr rfl) hp
    rcases hresting with hidle | hfinal
    · exact hs hidle
    · simp only [issue, hfinal] at hx
      cases hx
  | faulted r hr ht => subst ht; exact hs hp
  | completed u hu hq ht =>
    subst ht
    rw [advance_level]
    have hresting : u.ph = .idle ∨ u.ph = .finalInit :=
      RegistersInv.of_advance_idle (s := { u with mop := none }) (hregs.congr hu.registers_eq) hp
    rw [hu.ph_eq] at hresting
    exact MicroRun.level_high (u := u) h hu hresting
  | waits u hx hu hq ht =>
    subst ht
    exact MicroRun.level_high (u := u) h hu (.inl (hu.ph_eq.symm.trans hp))

/-- A command that leaves the block idle is CONSTRUCT, which drives the pin HIGH (42_commands R152). -/
theorem command_level_high {w : CommandWord} {i : Instr} {s t : State} (hd : decodeCommand w = .instr i)
    (hf : s.fault = none) (hs : s.ph = .idle) (ht : exec i s = .next t) (hp : t.ph = .idle) :
    t.level = some .high := by
  rcases exec_decodeCommand hd hf hs ht with ⟨-, rfl⟩ | ⟨c, r, -, rfl⟩ | ⟨-, rfl⟩
  · cases hp
  · cases hg : s.guard <;> simp [hg] at hp
  · rfl

/-- Settles O45, by the cases of a step: IDLE is entered by `rst`, by CONSTRUCT and from FINAL_INIT, each with the pin
driven HIGH, and no level is written in it. -/
theorem idleBlockHoldsTheLineHigh : Obligations.IdleBlockHoldsTheLineHigh := by
  intro s t h hs hstep hlaunched hidle
  obtain ⟨hk, hc⟩ := step_cases hstep
  cases hc.inInvariant hk h with
  | reset rest ended ht => subst ht; rfl
  | same hf hp hv hl => exact hv.trans (hs (hl.symm.trans hlaunched) (hp.symm.trans hidle))
  | raised w r rest hl hr ht => subst ht; exact hs hl hidle
  | command w i rest hd hf hp ht =>
    exact command_level_high (s := { s with host := rest, done := false }) hd hf hp ht hidle
  | run rest hl h0 hr => exact RunCase.level_high h0 hr (hs hl) hidle

end Sys2Proof.Machine
end

section
/-! SUPPORT. The order in which a step weighs what happens at once (60_exceptions R174), a faulted block (60_exceptions
R170, R175), interference with the pin (60_exceptions R183), and several encoders (60_exceptions R180). -/

namespace Sys2Proof.Machine

/-! ### One step under a move -/

/-- `rst` comes first (60_exceptions R174): it leaves the state after reset, with the ended launches kept. -/
theorem step_of_rst {s : State} {cut : Nat} {rest : List HostMove} (hk : s.cfg.wellFormed = true)
    (hh : s.host = .rst cut :: rest) :
    ∃ ended, step s = .next { State.afterReset s.cfg rest with ended := ended } := by
  rw [step, arbitrate, configured_eq hk, hh]
  exact ⟨_, congrArg Host.Outcome.next (resetLaunch_eq (endLaunch (cutEvents cut s) { s with host := rest }))⟩

/-- Every move but `rst` and interference asks first whether the block is live. -/
theorem step_of_move {s : State} {m : HostMove} {rest : List HostMove} (hk : s.cfg.wellFormed = true)
    (hrst : ∀ cut, m ≠ .rst cut) (hint : m ≠ .interfere) (hh : s.host = m :: rest) :
    ∃ inside next, step s = whenLive { s with host := rest } inside next := by
  rw [step, arbitrate, configured_eq hk, hh]
  cases m with
  | rst cut => exact absurd rfl (hrst cut)
  | interfere => exact absurd rfl hint
  | command w | wait n | pass | ack | hold k => exact ⟨_, _, rfl⟩

/-- A faulted block takes no step (60_exceptions R170). -/
theorem whenLive_of_fault {s : State} (hf : s.fault ≠ none) (inside next : State → Result) :
    whenLive s inside next = .next s := by
  simp [whenLive, faultOut, Option.isSome_iff_ne_none.2 hf]

/-- At a step boundary a reserved phase faults, whatever is presented (60_exceptions R174). -/
theorem whenLive_of_reserved {s : State} (hl : s.launched = true) (hf : s.fault = none) (hm : s.mop = none)
    (hp : s.ph.isReserved = true) (inside next : State → Result) :
    whenLive s inside next = .next (raise (.badPhase s.ph) s) := by
  simp [whenLive, hl, faultOut, hf, hm, hp]

/-- The step of a faulted block that is given a move passes it by. -/
theorem step_of_fault {s : State} {m : HostMove} {rest : List HostMove} (hk : s.cfg.wellFormed = true)
    (hf : s.fault ≠ none) (hrst : ∀ cut, m ≠ .rst cut) (hint : m ≠ .interfere) (hh : s.host = m :: rest) :
    step s = .next { s with host := rest } := by
  obtain ⟨inside, next, hstep⟩ := step_of_move hk hrst hint hh
  rw [hstep]
  exact whenLive_of_fault (s := { s with host := rest }) hf inside next

/-- A faulted block stands where no move is left (log 14). -/
theorem step_of_fault_quiet {s : State} {r : FaultReason} (hk : s.cfg.wellFormed = true) (hl : s.launched = true)
    (hf : s.fault = some r) (hh : s.host = []) : step s = .fault (.stuck r) := by
  rw [step_of_no_move hk hh, quietStep, if_pos hl, hf]

/-- A command presented at a step boundary in a phase that is not reserved. -/
theorem step_of_command_at_boundary {s : State} {w : CommandWord} {rest : List HostMove}
    (hk : s.cfg.wellFormed = true) (hl : s.launched = true) (hf : s.fault = none) (hm : s.mop = none)
    (hp : s.ph.isReserved = false) (hh : s.host = .command w :: rest) :
    step s = commandStep w { s with host := rest, done := false } := by
  rw [step, arbitrate, configured_eq hk, hh]
  exact whenLive_eq (s := { s with host := rest }) hl hf hm hp _ _

/-- A busy block that is given a command faults (60_exceptions R174). -/
theorem commandStep_of_busy {s : State} (hp : s.ph ≠ .idle) (w : CommandWord) :
    commandStep w s = .next (raise (.reentrant w s.ph) s) := by
  simp [commandStep, busy, hp]

/-- An idle block decodes the command that it is given. -/
theorem commandStep_of_idle {s : State} (hp : s.ph = .idle) (w : CommandWord) :
    commandStep w s = acceptWord w s := by
  simp [commandStep, busy, hp]

/-- Settles O37: one lemma for each line of the order. -/
theorem stepWeighsEventsInTheSpecsOrder : Obligations.StepWeighsEventsInTheSpecsOrder := by
  intro s hk hl hm
  refine ⟨fun cut rest => step_of_rst hk, fun hf m rest => step_of_fault hk hf, fun hf hp m rest hrst hint hh => ?_,
    fun hf hp hh => ?_, fun hf hres hp w rest hh => ?_, fun hf hp w rest hh => ?_, fun hf hres => ?_,
    fun w e he => runWord_of_illegal he s⟩
  · obtain ⟨inside, next, hstep⟩ := step_of_move hk hrst hint hh
    rw [hstep]
    exact whenLive_of_reserved (s := { s with host := rest }) hl hf hm hp inside next
  · rw [step_of_no_move hk hh, quietStep_of_noFault hl hf]
    exact whenLive_of_reserved hl hf hm hp _ _
  · rw [step_of_command_at_boundary hk hl hf hm hres hh]
    exact commandStep_of_busy (s := { s with host := rest, done := false }) hp w
  · have hstep : step s = acceptWord w { s with host := rest, done := false } := by
      rw [step_of_command_at_boundary hk hl hf hm (by rw [hp]; rfl) hh]
      exact commandStep_of_idle (s := { s with host := rest, done := false }) hp w
    exact ⟨fun e he => hstep.trans (acceptWord_of_illegal he _), fun i hi => by rw [hstep, acceptWord, hi]⟩
  · have quiet : ∀ rest, s.host = [] ∧ rest = [] ∨ s.host = .pass :: rest →
        step s = sequencerStep { s with host := rest, done := false } := fun rest hh => by
      rw [step_eq_whenLive hk hl hf hh]
      exact whenLive_eq (s := { s with host := rest }) hl hf hm hres _ _
    refine ⟨fun hh => ?_, fun rest hh => quiet rest (.inr hh)⟩
    rw [quiet [] (.inl ⟨hh, rfl⟩), ← hh]

/-! ### A faulted block -/

/-- Settles O38, by induction on the moves: each step passes one by, and with none left the block stands. -/
theorem faultedBlockTakesNoStep : Obligations.FaultedBlockTakesNoStep := by
  intro n
  induction n with
  | zero => exact fun s r _ _ _ _ => ⟨fun _ => rfl, fun h => absurd h (Nat.not_lt_zero _)⟩
  | succ n ih =>
    intro s r hk hl hf hmoves
    cases hh : s.host with
    | nil =>
      have hstep := step_of_fault_quiet hk hl hf hh
      refine ⟨fun h => absurd h (Nat.not_succ_le_zero n), fun _ => ?_⟩
      simp only [runSteps, Host.Core.run, Sys2Proof.core, hstep]
    | cons m rest =>
      rw [hh] at hmoves
      obtain ⟨⟨hrst, hint⟩, hrest⟩ := List.forall_mem_cons.1 hmoves
      have hstep := step_of_fault hk (by simp [hf]) hrst hint hh
      obtain ⟨hpass, hstuck⟩ := ih { s with host := rest } r hk hl hf hrest
      rw [runSteps_succ hstep]
      exact ⟨fun h => hpass (Nat.le_of_succ_le_succ h), fun h => hstuck (Nat.lt_of_succ_lt_succ h)⟩

/-! ### Interference -/

/-- The step of a launched block that the environment interferes with (60_exceptions R183). -/
theorem step_of_interfere {s : State} {rest : List HostMove} (hk : s.cfg.wellFormed = true)
    (hl : s.launched = true) (hh : s.host = .interfere :: rest) :
    step s = .next { s with
      oe := false, oeLog := s.oeLog ++ [(s.time, false)], host := rest, done := false } := by
  rw [step, arbitrate, configured_eq hk, hh]
  exact congrArg _ (if_pos hl)

/-- The value last given to PIN.OE is PIN.OE at its time (20_memory R57). -/
theorem oeOf_snoc (oe : List (Nat × Bool)) (t : Nat) (b : Bool) : oeOf (oe ++ [(t, b)]) t = b := by
  rw [oeOf, lastAt_snoc, if_pos (Nat.le_refl t)]
  rfl

/-- While PIN.OE is 0 the line has no stated level (log 13). -/
theorem lineOf_of_oe_cleared (tr : List Stamped) (oe : List (Nat × Bool)) (t : Nat) :
    lineOf tr (oe ++ [(t, false)]) t = none := by
  rw [lineOf, if_neg (by simp [oeOf_snoc])]

/-- LINE_INIT asserts the output again, and the line is HIGH (40_driver R100). -/
theorem exec_lineInit_asserts_output {s : State} (hk : s.cfg.wellFormed = true) (hflt : noFlt s.trace = true) :
    ∃ u, exec .lineInit s = .next u ∧ u.oe = true ∧ lineAt u u.time = some .high := by
  refine ⟨lineInitActions s, exec_lineInit hk, rfl, ?_⟩
  rw [lineInitActions_eq]
  exact lineOf_append_of_marksOf hflt (marksOf_lineInitEvents s.time) (Nat.le_refl s.time) (oeOf_snoc ..)

/-- Settles O55: the cleared output, and the line initialisation that asserts it again. -/
theorem interferenceClearsTheOutputUntilReasserted : Obligations.InterferenceClearsTheOutputUntilReasserted :=
  fun s _ h hflt hh => ⟨_, step_of_interfere h.configured h.launched hh, rfl,
    lineOf_of_oe_cleared s.trace s.oeLog s.time, exec_lineInit_asserts_output h.configured hflt⟩

/-! ### Several encoders -/

/-- What a step of one encoder answers: the list with its next state in its place, or the list as it was. -/
theorem stepEncoder_eq {all : List State} {k : Nat} {s : State} (hs : all[k]? = some s) :
    (∃ t, step s = .next t ∧ stepEncoder k all = all.set k t) ∨
    ((∀ t, step s ≠ .next t) ∧ stepEncoder k all = all) := by
  simp only [stepEncoder, hs]
  cases step s with
  | next t => exact .inl ⟨t, rfl, rfl⟩
  | fault r | refused r => exact .inr ⟨by simp, rfl⟩

/-- Settles O58: a step of encoder `k` replaces its state in the list, or nothing. -/
theorem encodersAreIndependent : Obligations.EncodersAreIndependent := by
  intro all k s hs
  rcases stepEncoder_eq hs with ⟨t, hstep, hall⟩ | ⟨hnone, hall⟩
  · rw [hall]
    refine ⟨List.length_set, fun t' ht' => ?_, fun hnone => absurd hstep (hnone t), fun j hj =>
      List.getElem?_set_ne hj.symm⟩
    obtain rfl : t = t' := by rw [hstep] at ht'; cases ht'; rfl
    exact List.getElem?_set_self (List.getElem?_eq_some_iff.1 hs).1
  · rw [hall]
    exact ⟨rfl, fun t ht => absurd ht (hnone t), fun _ => hs, fun _ _ => rfl⟩

end Sys2Proof.Machine
end

section
/-! SUPPORT. `rst` (70_reset_and_hazards R190, R192), and a block before its first reset (70_reset_and_hazards R191). -/

namespace Sys2Proof.Machine

/-! ### What `rst` leaves -/

/-- The step under `rst`: the state after reset, and the launch that it ends kept (70_reset_and_hazards R190; log 8). -/
theorem step_of_rst_ended {s : State} {cut : Nat} {rest : List HostMove} (hk : s.cfg.wellFormed = true)
    (hh : s.host = .rst cut :: rest) :
    step s = .next { State.afterReset s.cfg rest with
      ended := if s.launched then s.ended ++ [s.trace ++ cutEvents cut s] else s.ended } := by
  rw [step, arbitrate, configured_eq hk, hh]
  exact congrArg Host.Outcome.next (resetLaunch_eq (endLaunch (cutEvents cut s) { s with host := rest }))

/-- Settles O10: the state after reset, whose ROM holds the exact products. -/
theorem rstStartsANewLaunch : Obligations.RstStartsANewLaunch := fun _ _ _ hk hh =>
  ⟨_, step_of_rst_ended hk hh, rfl, rfl, rfl, build_read_toNat hk, rfl, rfl, rfl, rfl, rfl, rfl, rfl, rfl, rfl, rfl,
    rfl, rfl⟩

/-! ### `rst` inside a micro-operation -/

/-- From `s` to `t` the trace grows at its end, and by no Done. -/
def RecordsNoDone (s t : State) : Prop :=
  ∃ es, t.trace = s.trace ++ es ∧ ∀ e ∈ es, ∀ c, e.event ≠ .done c

theorem DelayEffect.recordsNoDone {s t : State} (h : DelayEffect s t) : RecordsNoDone s t := by
  obtain ⟨d, τ, es, q, rfl, -, hes, -⟩ := h
  refine ⟨es, rfl, fun e he c => ?_⟩
  obtain ⟨-, -, n, hn, -⟩ := hes e he
  simp [hn]

/-- A command completes after its last micro-operation, never inside one (42_commands R151). -/
theorem MicroRun.recordsNoDone {x : Issue} {s u : State} (h : MicroRun x s u) : RecordsNoDone s u := by
  cases h with
  | line hx hu =>
    subst hu
    exact ⟨lineInitEvents s.time, by rw [lineInitActions_eq], by simp [lineInitEvents]⟩
  | start l c hx hu =>
    obtain ⟨es, htr, hes⟩ := hu.recordsNoDone
    exact ⟨⟨s.time, .set l⟩ :: es, by rw [htr]; simp [pinWrite, record], by simpa using hes⟩
  | resume hq hu => exact hu.recordsNoDone

/-- What the driver runs where the phase issues a word is a micro-operation (40_driver R91). -/
theorem microRun_of_exec {w : MicroWord} {i : Instr} {s u : State} (hd : decodeMicro w = .instr i)
    (hu : exec i s = .next u) : MicroRun (.word w) s u := by
  rcases exec_decodeMicro hd hu with ⟨b, c, rfl, rfl⟩ | ⟨rfl, rfl⟩
  · exact .start _ c (by simp [Issue.pulse, hd, Decoded.toOption, pulseOf]) (emission_effect _ c s)
  · exact .line (by rw [eq_lineInitWord hd]) rfl

/-- At a step boundary `rst` cuts the micro-operation that the phase issues (log 8). -/
theorem Live.cutEvents_eq {x : Issue} {s u : State} {es : List Stamped} (h : Live s) (hi : issue s = x)
    (hm : x.mop ≠ none) (hu : runIssue x s = .next u) (htr : u.trace = s.trace ++ es) (cut : Nat) :
    cutEvents cut s = es.take cut := by
  have hnew : newEvents s (.next u) = es := by rw [newEvents, htr, List.drop_left]
  simp only [cutEvents, h.launched, faultOut, h.noFault, h.noRequest, current_of_none h.free, hi,
    Option.isSome_none, Option.isNone_none, Bool.not_false, Bool.and_self, if_true]
  rw [← hnew, ← hu]
  cases x with
  | nothing | unwritten r | badPhase p => exact absurd rfl hm
  | word w | literalTrailZero => rfl

/-- The launch that `rst` ends inside a micro-operation (70_reset_and_hazards R192). -/
theorem Live.step_of_rst_inside {x : Issue} {s u : State} {cut : Nat} {rest : List HostMove} (h : Live s)
    (hh : s.host = .rst cut :: rest) (hi : issue s = x) (hm : x.mop ≠ none) (hu : runIssue x s = .next u)
    (hrun : MicroRun x s u) :
    ∃ t es, step s = .next t ∧ t.trace = [⟨0, .cfg⟩, ⟨0, .set .high⟩] ∧ t.ph = .idle ∧
      t.ended = s.ended ++ [s.trace ++ es] ∧ es.length ≤ cut ∧
      (∃ more, u.trace = s.trace ++ es ++ more ∧ (es.length < cut → more = [])) ∧
      ∀ e ∈ es, ∀ c, e.event ≠ .done c := by
  obtain ⟨es, htr, hes⟩ := hrun.recordsNoDone
  refine ⟨_, es.take cut, step_of_rst_ended h.configured hh, rfl, rfl, ?_, List.length_take_le cut es,
    ⟨es.drop cut, ?_, fun hlt => ?_⟩, fun e he => hes e (List.mem_of_mem_take he)⟩
  · rw [h.cutEvents_eq hi hm hu htr, if_pos h.launched]
  · rw [htr, List.append_assoc, List.take_append_drop]
  · rw [List.length_take] at hlt
    exact List.drop_eq_nil_of_le (by omega)

/-- A block that waits for `dly_ack`, and one at rest in IDLE, have no micro-operation to cut. -/
theorem cutEvents_eq_nil {s : State} (h : (s.mop = none ∧ s.ph = .idle) ∨ s.req ≠ none) (cut : Nat) :
    cutEvents cut s = [] := by
  rcases h with ⟨hm, hp⟩ | hq
  · have hi : current s = .nothing := by rw [current_of_none hm, issue, hp]
    simp [cutEvents, hi]
  · simp [cutEvents, hq]

/-- Settles O12: the events of a micro-operation are cut, and where none runs there are none to cut. -/
theorem rstInsideAMicroOpEndsTheLaunchThere : Obligations.RstInsideAMicroOpEndsTheLaunchThere := by
  refine ⟨fun s cut rest u h hh hu => ?_, fun s cut rest hk hl hh hrest => ?_⟩
  · rcases hu with ⟨w, i, hi, hd, hu⟩ | ⟨hi, rfl⟩
    · exact h.step_of_rst_inside hh hi (Option.some_ne_none _) ((runIssue_of_word hd s).trans hu)
        (microRun_of_exec hd hu)
    · exact h.step_of_rst_inside hh hi (Option.some_ne_none _) rfl
        (.start .low .zero rfl (emission_effect .low .zero s))
  · refine ⟨_, step_of_rst_ended hk hh, rfl, rfl, rfl, ?_⟩
    rw [cutEvents_eq_nil hrest, if_pos hl, List.append_nil]

/-! ### Before the first reset -/

/-- A block before its first reset passes every move but `rst` by: there is no line yet to interfere with, and no
other move finds it live (70_reset_and_hazards R191; log 15). -/
theorem step_of_not_launched {s : State} {m : HostMove} {rest : List HostMove} (hk : s.cfg.wellFormed = true)
    (hl : s.launched = false) (hrst : ∀ cut, m ≠ .rst cut) (hh : s.host = m :: rest) :
    step s = .next { s with host := rest } := by
  by_cases hint : m = .interfere
  · subst hint
    rw [step, arbitrate, configured_eq hk, hh]
    simp [interfere, hl]
  · obtain ⟨inside, next, hstep⟩ := step_of_move hk hrst hint hh
    rw [hstep]
    simp [whenLive, hl]

/-- Settles O13: no move, a move that passes, and the `rst` that begins the first launch and so ends none. -/
theorem noStepBeforeTheFirstReset : Obligations.NoStepBeforeTheFirstReset := by
  refine fun s hk hl => ⟨fun hh => ?_,
    fun m rest hh hrst => step_of_not_launched hk hl hrst hh, fun cut rest hh => ?_⟩
  · rw [step_of_no_move hk hh, quietStep, hl]
    rfl
  · rw [step_of_rst_ended hk hh, hl]
    rfl

end Sys2Proof.Machine
end
